-- ==== Sys2Proof/Word.lean ====
section
/-! DEFINITION. The two word types of SQZ-CORE: the byte of a buffer and the 32-bit host register. -/

namespace Sys2Proof

/-- A byte, bit 7 most significant (00_scope.md R7). -/
abbrev Byte := BitVec 8

/-- A host register (10_state.md R24). -/
abbrev Word := BitVec 32

end Sys2Proof
end

