-- ==== Sys2Proof/Config.lean ====
section
/-! DEFINITION. The configuration record of 00_scope.md R5: the Format Adapter table (30_encoding.md R72), the fixed
constants, and the free values (bytes of a buffer that nothing has given a value, 93_implementation_defined.md U1). -/

namespace Sys2Proof

/-- The three formats (00_scope.md R1); there are no others. -/
inductive Fmt where
  | lz80
  | lz01
  | lz03
  deriving DecidableEq, Repr

/-- Bit-packing order `F.order` (30_encoding.md R73). -/
inductive BitOrder where
  | msbFirst
  | lsbFirst
  deriving DecidableEq, Repr

/-- One Format Spec record (30_encoding.md R72); `flagLit` is the control bit that announces a literal, the other value
announces a match (00_scope.md R6: `flag_match = 1 - flag_lit`). `hdr_len` and `len_endian` are the same in all three
records and stand in `Config.hdrLen` and in `le32`. -/
structure FormatSpec where
  tag     : Byte
  order   : BitOrder
  flagLit : Bool
  offBits : Nat
  lenBits : Nat
  minLen  : Nat
  maxLen  : Nat
  winMin  : Nat
  winMax  : Nat
  deriving DecidableEq, Repr

/-- `F.flag_match` (00_scope.md R6). -/
def FormatSpec.flagMatch (F : FormatSpec) : Bool := !F.flagLit

/-- `FORMATS` (30_encoding.md R72). -/
def Fmt.spec : Fmt → FormatSpec
  | .lz80 => { tag := 0x80, order := .msbFirst, flagLit := false, offBits := 15, lenBits := 8,
               minLen := 3, maxLen := 258, winMin := 1, winMax := 32768 }
  | .lz01 => { tag := 0x01, order := .lsbFirst, flagLit := true, offBits := 12, lenBits := 4,
               minLen := 3, maxLen := 18, winMin := 1, winMax := 4096 }
  | .lz03 => { tag := 0x03, order := .msbFirst, flagLit := true, offBits := 13, lenBits := 5,
               minLen := 4, maxLen := 35, winMin := 1, winMax := 8192 }

/-- Width in stream bits of a LIT token (30_encoding.md R76). -/
def Config.litBits : Nat := 9

/-- Width in stream bits of a MATCH token (30_encoding.md R77). -/
def FormatSpec.matchBits (F : FormatSpec) : Nat := 1 + F.offBits + F.lenBits

/-- `PREFIX_LEN` (00_scope.md R5). -/
def Config.prefixLen : Nat := 3

/-- `MAX_PROBES` (00_scope.md R5). -/
def Config.maxProbes : Nat := 256

/-- `FAST_WINDOW` (00_scope.md R5). -/
def Config.fastWindow : Nat := 1024

/-- `HDR_LEN` (00_scope.md R5). -/
def Config.hdrLen : Nat := 5

/-- `CAP`, the bytes of IBUF and of OBUF (00_scope.md R5). -/
def Config.cap : Nat := 4294967295

/-- The longest input a COMPRESS or COMPRESS_FAST may be started with (44_codec_commands.md R180). -/
def Config.maxCompressLen : Nat := 3817748702

/-- `NUM_ENGINES` when nothing is said (00_scope.md R5). -/
def Config.numEngines : Nat := 1

/-- FREE VALUE: what the IBUF of an engine (first argument) holds, since the reset counted by the second, at an index
nobody has written (10_state.md R36, R38, 93_implementation_defined.md U1; log entries 2, 20). -/
opaque Config.unspecifiedIbuf : Nat → Nat → Nat → Byte

/-- FREE VALUE: what the OBUF of an engine (first argument) holds, in the span between two STARTs or resets counted by
the second, at an index whose content the spec leaves unspecified (10_state.md R36, R38, R39,
93_implementation_defined.md U1; log entries 2, 20). -/
opaque Config.unspecifiedObuf : Nat → Nat → Nat → Byte

end Sys2Proof
end

