-- ==== Sys2Proof/Syntax.lean ====
section
/-! DEFINITION. The instructions of SQZ-CORE: one constructor per row of spec/opcode_table.json (30_encoding.md R88). -/

namespace Sys2Proof

/-- `CMD.OP` of a legal command (10_state.md R26). -/
inductive Op where
  | compress
  | decompress
  | compressFast
  deriving DecidableEq, Repr

/-- Stream records (`HDR`, `LIT`, `MATCH`, `PAD`, per format), the nine commands, and the `START` strobe. Operands are
those of 00_scope.md R9 and 30_encoding.md R90: the declared length of a header, the byte of a literal, the offset and
the length of a match (not the biased fields), the number of padding bits. -/
inductive Instr where
  | hdrLz80 (origLen : Word)
  | hdrLz01 (origLen : Word)
  | hdrLz03 (origLen : Word)
  | litLz80 (byte : Byte)
  | litLz01 (byte : Byte)
  | litLz03 (byte : Byte)
  | matchLz80 (offset length : Nat)
  | matchLz01 (offset length : Nat)
  | matchLz03 (offset length : Nat)
  | padLz80 (bits : Nat)
  | padLz01 (bits : Nat)
  | padLz03 (bits : Nat)
  | compressLz80
  | decompressLz80
  | compressLz80Fast
  | compressLz01
  | decompressLz01
  | compressLz01Fast
  | compressLz03
  | decompressLz03
  | compressLz03Fast
  | start
  deriving DecidableEq, Repr

end Sys2Proof
end

