-- ==== Sys2Proof/Machine/Operands.lean ====
section
/-! DEFINITION. Operand assembly: stream bits, fields, the header's length (30_encoding.md R71, R74, R75, R78;
20_memory.md R57). -/

namespace Sys2Proof.Machine

/-- Where stream bit `k` sits in its byte (30_encoding.md R74). -/
def bitPlace (o : BitOrder) (k : Nat) : Nat :=
  match o with
  | .msbFirst => 7 - k % 8
  | .lsbFirst => k % 8

/-- Stream bit `k` taken out of the byte that holds it (30_encoding.md R74). -/
def bitOfByte (o : BitOrder) (byte : Byte) (k : Nat) : Bool := byte.getLsbD (bitPlace o k)

/-- The stream bits, in stream order, of a field of width `W` and value `v` (30_encoding.md R75). -/
def fieldBits (o : BitOrder) (W v : Nat) : List Bool :=
  match o with
  | .msbFirst => (List.range W).map fun t => v.testBit (W - 1 - t)
  | .lsbFirst => (List.range W).map fun t => v.testBit t

/-- The value of a field given its stream bits in stream order (30_encoding.md R75). -/
def fieldValue (o : BitOrder) (bits : List Bool) : Nat :=
  match o with
  | .msbFirst => bits.foldl (fun v b => 2 * v + b.toNat) 0
  | .lsbFirst => bits.foldr (fun b v => b.toNat + 2 * v) 0

/-- Split a `W`-bit field off the front of a run of stream bits; `none` when fewer than `W` are left
(43_token_decoder.md R142). -/
def takeField (o : BitOrder) (W : Nat) (bits : List Bool) : Option (Nat × List Bool) :=
  if bits.length < W then none else some (fieldValue o (bits.take W), bits.drop W)

/-- `LE32` (00_scope.md R8, 20_memory.md R57). -/
def le32 (b0 b1 b2 b3 : Byte) : Word := b3 ++ b2 ++ b1 ++ b0

/-- The four bytes of a header's length, least significant first (30_encoding.md R71). -/
def le32Bytes (n : Word) : List Byte :=
  [n.extractLsb' 0 8, n.extractLsb' 8 8, n.extractLsb' 16 8, n.extractLsb' 24 8]

/-- `LIT`'s operand: `zext_8` of the byte field (30_encoding.md R78). -/
def litOperand (v : Nat) : Byte := BitVec.ofNat 8 v

/-- `MATCH`'s offset from its field (30_encoding.md R78). -/
def offsetOperand (offField : Nat) : Nat := offField + 1

/-- `MATCH`'s length from its field (30_encoding.md R78). -/
def lengthOperand (F : FormatSpec) (lenField : Nat) : Nat := lenField + F.minLen

end Sys2Proof.Machine
end

