-- ==== Sys2Proof/WellFormed.lean ====
section
/-! DEFINITION. Operand ranges (30_encoding.md R78, R79, R90): which instructions have an encoding. -/

namespace Sys2Proof

/-- `1 <= offset <= F.win_max` and `F.min_len <= length <= F.max_len` (30_encoding.md R78). -/
def matchWellFormed (F : FormatSpec) (offset length : Nat) : Bool :=
  decide (1 ≤ offset) && decide (offset ≤ F.winMax) && decide (F.minLen ≤ length) && decide (length ≤ F.maxLen)

/-- At most 7 padding bits (30_encoding.md R79). -/
def padWellFormed (bits : Nat) : Bool := decide (bits ≤ 7)

/-- Every operand lies in the range its encoding can hold. -/
def Instr.wellFormed : Instr → Bool
  | .hdrLz80 _ => true
  | .hdrLz01 _ => true
  | .hdrLz03 _ => true
  | .litLz80 _ => true
  | .litLz01 _ => true
  | .litLz03 _ => true
  | .matchLz80 offset length => matchWellFormed Fmt.lz80.spec offset length
  | .matchLz01 offset length => matchWellFormed Fmt.lz01.spec offset length
  | .matchLz03 offset length => matchWellFormed Fmt.lz03.spec offset length
  | .padLz80 bits => padWellFormed bits
  | .padLz01 bits => padWellFormed bits
  | .padLz03 bits => padWellFormed bits
  | .compressLz80 => true
  | .decompressLz80 => true
  | .compressLz80Fast => true
  | .compressLz01 => true
  | .decompressLz01 => true
  | .compressLz01Fast => true
  | .compressLz03 => true
  | .decompressLz03 => true
  | .compressLz03Fast => true
  | .start => true

end Sys2Proof
end

