-- ==== Sys2Proof/Decode.lean ====
section
/-! DEFINITION. The decoder (total, rejecting by name) and the encoder, from the encodings of 30_encoding.md: stream
records R71, R76, R77, R79 to R81, commands R83, the START strobe (10_state.md R25). -/

namespace Sys2Proof

open Machine (fieldBits fieldValue takeField le32 le32Bytes litOperand offsetOperand lengthOperand)

/-- `HDR fmt, n`. -/
def hdrOf (f : Fmt) (origLen : Word) : Instr :=
  match f with
  | .lz80 => .hdrLz80 origLen
  | .lz01 => .hdrLz01 origLen
  | .lz03 => .hdrLz03 origLen

/-- `LIT b` in format `f`. -/
def litOf (f : Fmt) (byte : Byte) : Instr :=
  match f with
  | .lz80 => .litLz80 byte
  | .lz01 => .litLz01 byte
  | .lz03 => .litLz03 byte

/-- `MATCH off, len` in format `f`. -/
def matchOf (f : Fmt) (offset length : Nat) : Instr :=
  match f with
  | .lz80 => .matchLz80 offset length
  | .lz01 => .matchLz01 offset length
  | .lz03 => .matchLz03 offset length

/-- `PAD k` in format `f`. -/
def padOf (f : Fmt) (bits : Nat) : Instr :=
  match f with
  | .lz80 => .padLz80 bits
  | .lz01 => .padLz01 bits
  | .lz03 => .padLz03 bits

/-- The command of an operation and a format (30_encoding.md R83). -/
def commandOf (op : Op) (f : Fmt) : Instr :=
  match op, f with
  | .compress, .lz80 => .compressLz80
  | .decompress, .lz80 => .decompressLz80
  | .compressFast, .lz80 => .compressLz80Fast
  | .compress, .lz01 => .compressLz01
  | .decompress, .lz01 => .decompressLz01
  | .compressFast, .lz01 => .compressLz01Fast
  | .compress, .lz03 => .compressLz03
  | .decompress, .lz03 => .decompressLz03
  | .compressFast, .lz03 => .compressLz03Fast

/-- Why a run of bytes, bits or a register value is no instruction. Each truncation of a stream record and each tail
that is no `PAD` is a decoder error of 43_token_decoder.md R149 (the machine raises it); the others have no meaning. -/
inductive DecodeError where
  /-- fewer than the five header bytes (R149 check 1) -/
  | headerTruncated
  /-- header byte 0 is the tag of no format (R149 check 2) -/
  | unknownTag
  /-- more than five bytes given as a header -/
  | headerTooLong
  /-- no stream bit left for a flag (R149 check 3) -/
  | exhausted
  /-- a literal flag, then fewer than 8 bits (R149 check 4) -/
  | litTruncated
  /-- a match flag, then fewer bits than the offset field (R149 check 5) -/
  | offTruncated
  /-- a match flag and this offset field, then fewer bits than the length field (R149 check 5) -/
  | lenTruncated (offField : Nat)
  /-- bits left over after one token -/
  | extraBits
  /-- eight or more stream bits after the last token (R149 check 8) -/
  | wholeByteLeft
  /-- a padding bit is 1 (R149 check 9) -/
  | nonZeroPadding
  /-- a CMD value that is none of the nine (30_encoding.md R84) -/
  | reservedCommand
  /-- a CTRL value other than 1 (10_state.md R25) -/
  | notStart
  deriving DecidableEq, Repr

/-- The format whose tag a byte is (30_encoding.md R71). -/
def fmtOfTag (t : Byte) : Option Fmt :=
  if t = Fmt.lz80.spec.tag then some .lz80
  else if t = Fmt.lz01.spec.tag then some .lz01
  else if t = Fmt.lz03.spec.tag then some .lz03
  else none

/-- `HDR` (30_encoding.md R71). -/
def decodeHeader (bytes : List Byte) : Except DecodeError Instr :=
  match bytes with
  | [t, b0, b1, b2, b3] =>
    match fmtOfTag t with
    | some f => .ok (hdrOf f (le32 b0 b1 b2 b3))
    | none => .error .unknownTag
  | _ :: _ :: _ :: _ :: _ :: _ :: _ => .error .headerTooLong
  | _ => .error .headerTruncated

/-- One token of format `f` at the front of a run of stream bits, with the bits after it (30_encoding.md R76 to R78,
R80; the truncations in the order of 43_token_decoder.md R144 to R146). -/
def decodeToken (f : Fmt) (bits : List Bool) : Except DecodeError (Instr × List Bool) :=
  match bits with
  | [] => .error .exhausted
  | flag :: rest =>
    if flag = f.spec.flagLit then
      match takeField f.spec.order 8 rest with
      | none => .error .litTruncated
      | some (v, rest') => .ok (litOf f (litOperand v), rest')
    else
      match takeField f.spec.order f.spec.offBits rest with
      | none => .error .offTruncated
      | some (o, rest') =>
        match takeField f.spec.order f.spec.lenBits rest' with
        | none => .error (.lenTruncated o)
        | some (l, rest'') => .ok (matchOf f (offsetOperand o) (lengthOperand f.spec l), rest'')

/-- The bits after the last token: `PAD` (30_encoding.md R79), or why not, in the order of 43_token_decoder.md R148. -/
def decodeTail (f : Fmt) (bits : List Bool) : Except DecodeError Instr :=
  if 8 ≤ bits.length then .error .wholeByteLeft
  else if bits.any id then .error .nonZeroPadding
  else .ok (padOf f bits.length)

/-- `CMD.OP` (10_state.md R26). -/
def opCode : Op → Nat
  | .compress => 1
  | .decompress => 2
  | .compressFast => 3

/-- The `CMD` value of a command, `FMT*256 + OP` (30_encoding.md R83). -/
def commandWord (op : Op) (f : Fmt) : Word := BitVec.ofNat 32 (f.spec.tag.toNat * 256 + opCode op)

/-- The nine commands in the order of 30_encoding.md R83. -/
def commands : List (Op × Fmt) :=
  [(.compress, .lz80), (.decompress, .lz80), (.compressFast, .lz80),
   (.compress, .lz01), (.decompress, .lz01), (.compressFast, .lz01),
   (.compress, .lz03), (.decompress, .lz03), (.compressFast, .lz03)]

/-- The operation and format a `CMD` value stands for; all 32 bits are compared (30_encoding.md R83). -/
def decodeCommand (cmd : Word) : Option (Op × Fmt) :=
  commands.find? fun p => decide (commandWord p.1 p.2 = cmd)

/-- The value written to `CTRL` (10_state.md R25): 1 is START. -/
def decodeControl (ctrl : Word) : Except DecodeError Instr :=
  if ctrl = 1 then .ok .start else .error .notStart

/-- An instruction as it stands in the machine: header bytes, the stream bits of a token or of the tail (in stream
order, in a format), a value of `CMD`, a value written to `CTRL`. -/
inductive Code where
  | header (bytes : List Byte)
  | token (f : Fmt) (bits : List Bool)
  | tail (f : Fmt) (bits : List Bool)
  | cmd (w : Word)
  | ctrl (w : Word)
  deriving DecidableEq, Repr

/-- The decoder, total on any bytes, bits or register value. -/
def decode : Code → Except DecodeError Instr
  | .header bytes => decodeHeader bytes
  | .token f bits =>
    match decodeToken f bits with
    | .ok (i, []) => .ok i
    | .ok (_, _ :: _) => .error .extraBits
    | .error e => .error e
  | .tail f bits => decodeTail f bits
  | .cmd w =>
    match decodeCommand w with
    | some (op, f) => .ok (commandOf op f)
    | none => .error .reservedCommand
  | .ctrl w => decodeControl w

/-- The bytes of `HDR f, n` (30_encoding.md R71). -/
def hdrBytes (f : Fmt) (origLen : Word) : List Byte := f.spec.tag :: le32Bytes origLen

/-- The stream bits of `LIT b` (30_encoding.md R76). -/
def litBits (f : Fmt) (byte : Byte) : List Bool := f.spec.flagLit :: fieldBits f.spec.order 8 byte.toNat

/-- The stream bits of `MATCH off, len` (30_encoding.md R77, R78). -/
def matchBits (f : Fmt) (offset length : Nat) : List Bool :=
  f.spec.flagMatch ::
    (fieldBits f.spec.order f.spec.offBits (offset - 1) ++
      fieldBits f.spec.order f.spec.lenBits (length - f.spec.minLen))

/-- The encoder: the words of an instruction, meant for well-formed ones. -/
def encode : Instr → Code
  | .hdrLz80 origLen => .header (hdrBytes .lz80 origLen)
  | .hdrLz01 origLen => .header (hdrBytes .lz01 origLen)
  | .hdrLz03 origLen => .header (hdrBytes .lz03 origLen)
  | .litLz80 byte => .token .lz80 (litBits .lz80 byte)
  | .litLz01 byte => .token .lz01 (litBits .lz01 byte)
  | .litLz03 byte => .token .lz03 (litBits .lz03 byte)
  | .matchLz80 offset length => .token .lz80 (matchBits .lz80 offset length)
  | .matchLz01 offset length => .token .lz01 (matchBits .lz01 offset length)
  | .matchLz03 offset length => .token .lz03 (matchBits .lz03 offset length)
  | .padLz80 bits => .tail .lz80 (List.replicate bits false)
  | .padLz01 bits => .tail .lz01 (List.replicate bits false)
  | .padLz03 bits => .tail .lz03 (List.replicate bits false)
  | .compressLz80 => .cmd (commandWord .compress .lz80)
  | .decompressLz80 => .cmd (commandWord .decompress .lz80)
  | .compressLz80Fast => .cmd (commandWord .compressFast .lz80)
  | .compressLz01 => .cmd (commandWord .compress .lz01)
  | .decompressLz01 => .cmd (commandWord .decompress .lz01)
  | .compressLz01Fast => .cmd (commandWord .compressFast .lz01)
  | .compressLz03 => .cmd (commandWord .compress .lz03)
  | .decompressLz03 => .cmd (commandWord .decompress .lz03)
  | .compressLz03Fast => .cmd (commandWord .compressFast .lz03)
  | .start => .ctrl 1

/-- The bits of a number read as spec/opcode_table.json writes a pattern: the leftmost character is the most
significant of the `nbits` bits. -/
def patternBits (nbits w : Nat) : List Bool := fieldBits .msbFirst nbits w

/-- The bytes of a number of `nbits` bits, the leftmost eight characters of the pattern first. -/
def patternBytes (nbits w : Nat) : List Byte :=
  (List.range (nbits / 8)).map fun t => BitVec.ofNat 8 (w >>> (nbits - 8 - 8 * t))

/-- What the table's number of a row is, by the row's width (log entry 19): 32 bits a value of `CMD` or of `CTRL`,
40 bits a header, 24, 19 and 17 bits the MATCH token of lz80, lz03 and lz01, 9 bits a LIT token (of lz80 when the flag
is 0; when it is 1, of lz03, whose pattern lz01 shares). -/
def tableCode (nbits w : Nat) : Option Code :=
  match nbits with
  | 32 => if w = 1 then some (.ctrl 1) else some (.cmd (BitVec.ofNat 32 w))
  | 40 => some (.header (patternBytes 40 w))
  | 24 => some (.token .lz80 (patternBits 24 w))
  | 19 => some (.token .lz03 (patternBits 19 w))
  | 17 => some (.token .lz01 (patternBits 17 w))
  | 9 => some (.token (if w < 256 then .lz80 else .lz03) (patternBits 9 w))
  | _ => none

/-- The instruction the decoder reads from the table's number of a row. -/
def decodeTableWord (nbits w : Nat) : Option Instr :=
  match tableCode nbits w with
  | some code =>
    match decode code with
    | .ok i => some i
    | .error _ => none
  | none => none

end Sys2Proof
end

