-- ==== Sys2Proof/Machine/State.lean ====
section
/-! DEFINITION. The state of one engine: everything 10_state.md gives it, as plain data, and its value after reset
(10_state.md R36). Working registers are natural numbers because every expression of the spec is exact and a register
width is "a claim that the value always fits" (00_scope.md R10): the claim is `RegsFit` of Safety.lean (log entry 4). -/

namespace Sys2Proof.Machine

/-- A buffer: (index, byte) pairs, indices strictly rising; an index not listed holds no value the spec gives. -/
abbrev Mem := List Host.Cell

/-- `HEAD` or `PREV` (10_state.md R31): (key or position, position) pairs, first components strictly rising; an entry
not listed is `NIL`. -/
abbrev Table := List (Nat × Nat)

/-- `STATUS.STATE` (10_state.md R28). -/
inductive CallState where
  | idle
  | busy
  | done
  | failed
  deriving DecidableEq, Repr

/-- The three error kinds (60_exceptions.md R190); `STATUS.ERR` is one of them or none. -/
inductive ErrKind where
  | invalidWindowSize
  | malformedStream
  | lengthMismatch
  deriving DecidableEq, Repr

/-- `t_kind` (10_state.md R20): 0 literal, 1 match. -/
inductive TokenKind where
  | literal
  | backRef
  deriving DecidableEq, Repr

/-- `phase` (10_state.md R34). -/
inductive Phase where
  | idle
  | check
  | cHdr
  | cToken
  | cFlush
  | dHdr
  | dToken
  | dCopy
  | dTail
  deriving DecidableEq, Repr

/-- One move of the host (44_codec_commands.md R177, 60_exceptions.md R206), and `engine`, by which the host lets the
engine take a step before its own next move (log entry 7). -/
inductive HostAct where
  | writeReg (number : Nat) (value : Word)
  | readReg (number : Nat)
  | writeIbuf (index : Word) (byte : Byte)
  | readIbuf (index : Word)
  | readObuf (index : Word)
  | writeObuf (index : Word) (byte : Byte)
  | reset
  | engine
  deriving DecidableEq, Repr

/-- The engine's state. -/
structure State where
  /-- `CMD` (10_state.md R26) -/
  cmd : Word
  /-- `WINDOW_SIZE` (10_state.md R27) -/
  windowSize : Word
  /-- `IN_LEN` (10_state.md R27) -/
  inLen : Word
  /-- `OUT_LEN` (10_state.md R29) -/
  outLen : Word
  /-- `STATUS.STATE` (10_state.md R28) -/
  callState : CallState
  /-- `STATUS.ERR` (10_state.md R28) -/
  err : Option ErrKind
  /-- `IBUF` (10_state.md R30) -/
  ibuf : Mem
  /-- `OBUF` (10_state.md R30) -/
  obuf : Mem
  /-- `op` (10_state.md R20) -/
  op : Op
  /-- `fmt` (10_state.md R20) -/
  fmt : Fmt
  /-- `w` (10_state.md R20) -/
  w : Nat
  /-- `n` (10_state.md R20) -/
  n : Nat
  /-- `cur` (10_state.md R20, R22) -/
  cur : Nat
  /-- `olen` (10_state.md R20) -/
  olen : Nat
  /-- `orig_len` (10_state.md R20) -/
  origLen : Nat
  /-- `c` (10_state.md R20, R22) -/
  c : Nat
  /-- `T` (10_state.md R20) -/
  tBits : Nat
  /-- `acc` (10_state.md R20, R32) -/
  acc : Byte
  /-- `nacc` (10_state.md R20, R32) -/
  nacc : Nat
  /-- `t_kind` (10_state.md R20) -/
  tKind : TokenKind
  /-- `t_byte` (10_state.md R20) -/
  tByte : Byte
  /-- `t_off` (10_state.md R20) -/
  tOff : Nat
  /-- `t_len` (10_state.md R20) -/
  tLen : Nat
  /-- `rd` (10_state.md R20, R21) -/
  rd : Nat
  /-- `wr` (10_state.md R20, R21) -/
  wr : Nat
  /-- `rem` (10_state.md R20) -/
  rem : Nat
  /-- `phase` (10_state.md R34) -/
  phase : Phase
  /-- `HEAD` (10_state.md R31) -/
  head : Table
  /-- `PREV` (10_state.md R31) -/
  prev : Table
  /-- the model's own: the host's next moves, first move first (log entry 7) -/
  acts : List HostAct
  /-- the model's own: what the host's last read was given (log entry 8) -/
  hostData : Word
  /-- the model's own: a call has been started and the host has not yet read its DONE or FAILED from STATUS, so the
  buffers are the call's (20_memory.md R63 (c); log entry 28) -/
  awaitingEnd : Bool
  /-- the model's own: which engine this is, picks the free values of its buffers (log entries 2, 20) -/
  engine : Nat
  /-- the model's own: counts resets, picks the free values of IBUF (log entry 3) -/
  ibufEpoch : Nat
  /-- the model's own: counts resets and STARTs, picks the free values of OBUF (log entry 3) -/
  obufEpoch : Nat
  deriving DecidableEq, Repr

/-- Reasons the machine stops with a fault. -/
inductive Fault where
  /-- A host read or write of IBUF or OBUF at an index that does not exist: `CAP` (10_state.md R30, 20_memory.md R50).
  Raised by `hostMove`. SAFE: the machine stops where a bus would do something. -/
  | noSuchIndex
  deriving DecidableEq, Repr

/-- Reasons the model gives no meaning. -/
inductive Refusal where
  /-- An instruction without a meaning yet, in exec's arms only. SAFE. -/
  | notModelled (mnemonic : String)
  /-- START while CMD holds none of the nine commands (44_codec_commands.md R179, 93_implementation_defined.md U7).
  Raised by `execStart`. SAFE: the spec has nothing change and tells a model to refuse. -/
  | reservedCommand
  /-- START of a COMPRESS or COMPRESS_FAST with IN_LEN above 3817748702 (44_codec_commands.md R180,
  93_implementation_defined.md U4). Raised by `execStart`. SAFE. -/
  | capacityExceeded
  /-- A write to CTRL with one of bits 31:1 set, while not BUSY (10_state.md R25, 93_implementation_defined.md U5).
  Raised by `hostMove`. SAFE. -/
  | reservedControlBits
  /-- A read or write of a register number 6 or above (10_state.md R24, 93_implementation_defined.md U6). Raised by
  `hostMove`. SAFE. -/
  | noSuchRegister
  /-- A host access to IBUF or OBUF between START and the host's read of STATUS that gave DONE or FAILED (20_memory.md
  R63 (c), 93_implementation_defined.md U2). Raised by `hostMove`. SAFE. -/
  | bufferOwnedByCall
  /-- A host write to OBUF, which the host may only read (10_state.md R30). Raised by `hostMove`. SAFE. -/
  | obufReadOnly
  /-- An instruction given to `exec` in a phase, or for a format, in which no engine executes it. Raised by the
  meanings; `step` never meets it in a state that a run reaches. SAFE. -/
  | outOfSequence
  deriving DecidableEq, Repr

/-- The engine right after reset (10_state.md R36); what R36 leaves unspecified is at the values of log entry 1. -/
def State.reset : State where
  cmd := 0
  windowSize := 0
  inLen := 0
  outLen := 0
  callState := .idle
  err := none
  ibuf := []
  obuf := []
  op := .compress
  fmt := .lz80
  w := 0
  n := 0
  cur := 0
  olen := 0
  origLen := 0
  c := 0
  tBits := 0
  acc := 0
  nacc := 0
  tKind := .literal
  tByte := 0
  tOff := 0
  tLen := 0
  rd := 0
  wr := 0
  rem := 0
  phase := .idle
  head := []
  prev := []
  acts := []
  hostData := 0
  awaitingEnd := false
  engine := 0
  ibufEpoch := 0
  obufEpoch := 0

end Sys2Proof.Machine
end

