-- ==== Sys2Proof/Machine/Ops.lean ====
section
/-! DEFINITION. Named operations over the buffers, the index tables and the registers: one byte read and write
(20_memory.md R54, R59), the start of a call (44_codec_commands.md R171, 10_state.md R35), the error entry
(60_exceptions.md R196) and, beside it, successful completion (44_codec_commands.md R175); the error's only way out is
the next START or reset (60_exceptions.md R198), so the return from an error is `beginCall`, and `hardReset`. -/

namespace Sys2Proof.Machine

/-- What a run of (key, value) pairs lists for a key. -/
def cellGet {α : Type} (m : List (Nat × α)) (k : Nat) : Option α :=
  match m with
  | [] => none
  | (a, v) :: rest => if a = k then some v else cellGet rest k

/-- List `v` for key `k`, keeping the keys strictly rising. -/
def cellSet {α : Type} (m : List (Nat × α)) (k : Nat) (v : α) : List (Nat × α) :=
  match m with
  | [] => [(k, v)]
  | (a, u) :: rest =>
    if a < k then (a, u) :: cellSet rest k v
    else if a = k then (k, v) :: rest
    else (k, v) :: (a, u) :: rest

/-- Drop key `k`. -/
def cellErase {α : Type} (m : List (Nat × α)) (k : Nat) : List (Nat × α) :=
  match m with
  | [] => []
  | (a, u) :: rest => if a = k then rest else (a, u) :: cellErase rest k

/-- The canonical form: keys strictly rising (an unlisted key has no value, so no listed value can equal it). -/
def cellsWf {α : Type} (m : List (Nat × α)) : Bool :=
  match m with
  | [] => true
  | (a, _) :: rest =>
    match rest with
    | [] => true
    | (b, _) :: _ => decide (a < b) && cellsWf rest

/-- The canonical form of a buffer. -/
def Mem.wf (m : Mem) : Bool := cellsWf m

/-- `MemWrite(S, a, 1, v)` (00_scope.md R8, 20_memory.md R59). -/
def memWrite (m : Mem) (a : Nat) (v : Byte) : Mem := cellSet m a v

/-- `MemRead(IBUF, a, 1)`: the byte the host wrote there, else a free value (log entry 2). -/
def ibufByte (s : State) (a : Nat) : Byte := (cellGet s.ibuf a).getD (Config.unspecifiedIbuf s.engine s.ibufEpoch a)

/-- `MemRead(OBUF, a, 1)` by the engine: the byte the call wrote there, else a free value (log entry 2). -/
def obufByte (s : State) (a : Nat) : Byte := (cellGet s.obuf a).getD (Config.unspecifiedObuf s.engine s.obufEpoch a)

/-- A host read of OBUF that it is allowed: a byte of the result, and a free value at `OUT_LEN` and beyond and after a
failed call (10_state.md R39, 93_implementation_defined.md U1); `OUT_LEN` is 0 unless DONE (10_state.md R29). -/
def obufResult (s : State) (a : Nat) : Byte :=
  if s.callState = .done ∧ a < s.outLen.toNat then obufByte s a else Config.unspecifiedObuf s.engine s.obufEpoch a

/-- A table entry as an optional position: NIL is not listed (10_state.md R31). -/
def tableSet (t : Table) (k : Nat) (v : Option Nat) : Table :=
  match v with
  | some p => cellSet t k p
  | none => cellErase t k

/-- `raise E` (60_exceptions.md R196). -/
def raise (e : ErrKind) (s : State) : State :=
  { s with err := some e, outLen := 0, callState := .failed, phase := .idle }

/-- `DONE` (44_codec_commands.md R175). -/
def finish (s : State) : State :=
  { s with outLen := BitVec.ofNat 32 s.olen, callState := .done, phase := .idle }

/-- The accepted branch of START (44_codec_commands.md R171): latch, initialise (10_state.md R35), go BUSY. -/
def beginCall (op : Op) (f : Fmt) (s : State) : State :=
  { s with
    op := op, fmt := f, n := s.inLen.toNat
    cur := 0, olen := 0, c := 0, acc := 0, nacc := 0, rem := 0, head := [], prev := []
    callState := .busy, err := none, outLen := 0, phase := .check
    awaitingEnd := true, obufEpoch := s.obufEpoch + 1 }

/-- RESET (70_reset_and_hazards.md R220): the state after reset; the host's own data (its moves, what it last read)
stay, the engine is the engine it was, and unspecified bytes are drawn anew. -/
def hardReset (s : State) : State :=
  { State.reset with
    acts := s.acts, hostData := s.hostData, engine := s.engine
    ibufEpoch := s.ibufEpoch + 1, obufEpoch := s.obufEpoch + 1 }

/-- The phase after the loop test of 43_token_decoder.md R144, which "is part of the transition out of a step, not a step
of its own" (95_test_vectors.md section 3, and its traces P1 to P3). -/
def decodeLoop (s : State) : Phase := if s.olen < s.origLen then .dToken else .dTail

/-- The phase after the loop test of 42_token_encoder.md R128, part of the transition out of a step (95_test_vectors.md
section 3). -/
def encodeLoop (s : State) : Phase := if s.cur < s.n then .cToken else .cFlush

/-- Append one byte at `OBUF[olen]` (43_token_decoder.md R145). -/
def appendByte (b : Byte) (s : State) : State :=
  { s with obuf := memWrite s.obuf s.olen b, olen := s.olen + 1 }

end Sys2Proof.Machine
end

