-- ==== Sys2Proof/Machine/BitPacker.lean ====
section
/-! DEFINITION. The bit packer BP (42_token_encoder.md R121 to R123) and the Token Encoder's operations TE (R124 to
R127), over the four registers they write. -/

namespace Sys2Proof.Machine

/-- What the bit packer writes: OBUF, `olen`, `acc`, `nacc` (42_token_encoder.md R121). -/
structure Packer where
  obuf : Mem
  olen : Nat
  acc  : Byte
  nacc : Nat
  deriving DecidableEq, Repr

/-- The packer's registers of a state. -/
def State.packer (s : State) : Packer := { obuf := s.obuf, olen := s.olen, acc := s.acc, nacc := s.nacc }

/-- A state with the packer's registers replaced. -/
def State.withPacker (s : State) (p : Packer) : State :=
  { s with obuf := p.obuf, olen := p.olen, acc := p.acc, nacc := p.nacc }

/-- Write `acc` out and empty it (42_token_encoder.md R121, R123). -/
def emitAcc (acc : Byte) (p : Packer) : Packer :=
  { obuf := memWrite p.obuf p.olen acc, olen := p.olen + 1, acc := 0, nacc := 0 }

/-- `BP.PUTBIT(b)` (42_token_encoder.md R121). -/
def putBit (o : BitOrder) (b : Bool) (p : Packer) : Packer :=
  let bit : Byte := BitVec.ofNat 8 b.toNat
  let acc : Byte :=
    match o with
    | .msbFirst => p.acc ||| (bit <<< (7 - p.nacc))
    | .lsbFirst => p.acc ||| (bit <<< p.nacc)
  if p.nacc = 7 then emitAcc acc p else { p with acc := acc, nacc := p.nacc + 1 }

/-- Bits put one after another. -/
def putBits (o : BitOrder) (bits : List Bool) (p : Packer) : Packer :=
  match bits with
  | [] => p
  | b :: rest => putBits o rest (putBit o b p)

/-- `BP.PUT(W, v)` (42_token_encoder.md R122). -/
def putField (o : BitOrder) (W v : Nat) (p : Packer) : Packer := putBits o (fieldBits o W v) p

/-- `BP.FLUSH`, which is `TE.FLUSH` (42_token_encoder.md R123, R127). -/
def flush (p : Packer) : Packer := if p.nacc > 0 then emitAcc p.acc p else p

/-- Store bytes at rising indices. -/
def memWriteBytes (m : Mem) (a : Nat) (bytes : List Byte) : Mem :=
  match bytes with
  | [] => m
  | b :: rest => memWriteBytes (memWrite m a b) (a + 1) rest

/-- `TE.HDR` (42_token_encoder.md R124). -/
def teHeader (f : Fmt) (n : Nat) (p : Packer) : Packer :=
  { obuf := memWriteBytes p.obuf 0 (f.spec.tag :: le32Bytes (BitVec.ofNat 32 n)), olen := Config.hdrLen, acc := 0, nacc := 0 }

/-- `TE.LIT(b)` (42_token_encoder.md R125). -/
def teLit (f : Fmt) (byte : Byte) (p : Packer) : Packer :=
  putField f.spec.order 8 byte.toNat (putField f.spec.order 1 f.spec.flagLit.toNat p)

/-- `TE.MATCH(offset, length)` (42_token_encoder.md R126). -/
def teMatch (f : Fmt) (offset length : Nat) (p : Packer) : Packer :=
  putField f.spec.order f.spec.lenBits (length - f.spec.minLen)
    (putField f.spec.order f.spec.offBits (offset - 1)
      (putField f.spec.order 1 f.spec.flagMatch.toNat p))

end Sys2Proof.Machine
end

