-- ==== Sys2Proof/Machine/MatchFinder.lean ====
section
/-! DEFINITION. The Match Finder MF (41_match_finder.md R100 to R109) over the index `HEAD`, `PREV` (10_state.md R31). -/

namespace Sys2Proof.Machine

/-- The index: `HEAD` and `PREV` (10_state.md R31). -/
structure Index where
  head : Table
  prev : Table
  deriving DecidableEq, Repr

/-- The index of a state. -/
def State.index (s : State) : Index := { head := s.head, prev := s.prev }

/-- A state with the index replaced. -/
def State.withIndex (s : State) (x : Index) : State := { s with head := x.head, prev := x.prev }

/-- `H` (00_scope.md R5). -/
def hash (b0 b1 b2 : Byte) : Nat := b0.toNat * 65536 + b1.toNat * 256 + b2.toNat

/-- `key(p)` of the data `D` (41_match_finder.md R102). -/
def keyAt (D : Nat → Byte) (p : Nat) : Nat := hash (D p) (D (p + 1)) (D (p + 2))

/-- The inner loop of `MF.FIND` (41_match_finder.md R106) from `k` equal bytes on, with at most `fuel` more to
compare. -/
def extendMatch (D : Nat → Byte) (j i k fuel : Nat) : Nat :=
  match fuel with
  | 0 => k
  | fuel + 1 => if D (j + k) = D (i + k) then extendMatch D j i (k + 1) fuel else k

/-- `mlen(j, i)` with the limit given (41_match_finder.md R104). -/
def matchLen (D : Nat → Byte) (j i limit : Nat) : Nat := extendMatch D j i 0 limit

/-- The best so far: `best_len`, `best_off` (41_match_finder.md R106). -/
structure Best where
  len : Nat
  off : Nat
  deriving DecidableEq, Repr

/-- The chain walk of `MF.FIND` (41_match_finder.md R106), with at most `probes` probes left. -/
def walkChain (D : Nat → Byte) (prev : Table) (w i limit : Nat) (j : Option Nat) (best : Best) (probes : Nat) : Best :=
  match probes, j with
  | 0, _ => best
  | _ + 1, none => best
  | probes + 1, some j =>
    if i - j ≤ w then
      let k := matchLen D j i limit
      walkChain D prev w i limit (cellGet prev j) (if k > best.len then { len := k, off := i - j } else best) probes
    else best

/-- `MF.FIND(i)` with the probe cap as an argument (41_match_finder.md R106): `some (offset, length)` or `none` for
`NoMatch`. -/
def mfFindWith (maxProbes : Nat) (F : FormatSpec) (D : Nat → Byte) (n w i : Nat) (x : Index) : Option (Nat × Nat) :=
  if n - i < F.minLen then none
  else
    let best := walkChain D x.prev w i (min F.maxLen (n - i)) (cellGet x.head (keyAt D i)) { len := 0, off := 0 } maxProbes
    if best.len ≥ F.minLen then some (best.off, best.len) else none

/-- `MF.FIND(i)` (41_match_finder.md R106). -/
def mfFind (F : FormatSpec) (D : Nat → Byte) (n w i : Nat) (x : Index) : Option (Nat × Nat) :=
  mfFindWith Config.maxProbes F D n w i x

/-- `MF.INSERT(p)` (41_match_finder.md R107). -/
def mfInsert (D : Nat → Byte) (n p : Nat) (x : Index) : Index :=
  if p + Config.prefixLen ≤ n then
    { prev := tableSet x.prev p (cellGet x.head (keyAt D p)), head := cellSet x.head (keyAt D p) p }
  else x

/-- `MF.INSERT` for `p, p + 1, ..., p + count - 1` (41_match_finder.md R107, 42_token_encoder.md R128). -/
def mfInsertRange (D : Nat → Byte) (n p count : Nat) (x : Index) : Index :=
  match count with
  | 0 => x
  | count + 1 => mfInsertRange D n (p + 1) count (mfInsert D n p x)

end Sys2Proof.Machine
end

