-- ==== Sys2Proof/Machine/Compress.lean ====
section
/-! DEFINITION. The commands COMPRESS and COMPRESS_FAST (44_codec_commands.md R172, R173) and the encode pass
(42_token_encoder.md R128). A command runs over several steps, one visit of its phases each (10_state.md R34,
44_codec_commands.md R181): `P_CHECK`, `C_HDR`, `C_TOKEN` once a token, `C_FLUSH`. -/

namespace Sys2Proof.Machine

/-- Go on to the header with an effective window (44_codec_commands.md R172, R173). -/
def startEncode (w : Nat) (s : State) : State := { s with w := w, phase := .cHdr }

/-- `P_CHECK` of COMPRESS (44_codec_commands.md R172, 60_exceptions.md R191). -/
def checkWindow (s : State) : State :=
  if s.windowSize.toNat < s.fmt.spec.winMin ∨ s.windowSize.toNat > s.fmt.spec.winMax then raise .invalidWindowSize s
  else startEncode s.windowSize.toNat s

/-- `C_HDR`: `TE.HDR`, `cur <- 0` (42_token_encoder.md R124, R128). -/
def encodeHeader (s : State) : State :=
  let t := { s.withPacker (teHeader s.fmt s.n s.packer) with cur := 0 }
  { t with phase := encodeLoop t }

/-- Emit one token's bits (42_token_encoder.md R125, R126), insert the `adv` positions it covers (41_match_finder.md
R107), advance `cur` (42_token_encoder.md R128). -/
def encodeAdvance (p : Packer) (adv : Nat) (s : State) : State :=
  let t := { (s.withPacker p).withIndex (mfInsertRange (ibufByte s) s.n s.cur adv s.index) with cur := s.cur + adv }
  { t with phase := encodeLoop t }

/-- `C_TOKEN`: one `MF.FIND`, one token (42_token_encoder.md R128). -/
def encodeToken (s : State) : State :=
  match mfFind s.fmt.spec (ibufByte s) s.n s.w s.cur s.index with
  | some (off, len) =>
    encodeAdvance (teMatch s.fmt off len s.packer) len { s with tKind := .backRef, tOff := off, tLen := len }
  | none =>
    let b := ibufByte s s.cur
    encodeAdvance (teLit s.fmt b s.packer) 1 { s with tKind := .literal, tByte := b }

/-- `C_FLUSH`: `TE.FLUSH`, then `DONE` (42_token_encoder.md R127, 44_codec_commands.md R175). -/
def encodeFlush (s : State) : State := finish (s.withPacker (flush s.packer))

/-- One visit of a compress command for operation `op` and format `f`, `check` its visit of `P_CHECK`. -/
def execEncode (op : Op) (f : Fmt) (check : State → State) (s : State) : Host.Outcome State Fault Refusal :=
  if s.op ≠ op ∨ s.fmt ≠ f then .refused .outOfSequence
  else
    match s.phase with
    | .check => .next (check s)
    | .cHdr => .next (encodeHeader s)
    | .cToken => .next (encodeToken s)
    | .cFlush => .next (encodeFlush s)
    | _ => .refused .outOfSequence

/-- `compress_lz80`. -/
def execCompressLz80 (s : State) : Host.Outcome State Fault Refusal := execEncode .compress .lz80 checkWindow s

/-- `compress_lz01`. -/
def execCompressLz01 (s : State) : Host.Outcome State Fault Refusal := execEncode .compress .lz01 checkWindow s

/-- `compress_lz03`. -/
def execCompressLz03 (s : State) : Host.Outcome State Fault Refusal := execEncode .compress .lz03 checkWindow s

/-- `compress_lz80_fast`. -/
def execCompressLz80Fast (s : State) : Host.Outcome State Fault Refusal :=
  execEncode .compressFast .lz80 (startEncode Config.fastWindow) s

/-- `compress_lz01_fast`. -/
def execCompressLz01Fast (s : State) : Host.Outcome State Fault Refusal :=
  execEncode .compressFast .lz01 (startEncode Config.fastWindow) s

/-- `compress_lz03_fast`. -/
def execCompressLz03Fast (s : State) : Host.Outcome State Fault Refusal :=
  execEncode .compressFast .lz03 (startEncode Config.fastWindow) s

end Sys2Proof.Machine
end

