-- ==== Sys2Proof/Machine/Decompress.lean ====
section
/-! DEFINITION. The command DECOMPRESS (44_codec_commands.md R174): its one visit, of `P_CHECK`, hands over to the stream,
whose records are then the instructions (43_token_decoder.md R144). `WINDOW_SIZE` is neither read nor checked. -/

namespace Sys2Proof.Machine

/-- `P_CHECK` of DECOMPRESS in format `f` (10_state.md R34, 44_codec_commands.md R174). -/
def execDecode (f : Fmt) (s : State) : Host.Outcome State Fault Refusal :=
  if s.op ≠ .decompress ∨ s.fmt ≠ f ∨ s.phase ≠ .check then .refused .outOfSequence
  else .next { s with phase := .dHdr }

/-- `decompress_lz80`. -/
def execDecompressLz80 (s : State) : Host.Outcome State Fault Refusal := execDecode .lz80 s

/-- `decompress_lz01`. -/
def execDecompressLz01 (s : State) : Host.Outcome State Fault Refusal := execDecode .lz01 s

/-- `decompress_lz03`. -/
def execDecompressLz03 (s : State) : Host.Outcome State Fault Refusal := execDecode .lz03 s

end Sys2Proof.Machine
end

