-- ==== Sys2Proof/Machine/BitParser.lean ====
section
/-! DEFINITION. The bit parser BR (43_token_decoder.md R141, R142) and what it shows the decoder: the unread stream bits
and the header bytes; and the decoder's answer to a record that does not decode (43_token_decoder.md R149). -/

namespace Sys2Proof.Machine

/-- Stream bit `k` of the stream in IBUF, in format `f` (30_encoding.md R74). -/
def streamBit (f : Fmt) (s : State) (k : Nat) : Bool :=
  bitOfByte f.spec.order (ibufByte s (Config.hdrLen + k / 8)) k

/-- The next unread stream bits, at most `k` of them (43_token_decoder.md R141, R142). -/
def streamBits (k : Nat) (s : State) : List Bool :=
  (List.range (min k (s.tBits - s.c))).map fun t => streamBit s.fmt s (s.c + t)

/-- The header bytes that are there: `S[0 .. 5)` cut at `n` (43_token_decoder.md R143). -/
def headerBytes (s : State) : List Byte := (List.range (min Config.hdrLen s.n)).map (ibufByte s)

/-- `BR.GET(W)` for a field whose value the instruction already carries: the check and the cursor
(43_token_decoder.md R142), then `k`. -/
def brGet (W : Nat) (s : State) (k : State → Host.Outcome State Fault Refusal) : Host.Outcome State Fault Refusal :=
  if s.tBits - s.c < W then .next (raise .malformedStream s) else k { s with c := s.c + W }

/-- Token fetch up to and with the flag (43_token_decoder.md R144), then `k`. -/
def tokenFlag (s : State) (k : State → Host.Outcome State Fault Refusal) : Host.Outcome State Fault Refusal :=
  if s.tBits - s.c = 0 then .next (raise .lengthMismatch s) else brGet 1 s k

/-- The most stream bits a token has: a MATCH of lz80 (30_encoding.md R72). -/
def maxTokenBits : Nat := 24

/-- What the decoder does when the bytes or bits at its cursor are no record (43_token_decoder.md R142 to R149): the
fields read before the failing `BR.GET` have moved the cursor and reached `t_kind`, `t_off`. -/
def decodeFault (e : DecodeError) (s : State) : Host.Outcome State Fault Refusal :=
  match e with
  | .headerTruncated => .next (raise .malformedStream s)
  | .unknownTag => .next (raise .malformedStream s)
  | .headerTooLong => .refused .outOfSequence
  | .exhausted => .next (raise .lengthMismatch s)
  | .litTruncated => .next (raise .malformedStream { s with c := s.c + 1, tKind := .literal })
  | .offTruncated => .next (raise .malformedStream { s with c := s.c + 1, tKind := .backRef })
  | .lenTruncated offField =>
    .next (raise .malformedStream
      { s with c := s.c + 1 + s.fmt.spec.offBits, tKind := .backRef, tOff := offsetOperand offField })
  | .extraBits => .refused .outOfSequence
  | .wholeByteLeft => .next (raise .lengthMismatch s)
  | .nonZeroPadding => .next (raise .malformedStream s)
  | .reservedCommand => .refused .reservedCommand
  | .notStart => .refused .reservedControlBits

end Sys2Proof.Machine
end

