-- ==== Sys2Proof/Machine/Header.lean ====
section
/-! DEFINITION. `HDR` (43_token_decoder.md R143). -/

namespace Sys2Proof.Machine

/-- `EXEC_HDR` for a header whose tag is `f`'s, in a call for the format `s.fmt` (43_token_decoder.md R143). -/
def execHeader (f : Fmt) (origLen : Word) (s : State) : Host.Outcome State Fault Refusal :=
  if s.phase ≠ .dHdr then .refused .outOfSequence
  else if s.n < Config.hdrLen then .next (raise .malformedStream s)
  else if f.spec.tag ≠ s.fmt.spec.tag then .next (raise .malformedStream s)
  else
    let t := { s with origLen := origLen.toNat, tBits := 8 * (s.n - Config.hdrLen), c := 0, olen := 0 }
    .next { t with phase := decodeLoop t }

/-- `HDR.lz80`. -/
def execHdrLz80 (origLen : Word) (s : State) : Host.Outcome State Fault Refusal := execHeader .lz80 origLen s

/-- `HDR.lz01`. -/
def execHdrLz01 (origLen : Word) (s : State) : Host.Outcome State Fault Refusal := execHeader .lz01 origLen s

/-- `HDR.lz03`. -/
def execHdrLz03 (origLen : Word) (s : State) : Host.Outcome State Fault Refusal := execHeader .lz03 origLen s

end Sys2Proof.Machine
end

