-- ==== Sys2Proof/Machine/Literal.lean ====
section
/-! DEFINITION. `LIT` (43_token_decoder.md R144, R145). -/

namespace Sys2Proof.Machine

/-- One iteration of the token loop whose token is `LIT byte` (43_token_decoder.md R144, R145). -/
def execLit (f : Fmt) (byte : Byte) (s : State) : Host.Outcome State Fault Refusal :=
  if s.phase ≠ .dToken ∨ s.fmt ≠ f then .refused .outOfSequence
  else
    tokenFlag s fun s =>
    brGet 8 { s with tKind := .literal } fun s =>
    let t := appendByte byte { s with tByte := byte }
    .next { t with phase := decodeLoop t }

/-- `LIT.lz80`. -/
def execLitLz80 (byte : Byte) (s : State) : Host.Outcome State Fault Refusal := execLit .lz80 byte s

/-- `LIT.lz01`. -/
def execLitLz01 (byte : Byte) (s : State) : Host.Outcome State Fault Refusal := execLit .lz01 byte s

/-- `LIT.lz03`. -/
def execLitLz03 (byte : Byte) (s : State) : Host.Outcome State Fault Refusal := execLit .lz03 byte s

end Sys2Proof.Machine
end

