-- ==== Sys2Proof/Machine/Match.lean ====
section
/-! DEFINITION. `MATCH` (43_token_decoder.md R144, R146) and its second half `COPY` (R147). The instruction runs over
several steps: the visit of `D_TOKEN` that reads and checks it, then one visit of `D_COPY` for each byte (R181). -/

namespace Sys2Proof.Machine

/-- The visit of `D_TOKEN`: one iteration of the token loop whose token is `MATCH offset, length`, up to the start of its
copy (43_token_decoder.md R144, R146, R147). -/
def matchStart (offset length : Nat) (s : State) : Host.Outcome State Fault Refusal :=
  tokenFlag s fun s =>
  brGet s.fmt.spec.offBits { s with tKind := .backRef } fun s =>
  brGet s.fmt.spec.lenBits { s with tOff := offset } fun s =>
  let s := { s with tLen := length }
  if offset > s.olen then .next (raise .malformedStream s)
  else if s.olen + length > s.origLen then .next (raise .lengthMismatch s)
  else .next { s with rd := s.olen - offset, wr := s.olen, rem := length, phase := .dCopy }

/-- One visit of `D_COPY` (43_token_decoder.md R147): one byte, read before it is written, then the loop tests. -/
def copyByte (s : State) : State :=
  let t := { s with obuf := memWrite s.obuf s.wr (obufByte s s.rd)
                    rd := s.rd + 1, wr := s.wr + 1, olen := s.olen + 1, rem := s.rem - 1 }
  { t with phase := if t.rem = 0 then decodeLoop t else .dCopy }

/-- `MATCH offset, length`: read, check and start the copy, or go on with the copy under way. -/
def execMatch (f : Fmt) (offset length : Nat) (s : State) : Host.Outcome State Fault Refusal :=
  if s.fmt ≠ f then .refused .outOfSequence
  else
    match s.phase with
    | .dToken => matchStart offset length s
    | .dCopy =>
      if s.tOff ≠ offset ∨ s.tLen ≠ length then .refused .outOfSequence
      else if s.rem = 0 then .next { s with phase := decodeLoop s }
      else .next (copyByte s)
    | _ => .refused .outOfSequence

/-- `MATCH.lz80`. -/
def execMatchLz80 (offset length : Nat) (s : State) : Host.Outcome State Fault Refusal := execMatch .lz80 offset length s

/-- `MATCH.lz01`. -/
def execMatchLz01 (offset length : Nat) (s : State) : Host.Outcome State Fault Refusal := execMatch .lz01 offset length s

/-- `MATCH.lz03`. -/
def execMatchLz03 (offset length : Nat) (s : State) : Host.Outcome State Fault Refusal := execMatch .lz03 offset length s

end Sys2Proof.Machine
end

