-- ==== Sys2Proof/Machine/Pad.lean ====
section
/-! DEFINITION. `PAD`: the tail check after the last token and the end of the call (43_token_decoder.md R148,
44_codec_commands.md R175). -/

namespace Sys2Proof.Machine

/-- Whole bytes after the one in which the last token ended (43_token_decoder.md R148). -/
def wholeBytesLeft (s : State) : Nat := (s.n - Config.hdrLen) - (s.c + 7) / 8

/-- Some stream bit from the cursor on, among the next 8, is 1; the check that no whole byte is left comes first, so
these are all the padding bits (43_token_decoder.md R148). -/
def paddingSet (s : State) : Bool := (streamBits 8 s).any id

/-- `EXEC_TAIL` with `bits` stream bits left (43_token_decoder.md R148). -/
def execPad (f : Fmt) (bits : Nat) (s : State) : Host.Outcome State Fault Refusal :=
  if s.phase ≠ .dTail ∨ s.fmt ≠ f ∨ s.tBits - s.c ≠ bits then .refused .outOfSequence
  else if wholeBytesLeft s > 0 then .next (raise .lengthMismatch s)
  else if paddingSet s then .next (raise .malformedStream s)
  else .next (finish s)

/-- `PAD.lz80`. -/
def execPadLz80 (bits : Nat) (s : State) : Host.Outcome State Fault Refusal := execPad .lz80 bits s

/-- `PAD.lz01`. -/
def execPadLz01 (bits : Nat) (s : State) : Host.Outcome State Fault Refusal := execPad .lz01 bits s

/-- `PAD.lz03`. -/
def execPadLz03 (bits : Nat) (s : State) : Host.Outcome State Fault Refusal := execPad .lz03 bits s

end Sys2Proof.Machine
end

