-- ==== Sys2Proof/Machine/Start.lean ====
section
/-! DEFINITION. `START` (44_codec_commands.md R171, R178 to R180). -/

namespace Sys2Proof.Machine

/-- The host broke the capacity precondition (44_codec_commands.md R180). -/
def overCapacity (op : Op) (s : State) : Bool :=
  decide (op ≠ .decompress) && decide (s.inLen.toNat > Config.maxCompressLen)

/-- A write of 1 to `CTRL`. -/
def execStart (s : State) : Host.Outcome State Fault Refusal :=
  if s.callState = .busy then .next s
  else
    match decodeCommand s.cmd with
    | none => .refused .reservedCommand
    | some (op, f) => if overCapacity op s then .refused .capacityExceeded else .next (beginCall op f s)

end Sys2Proof.Machine
end

