-- ==== Sys2Proof/Machine/Dispatch.lean ====
section
/-! DEFINITION. One arm per instruction. -/

namespace Sys2Proof.Machine

def exec (i : Instr) (s : State) : Host.Outcome State Fault Refusal :=
  match i with
  | .hdrLz80 origLen => Sys2Proof.Machine.execHdrLz80 origLen s
  | .hdrLz01 origLen => Sys2Proof.Machine.execHdrLz01 origLen s
  | .hdrLz03 origLen => Sys2Proof.Machine.execHdrLz03 origLen s
  | .litLz80 byte => Sys2Proof.Machine.execLitLz80 byte s
  | .litLz01 byte => Sys2Proof.Machine.execLitLz01 byte s
  | .litLz03 byte => Sys2Proof.Machine.execLitLz03 byte s
  | .matchLz80 offset length => Sys2Proof.Machine.execMatchLz80 offset length s
  | .matchLz01 offset length => Sys2Proof.Machine.execMatchLz01 offset length s
  | .matchLz03 offset length => Sys2Proof.Machine.execMatchLz03 offset length s
  | .padLz80 bits => Sys2Proof.Machine.execPadLz80 bits s
  | .padLz01 bits => Sys2Proof.Machine.execPadLz01 bits s
  | .padLz03 bits => Sys2Proof.Machine.execPadLz03 bits s
  | .compressLz80 => Sys2Proof.Machine.execCompressLz80 s
  | .decompressLz80 => Sys2Proof.Machine.execDecompressLz80 s
  | .compressLz80Fast => Sys2Proof.Machine.execCompressLz80Fast s
  | .compressLz01 => Sys2Proof.Machine.execCompressLz01 s
  | .decompressLz01 => Sys2Proof.Machine.execDecompressLz01 s
  | .compressLz01Fast => Sys2Proof.Machine.execCompressLz01Fast s
  | .compressLz03 => Sys2Proof.Machine.execCompressLz03 s
  | .decompressLz03 => Sys2Proof.Machine.execDecompressLz03 s
  | .compressLz03Fast => Sys2Proof.Machine.execCompressLz03Fast s
  | .start => Sys2Proof.Machine.execStart s

end Sys2Proof.Machine
end

