-- ==== Sys2Proof/Machine/Flags.lean ====
section
/-! DEFINITION. The status fields and the host registers as words (10_state.md R23 to R29). The block has no arithmetic
condition codes (10_state.md R23): `STATE` and `ERR` are its only flags. -/

namespace Sys2Proof.Machine

/-- `STATUS.STATE` as two bits (10_state.md R28). -/
def stateCode : CallState → Nat
  | .idle => 0
  | .busy => 1
  | .done => 2
  | .failed => 3

/-- `STATUS.ERR` as two bits (10_state.md R28, 60_exceptions.md R190). -/
def errCode : Option ErrKind → Nat
  | none => 0
  | some .invalidWindowSize => 1
  | some .malformedStream => 2
  | some .lengthMismatch => 3

/-- The `STATUS` register (10_state.md R28): `STATE` in bits 1:0, `ERR` in bits 5:4, the rest 0. -/
def statusWord (s : State) : Word := BitVec.ofNat 32 (stateCode s.callState + 16 * errCode s.err)

/-- What a host read of register `number` gives (10_state.md R24 to R29); `none` from number 6 on. -/
def regRead (number : Nat) (s : State) : Option Word :=
  match number with
  | 0 => some 0
  | 1 => some s.cmd
  | 2 => some s.windowSize
  | 3 => some s.inLen
  | 4 => some (statusWord s)
  | 5 => some s.outLen
  | _ => none

end Sys2Proof.Machine
end

