-- ==== Sys2Proof/Machine/HostPort.lean ====
section
/-! DEFINITION. The host's moves (10_state.md R24 to R30, 20_memory.md R51, R63, 44_codec_commands.md R177, R178,
70_reset_and_hazards.md R220). START, the write of 1 to `CTRL`, is an instruction and is fetched in Fetch.lean. -/

namespace Sys2Proof.Machine

/-- A host write of a register other than a START: ignored while BUSY (44_codec_commands.md R178); `CTRL` takes 0
(10_state.md R25); the read-only registers keep their value (log entry 9); there is no number 6 (R24). -/
def regWrite (number : Nat) (value : Word) (s : State) : Host.Outcome State Fault Refusal :=
  if number > 5 then .refused .noSuchRegister
  else if s.callState = .busy then .next s
  else
    match number with
    | 0 => if value = 0 then .next s else .refused .reservedControlBits
    | 1 => .next { s with cmd := value }
    | 2 => .next { s with windowSize := value }
    | 3 => .next { s with inLen := value }
    | _ => .next s

/-- The buffers are owned by a call: it is running, or the host has not yet read its end from STATUS (20_memory.md
R63 (c), 10_state.md R30; log entry 28). -/
def buffersOwned (s : State) : Bool := decide (s.callState = .busy) || s.awaitingEnd

/-- A read of register `number` shows the host the end of its call: STATUS, giving DONE or FAILED (20_memory.md R63). -/
def showsEnd (number : Nat) (s : State) : Bool :=
  decide (number = 4) && decide (s.callState = .done ∨ s.callState = .failed)

/-- A host access to a buffer: only while no call owns it (20_memory.md R63) and only to an index that exists
(10_state.md R30), then `k`. -/
def bufferAccess (index : Word) (s : State) (k : State) : Host.Outcome State Fault Refusal :=
  if buffersOwned s then .refused .bufferOwnedByCall
  else if index.toNat ≥ Config.cap then .fault .noSuchIndex
  else .next k

/-- One move of the host; `engine` is no move (Fetch.lean lets the engine step). -/
def hostMove (a : HostAct) (s : State) : Host.Outcome State Fault Refusal :=
  match a with
  | .writeReg number value => regWrite number value s
  | .readReg number =>
    match regRead number s with
    | some v => .next { s with hostData := v, awaitingEnd := s.awaitingEnd && !showsEnd number s }
    | none => .refused .noSuchRegister
  | .writeIbuf index byte => bufferAccess index s { s with ibuf := memWrite s.ibuf index.toNat byte }
  | .readIbuf index => bufferAccess index s { s with hostData := (ibufByte s index.toNat).setWidth 32 }
  | .readObuf index => bufferAccess index s { s with hostData := (obufResult s index.toNat).setWidth 32 }
  | .writeObuf _ _ => if buffersOwned s then .refused .bufferOwnedByCall else .refused .obufReadOnly
  | .reset => .next (hardReset s)
  | .engine => .next s

end Sys2Proof.Machine
end

