-- ==== Sys2Proof/Machine/Fetch.lean ====
section
/-! DEFINITION. What the next step does: the instruction it runs and where it comes from. A host write to `CTRL` is
fetched as START; in a call the phase says what is fetched: the command in `op`, `fmt`, the header bytes, the token at
the bit cursor, the match under way, the tail (10_state.md R22, R34; 44_codec_commands.md R181). -/

namespace Sys2Proof.Machine

/-- An instruction to run in a state, or what happens when there is none. -/
inductive Fetched where
  | instr (i : Instr) (s : State)
  | without (o : Host.Outcome State Fault Refusal)

/-- A decoder's answer as a fetch. -/
def fetchDecoded (d : Except DecodeError Instr) (s : State) : Fetched :=
  match d with
  | .ok i => .instr i s
  | .error e => .without (decodeFault e s)

/-- The token at the cursor: the decoder's instruction, the bits after it left in the stream. -/
def tokenAt (s : State) : Except DecodeError Instr :=
  match decodeToken s.fmt (streamBits maxTokenBits s) with
  | .ok (i, _) => .ok i
  | .error e => .error e

/-- What the engine fetches in its phase (10_state.md R34); an engine with no call running does nothing
(10_state.md R39, 60_exceptions.md R205). -/
def fetchEngine (s : State) : Fetched :=
  match s.phase with
  | .idle => .without (.next s)
  | .check => .instr (commandOf s.op s.fmt) s
  | .cHdr => .instr (commandOf s.op s.fmt) s
  | .cToken => .instr (commandOf s.op s.fmt) s
  | .cFlush => .instr (commandOf s.op s.fmt) s
  | .dHdr => fetchDecoded (decodeHeader (headerBytes s)) s
  | .dToken => fetchDecoded (tokenAt s) s
  | .dCopy => .instr (matchOf s.fmt s.tOff s.tLen) s
  | .dTail => fetchDecoded (decodeTail s.fmt (streamBits 8 s)) s

/-- The host's next move, or else the engine's step. -/
def fetch (s : State) : Fetched :=
  match s.acts with
  | [] => fetchEngine s
  | .engine :: rest => fetchEngine { s with acts := rest }
  | .writeReg number value :: rest =>
    if number = 0 ∧ decodeControl value = .ok .start then .instr .start { s with acts := rest }
    else .without (hostMove (.writeReg number value) { s with acts := rest })
  | a :: rest => .without (hostMove a { s with acts := rest })

/-- Store the bytes of a list in IBUF from an index on. -/
def loadIbuf (m : Mem) (a : Nat) (bytes : List Byte) : Mem :=
  match bytes with
  | [] => m
  | b :: rest => loadIbuf (memWrite m a b) (a + 1) rest

/-- The bytes that hold a run of stream bits from bit 0 of the token area on, zero filled (30_encoding.md R74). -/
def packBytes (o : BitOrder) (bits : List Bool) : List Byte :=
  (List.range ((bits.length + 7) / 8)).map fun q =>
    (List.range 8).foldl
      (fun acc t => if (bits[8 * q + t]?).getD false then acc ||| ((1 : Byte) <<< bitPlace o t) else acc) 0

/-- The state in which the next step fetches a piece of code (log entry 18). A header stands in IBUF at `D_HDR`; a
token or a tail in the token area at `D_TOKEN` or `D_TAIL`; a command in `CMD`, started; a `CTRL` value is the host's
next move, with a legal command in `CMD`. -/
def placeCode (code : Code) (s : State) : State :=
  match code with
  | .header bytes =>
    { s with ibuf := loadIbuf s.ibuf 0 bytes, n := bytes.length, op := .decompress
             fmt := ((bytes.head?.bind fmtOfTag).getD s.fmt)
             callState := .busy, awaitingEnd := true, phase := .dHdr, acts := [] }
  | .token f bits =>
    let bytes := packBytes f.spec.order bits
    { s with ibuf := loadIbuf s.ibuf Config.hdrLen bytes, n := Config.hdrLen + bytes.length, op := .decompress, fmt := f
             c := 0, tBits := 8 * bytes.length, origLen := Config.cap
             callState := .busy, awaitingEnd := true, phase := .dToken, acts := [] }
  | .tail f bits =>
    let bytes := packBytes f.spec.order (List.replicate ((8 - bits.length % 8) % 8) false ++ bits)
    { s with ibuf := loadIbuf s.ibuf Config.hdrLen bytes, n := Config.hdrLen + bytes.length, op := .decompress, fmt := f
             c := 8 * bytes.length - bits.length, tBits := 8 * bytes.length, origLen := s.olen
             callState := .busy, awaitingEnd := true, phase := .dTail, acts := [] }
  | .cmd w =>
    let t := { s with cmd := w, acts := [] }
    match decodeCommand w with
    | some (op, f) => beginCall op f t
    | none => t
  | .ctrl w =>
    let t := { s with acts := [.writeReg 0 w] }
    match decodeCommand s.cmd with
    | some _ => t
    | none => { t with cmd := commandWord .compress .lz80 }

end Sys2Proof.Machine
end

