-- ==== Sys2Proof/Machine/Step.lean ====
section
/-! DEFINITION. One step: fetch, then run what was fetched; and the state in which a given word is fetched next. -/

namespace Sys2Proof.Machine

/-- One step of the machine: the host's next move, or one visit of the engine's phase (44_codec_commands.md R181). -/
def step (s : State) : Host.Outcome State Fault Refusal :=
  match fetch s with
  | .instr i t => exec i t
  | .without o => o

/-- `s` with the table's word placed where the next step fetches it (log entries 18, 19). -/
def State.withFetchWord (s : State) (nbits w : Nat) : State :=
  match tableCode nbits w with
  | some code => placeCode code s
  | none => s

end Sys2Proof.Machine
end

