-- ==== Sys2Proof/Machine/Engines.lean ====
section
/-! DEFINITION. Several engines (10_state.md R38, 60_exceptions.md R204): independent copies of the one-engine machine,
any one of which moves next. -/

namespace Sys2Proof.Machine

/-- The engines of a block after reset (00_scope.md R5: `NUM_ENGINES`), each with free values of its own (10_state.md R38;
log entry 20). -/
def engines (count : Nat) : List State := (List.range count).map fun k => { State.reset with engine := k }

/-- Engine `k` takes a step; the others keep still. There is no engine `k` past the end, so nothing moves. -/
def stepEngine (k : Nat) (es : List State) : Host.Outcome (List State) Fault Refusal :=
  match es[k]? with
  | none => .next es
  | some s =>
    match step s with
    | .next t => .next (es.set k t)
    | .fault r => .fault r
    | .refused r => .refused r

end Sys2Proof.Machine
end

