-- ==== Sys2Proof/Machine/Reference.lean ====
section
/-! DEFINITION. The commands as functions of byte sequences (44_codec_commands.md R176) and the Match Finder without its
index (41_match_finder.md R103 to R105, R110). `step` uses none of this: claims compare the machine with it. -/

namespace Sys2Proof.Machine

/-- A token, "Literal(byte) or Match(offset, length)" (00_scope.md glossary). -/
inductive Token where
  | lit (byte : Byte)
  | back (offset length : Nat)
  deriving DecidableEq, Repr

/-- The stream bits of a token (30_encoding.md R76, R77). -/
def tokenBits (f : Fmt) : Token → List Bool
  | .lit byte => litBits f byte
  | .back offset length => matchBits f offset length

/-- `k` is `mlen(j, i)` under a limit, said as a property (41_match_finder.md R104). -/
def IsMatchLen (D : Nat → Byte) (j i limit k : Nat) : Prop :=
  k ≤ limit ∧ (∀ t < k, D (j + t) = D (i + t)) ∧ (k < limit → D (j + k) ≠ D (i + k))

/-- `Cand(i)` without an index (41_match_finder.md R110): the nearest positions in the window with the same three-byte
prefix, nearest first, at most `MAX_PROBES`. -/
def candidates (D : Nat → Byte) (w i : Nat) : List Nat :=
  (((List.range (min w i)).map fun d => i - 1 - d).filter fun j =>
    decide (D j = D i ∧ D (j + 1) = D (i + 1) ∧ D (j + 2) = D (i + 2))).take Config.maxProbes

/-- The longest of the candidates, the first of equals (41_match_finder.md R105). -/
def longest (D : Nat → Byte) (i limit : Nat) (js : List Nat) : Best :=
  js.foldl (fun b j => if matchLen D j i limit > b.len then { len := matchLen D j i limit, off := i - j } else b)
    { len := 0, off := 0 }

/-- `MF.FIND(i)` without an index (41_match_finder.md R105, R108, R110). -/
def findSpec (F : FormatSpec) (D : Nat → Byte) (n w i : Nat) : Option (Nat × Nat) :=
  if n - i < F.minLen then none
  else
    let best := longest D i (min F.maxLen (n - i)) (candidates D w i)
    if best.len ≥ F.minLen then some (best.off, best.len) else none

/-- The greedy parse from cursor `i` on, at most `fuel` tokens (42_token_encoder.md R128). -/
def tokensFrom (F : FormatSpec) (D : Nat → Byte) (n w i fuel : Nat) : List Token :=
  match fuel with
  | 0 => []
  | fuel + 1 =>
    if i < n then
      match findSpec F D n w i with
      | some (off, len) => .back off len :: tokensFrom F D n w (i + len) fuel
      | none => .lit (D i) :: tokensFrom F D n w (i + 1) fuel
    else []

/-- `tokens(D, ws, F)` (44_codec_commands.md R176). -/
def tokensOf (F : FormatSpec) (data : List Byte) (w : Nat) : List Token :=
  tokensFrom F (fun a => data.getD a 0) data.length w 0 data.length

/-- A stream: header, tokens, padding (30_encoding.md R70). -/
def streamOf (f : Fmt) (origLen : Nat) (tokens : List Token) : List Byte :=
  hdrBytes f (BitVec.ofNat 32 origLen) ++ packBytes f.spec.order (tokens.flatMap (tokenBits f))

/-- `compress_F(D, ws)` (44_codec_commands.md R176). -/
def compressSpec (f : Fmt) (data : List Byte) (ws : Nat) : Except ErrKind (List Byte) :=
  if ws < f.spec.winMin ∨ ws > f.spec.winMax then .error .invalidWindowSize
  else .ok (streamOf f data.length (tokensOf f.spec data ws))

/-- The stream bits of a token area (30_encoding.md R74). -/
def bitsOfBytes (o : BitOrder) (bytes : List Byte) : List Bool :=
  (List.range (8 * bytes.length)).map fun k => bitOfByte o (bytes.getD (k / 8) 0) k

/-- One token off the front of a token area, or the error of 43_token_decoder.md R149 checks 3 to 5. -/
def readToken (f : Fmt) (bits : List Bool) : Except ErrKind (Token × List Bool) :=
  match bits with
  | [] => .error .lengthMismatch
  | flag :: rest =>
    let F := f.spec
    if flag = F.flagLit then
      if rest.length < 8 then .error .malformedStream
      else .ok (.lit (BitVec.ofNat 8 (fieldValue F.order (rest.take 8))), rest.drop 8)
    else
      if rest.length < F.offBits + F.lenBits then .error .malformedStream
      else .ok (.back (fieldValue F.order (rest.take F.offBits) + 1)
                 (fieldValue F.order ((rest.drop F.offBits).take F.lenBits) + F.minLen),
                rest.drop (F.offBits + F.lenBits))

/-- The output after `len` bytes copied one by one from `off` bytes back (43_token_decoder.md R147). -/
def copySpec (off len : Nat) (out : List Byte) : List Byte :=
  match len with
  | 0 => out
  | len + 1 => copySpec off len (out ++ [out.getD (out.length - off) 0])

/-- The tail check (43_token_decoder.md R148). -/
def tailSpec (bits : List Bool) (out : List Byte) : Except ErrKind (List Byte) :=
  if bits.length ≥ 8 then .error .lengthMismatch
  else if bits.any id then .error .malformedStream
  else .ok out

/-- The token loop (43_token_decoder.md R144 to R148) with at most `fuel` tokens. -/
def decodeSpec (f : Fmt) (origLen fuel : Nat) (bits : List Bool) (out : List Byte) : Except ErrKind (List Byte) :=
  match fuel with
  | 0 => tailSpec bits out
  | fuel + 1 =>
    if out.length < origLen then
      match readToken f bits with
      | .error e => .error e
      | .ok (.lit byte, rest) => decodeSpec f origLen fuel rest (out ++ [byte])
      | .ok (.back off len, rest) =>
        if off > out.length then .error .malformedStream
        else if out.length + len > origLen then .error .lengthMismatch
        else decodeSpec f origLen fuel rest (copySpec off len out)
    else tailSpec bits out

/-- `decompress_F(S)` (44_codec_commands.md R176, 43_token_decoder.md R143 to R149). -/
def decompressSpec (f : Fmt) (stream : List Byte) : Except ErrKind (List Byte) :=
  match stream with
  | t :: b0 :: b1 :: b2 :: b3 :: area =>
    if t = f.spec.tag then
      let bits := bitsOfBytes f.spec.order area
      decodeSpec f (le32 b0 b1 b2 b3).toNat (bits.length + 1) bits []
    else .error .malformedStream
  | _ => .error .malformedStream

end Sys2Proof.Machine
end

