-- ==== Sys2Proof/Safety.lean ====
section
/-! DEFINITION. What claims are stated in: runs, what a call's operands and result are, and the invariant of the engine,
in parts: the status fields, the latched operands, the canonical forms, the register widths, the encoder, the decoder. -/

namespace Sys2Proof.Machine

/-- `k` steps, stopping at the first stop. -/
def runSteps (k : Nat) (s : State) : Host.Outcome State Fault Refusal :=
  match k with
  | 0 => .next s
  | k + 1 =>
    match step s with
    | .next t => runSteps k t
    | .fault r => .fault r
    | .refused r => .refused r

/-- The host has put `data` into IBUF and its length into IN_LEN (44_codec_commands.md R177). -/
def Loaded (data : List Byte) (s : State) : Prop :=
  s.inLen.toNat = data.length ∧ ∀ a (h : a < data.length), ibufByte s a = data[a]

/-- The state of an engine whose call has ended as a function of R176 says: with its bytes, or with its error
(10_state.md R39). -/
def EndsWith (result : Except ErrKind (List Byte)) (t : State) : Prop :=
  t.phase = .idle ∧
  match result with
  | .ok out => t.callState = .done ∧ t.err = none ∧ t.outLen.toNat = out.length ∧
      ∀ a (h : a < out.length), obufResult t a = out[a]
  | .error e => t.callState = .failed ∧ t.err = some e ∧ t.outLen = 0

/-- A call begun with operation `op` and format `f` ends, with the host making no further move, as `result` says. -/
def CallComputes (op : Op) (f : Fmt) (s : State) (result : Except ErrKind (List Byte)) : Prop :=
  ∃ k t, runSteps k (beginCall op f { s with acts := [] }) = .next t ∧ EndsWith result t

/-- How many stream bits the encoder has put (42_token_encoder.md R121). -/
def emittedCount (s : State) : Nat := 8 * (s.olen - 5) + s.nacc

/-- Stream bit `k` of the stream being written: in OBUF, or still in `acc` (42_token_encoder.md R121, 30_encoding.md
R74). -/
def emittedBit (s : State) (k : Nat) : Bool :=
  if 5 + k / 8 < s.olen then bitOfByte s.fmt.spec.order (obufByte s (5 + k / 8)) k
  else s.acc.getLsbD (bitPlace s.fmt.spec.order k)

/-- The packer's registers as a stream position needs them: byte-aligned header behind, `acc` empty past `nacc`
(42_token_encoder.md R121). -/
def PackerReady (s : State) : Prop :=
  5 ≤ s.olen ∧ s.nacc ≤ 7 ∧ ∀ k, s.nacc ≤ k → k < 8 → s.acc.getLsbD (bitPlace s.fmt.spec.order k) = false

/-- The `W`-bit field at stream bit `pos` (30_encoding.md R75). -/
def fieldAt (s : State) (pos W : Nat) : Nat :=
  fieldValue s.fmt.spec.order ((List.range W).map fun t => streamBit s.fmt s (pos + t))

/-- The chain of key `h` in an index, from `HEAD[h]` along `PREV`, at most `fuel` positions (10_state.md R31). -/
def chainFrom (prev : Table) (j : Option Nat) (fuel : Nat) : List Nat :=
  match fuel, j with
  | 0, _ => []
  | _ + 1, none => []
  | fuel + 1, some j => j :: chainFrom prev (cellGet prev j) fuel

/-- The index after inserting positions `0 .. i-1` of the data (41_match_finder.md R102). -/
def indexOf (D : Nat → Byte) (n i : Nat) : Index := mfInsertRange D n 0 i { head := [], prev := [] }

/-- The phases of a compress call after its check (10_state.md R34). -/
def encoding (s : State) : Bool := decide (s.phase = .cHdr ∨ s.phase = .cToken ∨ s.phase = .cFlush)

/-- The phases of a decompress call after its header (10_state.md R34). -/
def decoding (s : State) : Bool := decide (s.phase = .dToken ∨ s.phase = .dCopy ∨ s.phase = .dTail)

/-- The status fields and the phase (10_state.md R28, R29, R34). -/
structure StatusInv (s : State) : Prop where
  idle_iff : s.phase = .idle ↔ s.callState ≠ .busy
  err_iff : s.err ≠ none ↔ s.callState = .failed
  outLen_zero : s.callState ≠ .done → s.outLen = 0
  encoding_op : encoding s = true → s.op ≠ .decompress
  decoding_op : decoding s = true ∨ s.phase = .dHdr → s.op = .decompress

/-- The operands latched at START are those still in the host registers, which a running call keeps
(44_codec_commands.md R171, R178, R180); a running call owns the buffers, and none does before the first START
(20_memory.md R63 (c)). -/
structure LatchInv (s : State) : Prop where
  latched_n : s.callState = .busy → s.n = s.inLen.toNat
  latched_cmd : s.callState = .busy → decodeCommand s.cmd = some (s.op, s.fmt)
  capacity : s.callState = .busy → s.op ≠ .decompress → s.n ≤ Config.maxCompressLen
  owner : s.callState = .busy → s.awaitingEnd = true
  free : s.callState = .idle → s.awaitingEnd = false

/-- The canonical forms, and every listed index of a buffer exists (10_state.md R30). -/
structure FormInv (s : State) : Prop where
  ibuf_wf : Mem.wf s.ibuf = true
  obuf_wf : Mem.wf s.obuf = true
  head_wf : cellsWf s.head = true
  prev_wf : cellsWf s.prev = true
  ibuf_cap : ∀ a, (cellGet s.ibuf a).isSome = true → a < Config.cap
  obuf_cap : ∀ a, (cellGet s.obuf a).isSome = true → a < Config.cap

/-- Every working register fits the width of 10_state.md R20 (00_scope.md R10: "a register width ... is a claim that the
value always fits"). -/
structure RegsFit (s : State) : Prop where
  w : s.w < 2 ^ 32
  n : s.n < 2 ^ 32
  cur : s.cur < 2 ^ 32
  olen : s.olen < 2 ^ 32
  origLen : s.origLen < 2 ^ 32
  c : s.c < 2 ^ 36
  tBits : s.tBits < 2 ^ 36
  nacc : s.nacc < 2 ^ 3
  tOff : s.tOff < 2 ^ 16
  tLen : s.tLen < 2 ^ 9
  rd : s.rd < 2 ^ 32
  wr : s.wr < 2 ^ 32
  rem : s.rem < 2 ^ 9

/-- The encoder between its steps: the window (44_codec_commands.md R172), the index (41_match_finder.md R102, every
position below the cursor inserted), the cursor and the size bound (42_token_encoder.md R128, R131). -/
structure EncInv (s : State) : Prop where
  window : encoding s = true → 1 ≤ s.w ∧ s.w ≤ s.fmt.spec.winMax
  index : s.phase = .cToken ∨ s.phase = .cFlush →
    s.index = indexOf (ibufByte s) s.n s.cur
  size : s.phase = .cToken ∨ s.phase = .cFlush →
    5 ≤ s.olen ∧ s.nacc ≤ 7 ∧ 8 * (s.olen - 5) + s.nacc ≤ 9 * s.cur
  header : s.phase = .check ∨ s.phase = .cHdr → s.head = [] ∧ s.prev = [] ∧ s.olen = 0
  clean : s.phase = .cToken ∨ s.phase = .cFlush →
    ∀ k, s.nacc ≤ k → k < 8 → s.acc.getLsbD (bitPlace s.fmt.spec.order k) = false
  more : s.phase = .cToken → s.cur < s.n
  last : s.phase = .cFlush → s.cur = s.n

/-- The decoder between its steps (43_token_decoder.md R141, R144, R147, R151). -/
structure DecInv (s : State) : Prop where
  bits : decoding s = true → 5 ≤ s.n ∧ s.tBits = 8 * (s.n - 5) ∧ s.c ≤ s.tBits
  written : decoding s = true → ∀ a < s.olen, (cellGet s.obuf a).isSome = true
  more : s.phase = .dToken → s.olen < s.origLen
  last : s.phase = .dTail → s.olen = s.origLen
  copy : s.phase = .dCopy →
    0 < s.rem ∧ s.rem ≤ s.tLen ∧ s.wr = s.olen ∧ s.rd + s.tOff = s.wr ∧ 1 ≤ s.tOff ∧ s.olen + s.rem ≤ s.origLen

/-- The invariant of the engine. -/
structure EngineInv (s : State) : Prop where
  status : StatusInv s
  latch : LatchInv s
  form : FormInv s
  fit : RegsFit s
  enc : EncInv s
  dec : DecInv s

end Sys2Proof.Machine
end

