-- ==== Sys2Proof/Certificates/Slice0/Obligations.lean ====
section
/-! DEFINITION. The statements for the provers, from the numbered rules of spec/. A next state is written out as the state
before it with the fields the rule changes, so what is not named there is unchanged. -/

open Sys2Proof Sys2Proof.Machine

/-! ### Encodings -/

/-- Words written out from 30_encoding.md R87 and R83, 10_state.md R25. -/
def Obligations.SpecWordsDecode : Prop :=
  decode (.header [0x80, 0x0A, 0x00, 0x00, 0x00]) = .ok (.hdrLz80 10) ∧
  decode (.token .lz80 [false, false, true, false, false, false, false, false, true]) = .ok (.litLz80 0x41) ∧
  decode (.token .lz01 [true, true, false, false, false, false, false, true, false]) = .ok (.litLz01 0x41) ∧
  decode (.token .lz03
    [false, false, false, false, false, false, false, false, false, false, false, false, false, false,
     false, false, true, false, true]) = .ok (.matchLz03 1 9) ∧
  decode (.tail .lz80 [false, false, false, false, false, false, false]) = .ok (.padLz80 7) ∧
  decode (.cmd 0x00000103) = .ok .compressLz01Fast ∧
  decode (.ctrl 1) = .ok .start

/-- 30_encoding.md R71, R76 to R79, R83: no bit of an encoding is dropped. -/
def Obligations.DecodeInvertsEncode : Prop :=
  ∀ i : Instr, i.wellFormed = true → decode (encode i) = .ok i

/-- 30_encoding.md R71, R76 to R79, R83: what decodes is the encoding of what it decodes to, and is well-formed. -/
def Obligations.EncodeInvertsDecode : Prop :=
  ∀ (code : Code) (i : Instr), decode code = .ok i → i.wellFormed = true ∧ encode i = code

/-- 30_encoding.md R80: the flag tells the length; the bits after a token stay unread. -/
def Obligations.TokensDecodeWhateverFollows : Prop :=
  ∀ (f : Fmt) (rest : List Bool),
    (∀ byte, decodeToken f (litBits f byte ++ rest) = .ok (litOf f byte, rest)) ∧
    (∀ offset length, matchWellFormed f.spec offset length = true →
      decodeToken f (matchBits f offset length ++ rest) = .ok (matchOf f offset length, rest))

/-- 30_encoding.md R84, R78: any run of bits long enough for a match token holds a well-formed token. -/
def Obligations.NoTokenPatternIsReserved : Prop :=
  ∀ (f : Fmt) (bits : List Bool), f.spec.matchBits ≤ bits.length →
    ∃ i rest, decodeToken f bits = .ok (i, rest) ∧ i.wellFormed = true

/-- 30_encoding.md R83: the nine values, all 32 bits compared. -/
def Obligations.ExactlyNineCommandWords : Prop :=
  ∀ (w : Word) (op : Op) (f : Fmt), decodeCommand w = some (op, f) ↔
    (w, op, f) ∈
      [((0x00008001 : Word), Op.compress, Fmt.lz80), (0x00008002, .decompress, .lz80), (0x00008003, .compressFast, .lz80),
       (0x00000101, .compress, .lz01), (0x00000102, .decompress, .lz01), (0x00000103, .compressFast, .lz01),
       (0x00000301, .compress, .lz03), (0x00000302, .decompress, .lz03), (0x00000303, .compressFast, .lz03)]

/-! ### Fetch -/

/-- 10_state.md R22, R34, 44_codec_commands.md R171, R181: what a step runs. -/
def Obligations.StepRunsTheFetchedInstruction : Prop :=
  (∀ s i, s.acts = [] → s.phase = .dHdr → decodeHeader (headerBytes s) = .ok i → step s = exec i s) ∧
  (∀ s i rest, s.acts = [] → s.phase = .dToken →
    decodeToken s.fmt (streamBits 24 s) = .ok (i, rest) → step s = exec i s) ∧
  (∀ s, s.acts = [] → s.phase = .dCopy → step s = exec (matchOf s.fmt s.tOff s.tLen) s) ∧
  (∀ s i, s.acts = [] → s.phase = .dTail → decodeTail s.fmt (streamBits 8 s) = .ok i → step s = exec i s) ∧
  (∀ s, s.acts = [] → s.phase = .check ∨ encoding s = true → step s = exec (commandOf s.op s.fmt) s) ∧
  (∀ s rest, s.acts = .writeReg 0 1 :: rest → step s = exec .start { s with acts := rest })

/-- A host move `engine` is one step of the engine as it would be with no host (log entry 7; 44_codec_commands.md R181:
"No step depends on anything but the engine's own state"). -/
def Obligations.EngineTurnIsAnEngineStep : Prop :=
  ∀ s rest t, s.acts = .engine :: rest → step { s with acts := [] } = .next t → step s = .next { t with acts := rest }

/-- 60_exceptions.md R205, 10_state.md R39: an engine with no call running does nothing; that a step then answers the same
state is log entry 25. -/
def Obligations.IdleEngineDoesNothing : Prop :=
  ∀ s, s.acts = [] → s.phase = .idle → step s = .next s

/-! ### Reset and status -/

/-- 10_state.md R36. -/
def Obligations.ResetValues : Prop :=
  State.reset.callState = .idle ∧ State.reset.err = none ∧ State.reset.phase = .idle ∧
  (∀ number, number < 6 → regRead number State.reset = some 0) ∧
  ∀ a, cellGet State.reset.ibuf a = none ∧ cellGet State.reset.obuf a = none

/-- 70_reset_and_hazards.md R220: RESET in any state, a call running or not. -/
def Obligations.ResetAbandonsAnyCall : Prop :=
  ∀ s rest, s.acts = .reset :: rest → ∃ t, step s = .next t ∧
    t.callState = .idle ∧ t.err = none ∧ t.outLen = 0 ∧ t.cmd = 0 ∧ t.windowSize = 0 ∧ t.inLen = 0 ∧
    t.phase = .idle ∧ t.acts = rest ∧ ∀ a, cellGet t.ibuf a = none ∧ cellGet t.obuf a = none

/-- 10_state.md R28: `STATE` in bits 1:0, `ERR` in bits 5:4, the other bits 0, with the codes of R28. -/
def Obligations.StatusWordLayout : Prop :=
  ∀ s, (statusWord s).extractLsb' 2 2 = 0 ∧ (statusWord s).extractLsb' 6 26 = 0 ∧
    ((statusWord s).extractLsb' 0 2 : BitVec 2) =
      (match s.callState with | .idle => 0 | .busy => 1 | .done => 2 | .failed => 3) ∧
    ((statusWord s).extractLsb' 4 2 : BitVec 2) =
      (match s.err with
        | none => 0 | some .invalidWindowSize => 1 | some .malformedStream => 2 | some .lengthMismatch => 3)

/-- 60_exceptions.md R196: what an error changes, and what the host then reads. -/
def Obligations.ErrorEntryAsTheHostSeesIt : Prop :=
  ∀ s, regRead 4 (raise .invalidWindowSize s) = some 0x13 ∧ regRead 4 (raise .malformedStream s) = some 0x23 ∧
    regRead 4 (raise .lengthMismatch s) = some 0x33 ∧
    ∀ e, regRead 5 (raise e s) = some 0 ∧
      raise e s = { s with callState := .failed, err := some e, outLen := 0, phase := .idle }

/-! ### START -/

/-- 44_codec_commands.md R171, 10_state.md R35: START with a legal command, while no call runs. -/
def Obligations.StartBeginsACall : Prop :=
  ∀ s op f, s.callState ≠ .busy → decodeCommand s.cmd = some (op, f) →
    (op ≠ .decompress → s.inLen.toNat ≤ 3817748702) →
    exec .start s = .next { s with
      op := op, fmt := f, n := s.inLen.toNat, cur := 0, olen := 0, c := 0, acc := 0, nacc := 0, rem := 0,
      head := [], prev := [], err := none, outLen := 0, callState := .busy, phase := .check,
      awaitingEnd := true, obufEpoch := s.obufEpoch + 1 }

/-- 44_codec_commands.md R171, R178: START while BUSY changes nothing. R179 and R180 have a model refuse a reserved CMD and
an input above the capacity bound (log entries 10, 11). -/
def Obligations.StartIgnoredOrRefused : Prop :=
  (∀ s, s.callState = .busy → exec .start s = .next s) ∧
  (∀ s, s.callState ≠ .busy → decodeCommand s.cmd = none → exec .start s = .refused .reservedCommand) ∧
  (∀ s op f, s.callState ≠ .busy → decodeCommand s.cmd = some (op, f) → op ≠ .decompress →
    s.inLen.toNat > 3817748702 → exec .start s = .refused .capacityExceeded)

/-! ### Commands -/

/-- 44_codec_commands.md R172, 60_exceptions.md R191: compress_lz80, compress_lz01, compress_lz03 in `P_CHECK`. -/
def Obligations.CompressChecksItsWindow : Prop :=
  ∀ f s, s.op = .compress → s.fmt = f → s.phase = .check →
    (1 ≤ s.windowSize.toNat → s.windowSize.toNat ≤ f.spec.winMax →
      exec (commandOf .compress f) s = .next { s with w := s.windowSize.toNat, phase := .cHdr }) ∧
    (s.windowSize.toNat < 1 ∨ s.windowSize.toNat > f.spec.winMax →
      exec (commandOf .compress f) s =
        .next { s with err := some .invalidWindowSize, outLen := 0, callState := .failed, phase := .idle })

/-- 44_codec_commands.md R173: compress_lz80_fast, compress_lz01_fast, compress_lz03_fast in `P_CHECK`. -/
def Obligations.FastCompressTakesWindow1024 : Prop :=
  ∀ f s, s.op = .compressFast → s.fmt = f → s.phase = .check →
    exec (commandOf .compressFast f) s = .next { s with w := 1024, phase := .cHdr }

/-- 44_codec_commands.md R174, 10_state.md R34: decompress_lz80, decompress_lz01, decompress_lz03 in `P_CHECK`. -/
def Obligations.DecompressGoesToItsHeader : Prop :=
  ∀ f s, s.op = .decompress → s.fmt = f → s.phase = .check →
    exec (commandOf .decompress f) s = .next { s with phase := .dHdr }

/-- 42_token_encoder.md R124, R128: the visit of `C_HDR` of the six compress commands. -/
def Obligations.EncoderWritesTheHeader : Prop :=
  ∀ op f s, op ≠ .decompress → s.op = op → s.fmt = f → s.phase = .cHdr → s.n < 2 ^ 32 →
    ∃ m, exec (commandOf op f) s = .next { s with
        obuf := m, olen := 5, acc := 0, nacc := 0, cur := 0, phase := if 0 < s.n then .cToken else .cFlush } ∧
      cellGet m 0 = some f.spec.tag ∧
      (∀ k < 4, cellGet m (1 + k) = some (BitVec.ofNat 8 (s.n / 256 ^ k))) ∧
      ∀ a, 5 ≤ a → cellGet m a = cellGet s.obuf a

/-- 42_token_encoder.md R125, R126, R128, 41_match_finder.md R107: the visit of `C_TOKEN` of the six compress commands
appends the bits of the one token the hash-free Match Finder gives, inserts the positions it covers, moves `cur`. -/
def Obligations.EncoderEmitsOneToken : Prop :=
  ∀ op f s, op ≠ .decompress → s.op = op → s.fmt = f → s.phase = .cToken → s.cur < s.n → PackerReady s →
    s.index = indexOf (ibufByte s) s.n s.cur →
    ∃ t, exec (commandOf op f) s = .next t ∧
      (match findSpec f.spec (ibufByte s) s.n s.w s.cur with
       | some (off, len) =>
         t = { s with obuf := t.obuf, olen := t.olen, acc := t.acc, nacc := t.nacc, head := t.head, prev := t.prev,
                      tKind := .backRef, tOff := off, tLen := len, cur := s.cur + len,
                      phase := if s.cur + len < s.n then .cToken else .cFlush } ∧
         emittedCount t = emittedCount s + f.spec.matchBits ∧
         ∀ k (h : k < (matchBits f off len).length), emittedBit t (emittedCount s + k) = (matchBits f off len)[k]
       | none =>
         t = { s with obuf := t.obuf, olen := t.olen, acc := t.acc, nacc := t.nacc, head := t.head, prev := t.prev,
                      tKind := .literal, tByte := ibufByte s s.cur, cur := s.cur + 1,
                      phase := if s.cur + 1 < s.n then .cToken else .cFlush } ∧
         emittedCount t = emittedCount s + 9 ∧
         ∀ k (h : k < (litBits f (ibufByte s s.cur)).length),
           emittedBit t (emittedCount s + k) = (litBits f (ibufByte s s.cur))[k]) ∧
      t.index = indexOf (ibufByte s) s.n t.cur ∧ PackerReady t ∧
      (∀ k < emittedCount s, emittedBit t k = emittedBit s k) ∧
      ∀ a, a < s.olen ∨ t.olen ≤ a → cellGet t.obuf a = cellGet s.obuf a

/-- 42_token_encoder.md R123, R127, 30_encoding.md R79, 44_codec_commands.md R175: the visit of `C_FLUSH` of the six
compress commands. -/
def Obligations.EncoderFlushesAndIsDone : Prop :=
  ∀ op f s, op ≠ .decompress → s.op = op → s.fmt = f → s.phase = .cFlush → PackerReady s → s.olen < 4294967295 →
    ∃ t, exec (commandOf op f) s = .next t ∧
      t = { s with obuf := t.obuf, olen := 5 + (emittedCount s + 7) / 8, acc := 0, nacc := 0,
                   outLen := t.outLen, callState := .done, phase := .idle } ∧
      t.outLen.toNat = t.olen ∧
      (∀ k < emittedCount s, bitOfByte f.spec.order (obufByte t (5 + k / 8)) k = emittedBit s k) ∧
      (∀ k, emittedCount s ≤ k → k < 8 * (t.olen - 5) → bitOfByte f.spec.order (obufByte t (5 + k / 8)) k = false) ∧
      ∀ a, a < s.olen ∨ t.olen ≤ a → cellGet t.obuf a = cellGet s.obuf a

/-! ### Stream records -/

/-- 43_token_decoder.md R143: HDR.lz80, HDR.lz01, HDR.lz03 of the commanded format. -/
def Obligations.HeaderRecordCompletes : Prop :=
  ∀ f origLen s, s.phase = .dHdr → s.fmt = f → 5 ≤ s.n →
    exec (hdrOf f origLen) s = .next { s with
      origLen := origLen.toNat, tBits := 8 * (s.n - 5), c := 0, olen := 0,
      phase := if 0 < origLen.toNat then .dToken else .dTail }

/-- 43_token_decoder.md R143: the whole visit of `D_HDR`, from the bytes in IBUF. -/
def Obligations.HeaderStepChecksThenReads : Prop :=
  ∀ s, s.acts = [] → s.phase = .dHdr →
    step s =
      if s.n < 5 then .next (raise .malformedStream s)
      else if ibufByte s 0 ≠ s.fmt.spec.tag then .next (raise .malformedStream s)
      else
        .next { s with
          origLen := (ibufByte s 1).toNat + 256 * (ibufByte s 2).toNat + 65536 * (ibufByte s 3).toNat
            + 16777216 * (ibufByte s 4).toNat,
          tBits := 8 * (s.n - 5), c := 0, olen := 0,
          phase := if 0 < (ibufByte s 1).toNat + 256 * (ibufByte s 2).toNat + 65536 * (ibufByte s 3).toNat
            + 16777216 * (ibufByte s 4).toNat then .dToken else .dTail }

/-- 43_token_decoder.md R145: LIT.lz80, LIT.lz01, LIT.lz03. -/
def Obligations.LiteralRecordCompletes : Prop :=
  ∀ f byte s, s.phase = .dToken → s.fmt = f → 9 ≤ s.tBits - s.c →
    exec (litOf f byte) s = .next { s with
      c := s.c + 9, tKind := .literal, tByte := byte, obuf := memWrite s.obuf s.olen byte, olen := s.olen + 1,
      phase := if s.olen + 1 < s.origLen then .dToken else .dTail }

/-- 43_token_decoder.md R142, R145: a literal flag at the cursor: the byte field is read and appended, or the stream ends
inside the token (what the truncated token has set by then is log entry 15). -/
def Obligations.LiteralStepFollowsTheStream : Prop :=
  ∀ s, s.acts = [] → s.phase = .dToken → s.c < s.tBits → streamBit s.fmt s s.c = s.fmt.spec.flagLit →
    step s =
      if s.tBits - s.c < 9 then .next (raise .malformedStream { s with c := s.c + 1, tKind := .literal })
      else
        .next { s with
          c := s.c + 9, tKind := .literal, tByte := BitVec.ofNat 8 (fieldAt s (s.c + 1) 8),
          obuf := memWrite s.obuf s.olen (BitVec.ofNat 8 (fieldAt s (s.c + 1) 8)), olen := s.olen + 1,
          phase := if s.olen + 1 < s.origLen then .dToken else .dTail }

/-- 43_token_decoder.md R144, R149 check 3: no stream bit left at a token boundary. -/
def Obligations.ExhaustedStreamIsLengthMismatch : Prop :=
  ∀ s, s.acts = [] → s.phase = .dToken → s.tBits - s.c = 0 → step s = .next (raise .lengthMismatch s)

/-- 43_token_decoder.md R146, R147: MATCH.lz80, MATCH.lz01, MATCH.lz03 in `D_TOKEN` with both checks passed. -/
def Obligations.MatchRecordStartsItsCopy : Prop :=
  ∀ f offset length s, s.phase = .dToken → s.fmt = f → f.spec.matchBits ≤ s.tBits - s.c →
    offset ≤ s.olen → s.olen + length ≤ s.origLen →
    exec (matchOf f offset length) s = .next { s with
      c := s.c + f.spec.matchBits, tKind := .backRef, tOff := offset, tLen := length,
      rd := s.olen - offset, wr := s.olen, rem := length, phase := .dCopy }

/-- 43_token_decoder.md R146, 60_exceptions.md R195: the two checks of a match that is all there, in their order; nothing
is copied. -/
def Obligations.MatchChecksInOrder : Prop :=
  ∀ f offset length s, s.phase = .dToken → s.fmt = f → f.spec.matchBits ≤ s.tBits - s.c →
    (offset > s.olen →
      exec (matchOf f offset length) s = .next (raise .malformedStream { s with
        c := s.c + f.spec.matchBits, tKind := .backRef, tOff := offset, tLen := length })) ∧
    (offset ≤ s.olen → s.olen + length > s.origLen →
      exec (matchOf f offset length) s = .next (raise .lengthMismatch { s with
        c := s.c + f.spec.matchBits, tKind := .backRef, tOff := offset, tLen := length }))

/-- 43_token_decoder.md R142, R146: a match flag at the cursor: the two fields are read, each after its own check for
truncation, then the offset check, the overshoot check, the start of the copy (what a truncated token has set by then is
log entry 15). -/
def Obligations.MatchStepFollowsTheStream : Prop :=
  ∀ s F, F = s.fmt.spec → s.acts = [] → s.phase = .dToken → s.c < s.tBits → streamBit s.fmt s s.c = F.flagMatch →
    step s =
      if s.tBits - s.c < 1 + F.offBits then .next (raise .malformedStream { s with c := s.c + 1, tKind := .backRef })
      else if s.tBits - s.c < F.matchBits then
        .next (raise .malformedStream { s with
          c := s.c + 1 + F.offBits, tKind := .backRef, tOff := fieldAt s (s.c + 1) F.offBits + 1 })
      else if fieldAt s (s.c + 1) F.offBits + 1 > s.olen then
        .next (raise .malformedStream { s with
          c := s.c + F.matchBits, tKind := .backRef, tOff := fieldAt s (s.c + 1) F.offBits + 1,
          tLen := fieldAt s (s.c + 1 + F.offBits) F.lenBits + F.minLen })
      else if s.olen + (fieldAt s (s.c + 1 + F.offBits) F.lenBits + F.minLen) > s.origLen then
        .next (raise .lengthMismatch { s with
          c := s.c + F.matchBits, tKind := .backRef, tOff := fieldAt s (s.c + 1) F.offBits + 1,
          tLen := fieldAt s (s.c + 1 + F.offBits) F.lenBits + F.minLen })
      else
        .next { s with
          c := s.c + F.matchBits, tKind := .backRef, tOff := fieldAt s (s.c + 1) F.offBits + 1,
          tLen := fieldAt s (s.c + 1 + F.offBits) F.lenBits + F.minLen,
          rd := s.olen - (fieldAt s (s.c + 1) F.offBits + 1), wr := s.olen,
          rem := fieldAt s (s.c + 1 + F.offBits) F.lenBits + F.minLen, phase := .dCopy }

/-- 43_token_decoder.md R147: one visit of `D_COPY` of MATCH.lz80, MATCH.lz01, MATCH.lz03. -/
def Obligations.CopyMovesOneByte : Prop :=
  ∀ f s, s.phase = .dCopy → s.fmt = f → 0 < s.rem →
    exec (matchOf f s.tOff s.tLen) s = .next { s with
      obuf := memWrite s.obuf s.wr (obufByte s s.rd), rd := s.rd + 1, wr := s.wr + 1, olen := s.olen + 1,
      rem := s.rem - 1,
      phase := if s.rem = 1 then (if s.olen + 1 < s.origLen then .dToken else .dTail) else .dCopy }

/-- 43_token_decoder.md R147: the net effect of a copy, overlapping or not: the last `t_off` bytes repeated. -/
def Obligations.CopyRepeatsTheLastBytes : Prop :=
  ∀ s, s.acts = [] → s.phase = .dCopy → 0 < s.rem → 1 ≤ s.tOff → s.wr = s.olen → s.rd + s.tOff = s.wr →
    ∃ t, runSteps s.rem s = .next t ∧
      t.olen = s.olen + s.rem ∧ t.rd = s.rd + s.rem ∧ t.wr = s.wr + s.rem ∧ t.rem = 0 ∧ t.c = s.c ∧
      t.phase = (if s.olen + s.rem < s.origLen then .dToken else .dTail) ∧
      (∀ k < s.rem, obufByte t (s.olen + k) = obufByte s (s.olen - s.tOff + k % s.tOff)) ∧
      ∀ a, a < s.olen ∨ s.olen + s.rem ≤ a → obufByte t a = obufByte s a

/-- 43_token_decoder.md R148, 44_codec_commands.md R175: PAD.lz80, PAD.lz01, PAD.lz03 at the end of a good stream. -/
def Obligations.PadRecordEndsTheCall : Prop :=
  ∀ f bits s, s.phase = .dTail → s.fmt = f → 5 ≤ s.n → s.tBits = 8 * (s.n - 5) → s.tBits = s.c + bits → bits ≤ 7 →
    (∀ k, s.c ≤ k → k < s.tBits → streamBit f s k = false) →
    exec (padOf f bits) s = .next { s with outLen := BitVec.ofNat 32 s.olen, callState := .done, phase := .idle }

/-- 43_token_decoder.md R148, 44_codec_commands.md R175: the whole visit of `D_TAIL`. -/
def Obligations.TailStepChecksThenEnds : Prop :=
  ∀ s, s.acts = [] → s.phase = .dTail → 5 ≤ s.n → s.tBits = 8 * (s.n - 5) → s.c ≤ s.tBits →
    ((s.n - 5) - (s.c + 7) / 8 > 0 → step s = .next (raise .lengthMismatch s)) ∧
    ((s.n - 5) - (s.c + 7) / 8 = 0 → (∃ k, s.c ≤ k ∧ k < s.tBits ∧ streamBit s.fmt s k = true) →
      step s = .next (raise .malformedStream s)) ∧
    ((s.n - 5) - (s.c + 7) / 8 = 0 → (∀ k, s.c ≤ k → k < s.tBits → streamBit s.fmt s k = false) →
      step s = .next { s with outLen := BitVec.ofNat 32 s.olen, callState := .done, phase := .idle })

/-- Outside its phase, its format or its operation no engine executes a record or a command, and `exec` refuses it; so it
does a PAD of another length than the bits left and a MATCH that is not the one being copied (log entry 16). A header of
another format at `D_HDR` is executed: 43_token_decoder.md R143 rejects its tag. -/
def Obligations.OutOfSequenceIsRefused : Prop :=
  ∀ f s,
    (∀ origLen, s.phase ≠ .dHdr → exec (hdrOf f origLen) s = .refused .outOfSequence) ∧
    (∀ origLen, s.phase = .dHdr → s.fmt ≠ f → exec (hdrOf f origLen) s = .next (raise .malformedStream s)) ∧
    (∀ byte, s.phase ≠ .dToken ∨ s.fmt ≠ f → exec (litOf f byte) s = .refused .outOfSequence) ∧
    (∀ offset length, (s.phase ≠ .dToken ∧ s.phase ≠ .dCopy) ∨ s.fmt ≠ f →
      exec (matchOf f offset length) s = .refused .outOfSequence) ∧
    (∀ offset length, s.phase = .dCopy → s.tOff ≠ offset ∨ s.tLen ≠ length →
      exec (matchOf f offset length) s = .refused .outOfSequence) ∧
    (∀ bits, s.phase ≠ .dTail ∨ s.fmt ≠ f ∨ s.tBits - s.c ≠ bits →
      exec (padOf f bits) s = .refused .outOfSequence) ∧
    (∀ op, s.op ≠ op ∨ s.fmt ≠ f → exec (commandOf op f) s = .refused .outOfSequence) ∧
    (∀ op, op ≠ .decompress → s.phase ≠ .check → encoding s = false →
      exec (commandOf op f) s = .refused .outOfSequence) ∧
    (s.phase ≠ .check → exec (commandOf .decompress f) s = .refused .outOfSequence)

/-! ### The host -/

/-- 10_state.md R24, 44_codec_commands.md R178: a register write while BUSY changes nothing, START included; for a CTRL
value with reserved bits R178 is followed, not R25 (log entry 24). -/
def Obligations.BusyIgnoresRegisterWrites : Prop :=
  ∀ s number value rest, s.acts = .writeReg number value :: rest → number ≤ 5 → s.callState = .busy →
    step s = .next { s with acts := rest }

/-- 10_state.md R24 to R27: a register write while not BUSY. A write with reserved CTRL bits, and, BUSY or not, of a register
number from 6 on, is outside the spec (R25, R24); the model refuses it (93_implementation_defined.md U5, U6, log entry
12). -/
def Obligations.RegisterWritesReachTheirRegister : Prop :=
  ∀ s number value rest, s.acts = .writeReg number value :: rest →
    (6 ≤ number → step s = .refused .noSuchRegister) ∧
    (s.callState ≠ .busy →
      (number = 0 → value = 0 → step s = .next { s with acts := rest }) ∧
      (number = 0 → value ≠ 0 → value ≠ 1 → step s = .refused .reservedControlBits) ∧
      (number = 1 → step s = .next { s with acts := rest, cmd := value }) ∧
      (number = 2 → step s = .next { s with acts := rest, windowSize := value }) ∧
      (number = 3 → step s = .next { s with acts := rest, inLen := value }))

/-- 10_state.md R24 to R29, 44_codec_commands.md R178: a register read, BUSY or not, gives the register and changes nothing
but what the host has been given (`hostData`, log entry 8, and, at a STATUS that shows DONE or FAILED, `awaitingEnd`, log
entry 28). A register number from 6 on is outside the spec (R24); the model refuses it (U6, log entry 12). -/
def Obligations.RegisterReadsHaveNoSideEffect : Prop :=
  ∀ s number rest, s.acts = .readReg number :: rest →
    (number = 0 → step s = .next { s with acts := rest, hostData := 0 }) ∧
    (number = 1 → step s = .next { s with acts := rest, hostData := s.cmd }) ∧
    (number = 2 → step s = .next { s with acts := rest, hostData := s.windowSize }) ∧
    (number = 3 → step s = .next { s with acts := rest, hostData := s.inLen }) ∧
    (number = 4 → s.callState = .idle ∨ s.callState = .busy →
      step s = .next { s with acts := rest, hostData := statusWord s }) ∧
    (number = 4 → s.callState = .done ∨ s.callState = .failed →
      step s = .next { s with acts := rest, hostData := statusWord s, awaitingEnd := false }) ∧
    (number = 5 → step s = .next { s with acts := rest, hostData := s.outLen }) ∧
    (6 ≤ number → step s = .refused .noSuchRegister)

/-- The model's reading of "read-only" for STATUS and OUT_LEN (log entry 9): a host write leaves them alone. -/
def Obligations.ReadOnlyRegistersKeepTheirValue : Prop :=
  ∀ s number value rest, s.acts = .writeReg number value :: rest → number = 4 ∨ number = 5 →
    step s = .next { s with acts := rest }

/-- 10_state.md R30, R39, 20_memory.md R63: the host's access to the buffers while no call owns them, and while one does:
from START to the host's read of STATUS that gives DONE or FAILED. A byte of OBUF that is no result is a free value (log
entry 2); the refusals are the model's form of R63 (c) (log entries 13, 28). -/
def Obligations.HostBufferAccess : Prop :=
  ∀ s rest index, index.toNat < 4294967295 →
    (s.callState ≠ .busy → s.awaitingEnd = false →
      (∀ byte, s.acts = .writeIbuf index byte :: rest →
        ∃ t, step s = .next t ∧ t = { s with acts := rest, ibuf := t.ibuf } ∧ ibufByte t index.toNat = byte ∧
          ∀ a, a ≠ index.toNat → ibufByte t a = ibufByte s a) ∧
      (s.acts = .readIbuf index :: rest →
        step s = .next { s with acts := rest, hostData := (ibufByte s index.toNat).setWidth 32 }) ∧
      (s.acts = .readObuf index :: rest → s.callState = .done → index.toNat < s.outLen.toNat →
        step s = .next { s with acts := rest, hostData := (obufByte s index.toNat).setWidth 32 }) ∧
      (s.acts = .readObuf index :: rest → s.callState ≠ .done ∨ s.outLen.toNat ≤ index.toNat →
        step s = .next { s with
          acts := rest, hostData := (Config.unspecifiedObuf s.engine s.obufEpoch index.toNat).setWidth 32 })) ∧
    (s.callState = .busy ∨ s.awaitingEnd = true →
      (∀ byte, s.acts = .writeIbuf index byte :: rest → step s = .refused .bufferOwnedByCall) ∧
      (s.acts = .readIbuf index :: rest → step s = .refused .bufferOwnedByCall) ∧
      (s.acts = .readObuf index :: rest → step s = .refused .bufferOwnedByCall))

/-- Where a host's access to a buffer that no call owns stops: index `CAP` does not exist (10_state.md R30), OBUF is
read-only to the host (R30; log entries 13, 14). -/
def Obligations.HostBufferStops : Prop :=
  ∀ s rest,
    (s.callState ≠ .busy → s.awaitingEnd = false →
      (∀ byte, s.acts = .writeIbuf 0xFFFFFFFF byte :: rest → step s = .fault .noSuchIndex) ∧
      (s.acts = .readIbuf 0xFFFFFFFF :: rest → step s = .fault .noSuchIndex) ∧
      (s.acts = .readObuf 0xFFFFFFFF :: rest → step s = .fault .noSuchIndex) ∧
      ∀ index byte, s.acts = .writeObuf index byte :: rest → step s = .refused .obufReadOnly) ∧
    (s.callState = .busy ∨ s.awaitingEnd = true →
      ∀ index byte, s.acts = .writeObuf index byte :: rest → step s = .refused .bufferOwnedByCall)

/-- 20_memory.md R59: a byte read after a write; the canonical form is kept. -/
def Obligations.BufferReadsWhatWasWritten : Prop :=
  ∀ (m : Mem) a v, Mem.wf m = true →
    Mem.wf (memWrite m a v) = true ∧ cellGet (memWrite m a v) a = some v ∧
    ∀ b, b ≠ a → cellGet (memWrite m a v) b = cellGet m b

/-! ### The whole machine -/

/-- The invariant holds at reset (10_state.md R36). -/
def Obligations.ResetMeetsTheInvariant : Prop := EngineInv State.reset

/-- Every step keeps the invariant: status fields R28, R29, R34; latched operands R171, R178; canonical buffers; every
register fits its width R20, R10; the encoder R102, R121, R131; the decoder R141, R144, R147, R151. -/
def Obligations.StepKeepsTheInvariant : Prop :=
  ∀ s t, EngineInv s → step s = .next t → EngineInv t

/-- 60_exceptions.md R190, 20_memory.md R56: an engine step never faults and is never refused. -/
def Obligations.EngineNeverStops : Prop :=
  ∀ s, EngineInv s → s.acts = [] → ∃ t, step s = .next t

/-- 20_memory.md R64, 10_state.md R35: an engine step leaves IBUF and what the host wrote alone. -/
def Obligations.EngineLeavesTheHostsStateAlone : Prop :=
  ∀ s t, s.acts = [] → step s = .next t →
    t.ibuf = s.ibuf ∧ t.cmd = s.cmd ∧ t.windowSize = s.windowSize ∧ t.inLen = s.inLen ∧
    t.acts = [] ∧ t.hostData = s.hostData ∧ t.awaitingEnd = s.awaitingEnd ∧ t.engine = s.engine ∧
    t.ibufEpoch = s.ibufEpoch ∧ t.obufEpoch = s.obufEpoch

/-- 43_token_decoder.md R151, 42_token_encoder.md R121, R124: an engine step writes OBUF only at the indices its `olen`
passes, the header of a compress call included. -/
def Obligations.EngineOnlyAppendsToTheOutput : Prop :=
  ∀ s t, EngineInv s → s.acts = [] → step s = .next t →
    ∀ a, a < s.olen ∨ t.olen ≤ a → cellGet t.obuf a = cellGet s.obuf a

/-- 60_exceptions.md R198: FAILED and ERR stay until a START begins a call or RESET. -/
def Obligations.FailedIsSticky : Prop :=
  ∀ s t, StatusInv s → s.callState = .failed → step s = .next t →
    (t.callState = .failed ∧ t.err = s.err) ∨
    (∃ rest, s.acts = .writeReg 0 1 :: rest ∧ t.callState = .busy ∧ t.err = none) ∨
    ∃ rest, s.acts = .reset :: rest

/-- 70_reset_and_hazards.md R233: every running call ends. -/
def Obligations.EveryCallEnds : Prop :=
  ∀ s, EngineInv s → s.callState = .busy → ∃ k t, runSteps k { s with acts := [] } = .next t ∧
    (t.callState = .done ∨ t.callState = .failed)

/-- 60_exceptions.md R204, 10_state.md R38: a step of one engine leaves the others alone, and steps of two engines
commute. -/
def Obligations.EnginesAreIndependent : Prop :=
  ∀ (es a b : List State) (j k : Nat), j ≠ k → stepEngine j es = .next a → stepEngine k es = .next b →
    a[k]? = es[k]? ∧ ∃ c, stepEngine k a = .next c ∧ stepEngine j b = .next c

/-! ### The Match Finder -/

/-- 41_match_finder.md R102: the chains of the index after inserting `0 .. i-1`. -/
def Obligations.IndexHoldsTheChains : Prop :=
  ∀ (D : Nat → Byte) (n i h : Nat),
    chainFrom (indexOf D n i).prev (cellGet (indexOf D n i).head h) i =
      ((List.range i).reverse).filter fun p => decide (p + 3 ≤ n ∧ keyAt D p = h)

/-- 41_match_finder.md R103 to R106, R110: what `MF.FIND` answers, without the index: the longest match length among the
candidates, the nearest of equals, or `NoMatch` when none reaches the minimum or the tail is too short. -/
def Obligations.FindGivesTheBestCandidate : Prop :=
  ∀ (f : Fmt) (D : Nat → Byte) (n w i : Nat), i < n →
    match mfFind f.spec D n w i (indexOf D n i) with
    | some (off, len) =>
      f.spec.minLen ≤ n - i ∧ f.spec.minLen ≤ len ∧
      ∃ j ∈ candidates D w i, off = i - j ∧ IsMatchLen D j i (min f.spec.maxLen (n - i)) len ∧
        ∀ j' ∈ candidates D w i, ∀ k, IsMatchLen D j' i (min f.spec.maxLen (n - i)) k → k < len ∨ (k = len ∧ j' ≤ j)
    | none =>
      n - i < f.spec.minLen ∨
      ∀ j ∈ candidates D w i, ∀ k, IsMatchLen D j i (min f.spec.maxLen (n - i)) k → k < f.spec.minLen

/-- 41_match_finder.md R111. -/
def Obligations.FoundMatchFitsItsToken : Prop :=
  ∀ (f : Fmt) (D : Nat → Byte) (n w i off len : Nat), i < n → 1 ≤ w → w ≤ f.spec.winMax →
    mfFind f.spec D n w i (indexOf D n i) = some (off, len) →
    1 ≤ off ∧ off ≤ w ∧ off ≤ i ∧ f.spec.minLen ≤ len ∧ len ≤ min f.spec.maxLen (n - i) ∧
    (∀ t < len, D (i - off + t) = D (i + t)) ∧ (matchOf f off len).wellFormed = true

/-- 41_match_finder.md R112, 70_reset_and_hazards.md R230: at one cursor a larger window has the smaller's candidates
first, and finds at least as long a match. -/
def Obligations.LargerWindowFindsNoShorter : Prop :=
  ∀ (f : Fmt) (D : Nat → Byte) (n w w' i : Nat), i < n → w ≤ w' →
    candidates D w i <+: candidates D w' i ∧
    ∀ off len, mfFind f.spec D n w i (indexOf D n i) = some (off, len) →
      ∃ off' len', mfFind f.spec D n w' i (indexOf D n i) = some (off', len') ∧ len ≤ len'

/-! ### Whole calls -/

/-- 44_codec_commands.md R172, R173, R176, 42_token_encoder.md R129: a compress call computes its function; the fast
command the same with window 1024. -/
def Obligations.CompressComputesItsFunction : Prop :=
  ∀ (f : Fmt) (data : List Byte) (s : State), Loaded data s → data.length ≤ 3817748702 →
    CallComputes .compress f s (compressSpec f data s.windowSize.toNat) ∧
    CallComputes .compressFast f s (compressSpec f data 1024)

/-- 44_codec_commands.md R174, R176, 43_token_decoder.md R149, R150: a decompress call computes its function, on every
stream, good or bad. -/
def Obligations.DecompressComputesItsFunction : Prop :=
  ∀ (f : Fmt) (stream : List Byte) (s : State), Loaded stream s →
    CallComputes .decompress f s (decompressSpec f stream)

/-- 70_reset_and_hazards.md R228: decompressing what a compress call left in OBUF gives the data back; COMPRESS_FAST does not
read WINDOW_SIZE (44_codec_commands.md R173). -/
def Obligations.DecompressInvertsCompress : Prop :=
  ∀ (f : Fmt) (data : List Byte) (op : Op) (s : State), Loaded data s → data.length ≤ 3817748702 → op ≠ .decompress →
    (op = .compress → 1 ≤ s.windowSize.toNat ∧ s.windowSize.toNat ≤ f.spec.winMax) →
    ∃ stream, CallComputes op f s (.ok stream) ∧
      ∀ u, Loaded stream u → CallComputes .decompress f u (.ok data)

/-- 60_exceptions.md R201, 42_token_encoder.md R131: a compress call with a good window ends in DONE, within the size
bound. -/
def Obligations.CompressCannotFailAndIsBounded : Prop :=
  ∀ (f : Fmt) (op : Op) (s : State), op ≠ .decompress → s.inLen.toNat ≤ 3817748702 →
    (op = .compress → 1 ≤ s.windowSize.toNat ∧ s.windowSize.toNat ≤ f.spec.winMax) →
    ∃ k t, runSteps k (beginCall op f { s with acts := [] }) = .next t ∧ t.callState = .done ∧ t.err = none ∧
      t.outLen.toNat ≤ 5 + (9 * s.inLen.toNat + 7) / 8

/-- 10_state.md R35, 70_reset_and_hazards.md R229: the result of a call depends on the operands alone: two engines, whatever
earlier calls left in their working registers, index and OBUF, end the same call the same way. Only COMPRESS has
WINDOW_SIZE among its operands (44_codec_commands.md R172 to R174). -/
def Obligations.EarlierCallsDoNotInfluence : Prop :=
  ∀ (op : Op) (f : Fmt) (s u : State) (result : Except ErrKind (List Byte)),
    s.inLen = u.inLen → (op = .compress → s.windowSize = u.windowSize) →
    (op ≠ .decompress → s.inLen.toNat ≤ 3817748702) →
    (∀ a < s.inLen.toNat, ibufByte s a = ibufByte u a) →
    CallComputes op f s result → CallComputes op f u result

/-- 70_reset_and_hazards.md R232: a truncated stream, or one whose length field was changed, makes decompress fail. -/
def Obligations.DamagedStreamsAreRejected : Prop :=
  ∀ (f : Fmt) (data : List Byte) (w : Nat) (s : State), data.length ≤ 3817748702 → 1 ≤ w → w ≤ f.spec.winMax →
    (∀ m, m < (streamOf f data.length (tokensOf f.spec data w)).length →
      Loaded ((streamOf f data.length (tokensOf f.spec data w)).take m) s →
      ∃ e, (e = .malformedStream ∨ e = .lengthMismatch) ∧ CallComputes .decompress f s (.error e)) ∧
    (∀ n' : Word, n'.toNat ≠ data.length →
      Loaded (hdrBytes f n' ++ (streamOf f data.length (tokensOf f.spec data w)).drop 5) s →
      ∃ e, (e = .malformedStream ∨ e = .lengthMismatch) ∧ CallComputes .decompress f s (.error e))
end

