-- ==== Sys2Proof/Laws/Cells.lean ====
section
/-! SUPPORT. Laws of the (key, value) lists that hold buffers and index tables: read after write, and the canonical form
is kept. -/

namespace Sys2Proof.Machine

variable {α : Type}

@[simp] theorem cellGet_nil (k : Nat) : cellGet ([] : List (Nat × α)) k = none := rfl

theorem cellGet_cellSet_same (m : List (Nat × α)) (k : Nat) (v : α) : cellGet (cellSet m k v) k = some v := by
  induction m with
  | nil => simp [cellSet, cellGet]
  | cons p rest ih =>
    obtain ⟨a, u⟩ := p
    simp only [cellSet]
    split
    · rw [cellGet, if_neg (by omega), ih]
    · split <;> simp [cellGet]

theorem cellGet_cellSet_other (m : List (Nat × α)) {k b : Nat} (v : α) (h : b ≠ k) :
    cellGet (cellSet m k v) b = cellGet m b := by
  induction m with
  | nil => simp [cellSet, cellGet, Ne.symm h]
  | cons p rest ih =>
    obtain ⟨a, u⟩ := p
    simp only [cellSet]
    split
    · simp only [cellGet, ih]
    · split
      · subst_vars; simp [cellGet, Ne.symm h]
      · simp [cellGet, Ne.symm h]

theorem cellGet_cellSet (m : List (Nat × α)) (k b : Nat) (v : α) :
    cellGet (cellSet m k v) b = if b = k then some v else cellGet m b := by
  split
  · next h => rw [h, cellGet_cellSet_same]
  · next h => exact cellGet_cellSet_other m v h

/-- Every key of a list is at least a bound. -/
def KeysFrom (b : Nat) (m : List (Nat × α)) : Prop := ∀ p ∈ m, b ≤ p.1

theorem cellsWf_cons (a : Nat) (u : α) (rest : List (Nat × α)) :
    cellsWf ((a, u) :: rest) = true ↔ KeysFrom (a + 1) rest ∧ cellsWf rest = true := by
  induction rest generalizing a u with
  | nil => simp [cellsWf, KeysFrom]
  | cons p rest ih =>
    obtain ⟨b, w⟩ := p
    have hb := ih b w
    rw [cellsWf]
    simp only [Bool.and_eq_true, decide_eq_true_eq]
    constructor
    · rintro ⟨hlt, hwf⟩
      refine ⟨fun q hq => ?_, hwf⟩
      rcases List.mem_cons.1 hq with rfl | hq
      · exact hlt
      · have := (hb.1 hwf).1 q hq; omega
    · rintro ⟨hk, hwf⟩
      exact ⟨hk (b, w) (by simp), hwf⟩

theorem keysFrom_cellSet {b : Nat} {m : List (Nat × α)} (h : KeysFrom b m) (k : Nat) (hk : b ≤ k) (v : α) :
    KeysFrom b (cellSet m k v) := by
  induction m with
  | nil => intro p hp; simp [cellSet] at hp; subst hp; exact hk
  | cons q rest ih =>
    obtain ⟨a, u⟩ := q
    have hr : KeysFrom b rest := fun p hp => h p (by simp [hp])
    have ha : b ≤ a := h (a, u) (by simp)
    intro p hp
    simp only [cellSet] at hp
    split at hp
    · rcases List.mem_cons.1 hp with rfl | hp
      · exact ha
      · exact ih hr p hp
    · split at hp
      · rcases List.mem_cons.1 hp with rfl | hp
        · exact hk
        · exact hr p hp
      · rcases List.mem_cons.1 hp with rfl | hp
        · exact hk
        · exact h p hp

theorem cellsWf_cellSet {m : List (Nat × α)} (h : cellsWf m = true) (k : Nat) (v : α) :
    cellsWf (cellSet m k v) = true := by
  induction m with
  | nil => simp [cellSet, cellsWf]
  | cons q rest ih =>
    obtain ⟨a, u⟩ := q
    obtain ⟨hk, hwf⟩ := (cellsWf_cons a u rest).1 h
    simp only [cellSet]
    split
    · exact (cellsWf_cons _ _ _).2 ⟨keysFrom_cellSet hk k (by omega) v, ih hwf⟩
    · split
      · subst_vars; exact (cellsWf_cons _ _ _).2 ⟨hk, hwf⟩
      · refine (cellsWf_cons _ _ _).2 ⟨fun p hp => ?_, h⟩
        rcases List.mem_cons.1 hp with rfl | hp
        · show k + 1 ≤ a; omega
        · have := hk p hp; omega

theorem keysFrom_cellErase {b : Nat} {m : List (Nat × α)} (h : KeysFrom b m) (k : Nat) : KeysFrom b (cellErase m k) := by
  induction m with
  | nil => simpa [cellErase] using h
  | cons q rest ih =>
    obtain ⟨a, u⟩ := q
    have hr : KeysFrom b rest := fun p hp => h p (by simp [hp])
    simp only [cellErase]
    split
    · exact hr
    · intro p hp
      rcases List.mem_cons.1 hp with rfl | hp
      · exact h (a, u) (by simp)
      · exact ih hr p hp

theorem cellsWf_cellErase {m : List (Nat × α)} (h : cellsWf m = true) (k : Nat) : cellsWf (cellErase m k) = true := by
  induction m with
  | nil => simp [cellErase, cellsWf]
  | cons q rest ih =>
    obtain ⟨a, u⟩ := q
    obtain ⟨hk, hwf⟩ := (cellsWf_cons a u rest).1 h
    simp only [cellErase]
    split
    · exact hwf
    · exact (cellsWf_cons _ _ _).2 ⟨keysFrom_cellErase hk k, ih hwf⟩

theorem cellGet_none_of_keysFrom {b k : Nat} {m : List (Nat × α)} (h : KeysFrom b m) (hk : k < b) :
    cellGet m k = none := by
  induction m with
  | nil => rfl
  | cons q rest ih =>
    obtain ⟨a, u⟩ := q
    have ha : b ≤ a := h (a, u) (by simp)
    rw [cellGet, if_neg (by omega)]
    exact ih fun p hp => h p (by simp [hp])

theorem cellGet_cellErase {m : List (Nat × α)} (h : cellsWf m = true) (k b : Nat) :
    cellGet (cellErase m k) b = if b = k then none else cellGet m b := by
  induction m with
  | nil => simp [cellErase]
  | cons q rest ih =>
    obtain ⟨a, u⟩ := q
    obtain ⟨hk, hwf⟩ := (cellsWf_cons a u rest).1 h
    simp only [cellErase]
    split
    · next hak =>
      subst hak
      split
      · next hb => subst hb; exact cellGet_none_of_keysFrom hk (by omega)
      · next hb => rw [cellGet, if_neg (Ne.symm hb)]
    · next hak =>
      simp only [cellGet, ih hwf]
      split
      · next hab => rw [if_neg (by omega)]
      · rfl

theorem cellsWf_tableSet {t : Table} (h : cellsWf t = true) (k : Nat) (v : Option Nat) :
    cellsWf (tableSet t k v) = true := by
  cases v with
  | none => exact cellsWf_cellErase h k
  | some p => exact cellsWf_cellSet h k p

theorem cellGet_tableSet {t : Table} (h : cellsWf t = true) (k : Nat) (v : Option Nat) (b : Nat) :
    cellGet (tableSet t k v) b = if b = k then v else cellGet t b := by
  cases v with
  | none => exact cellGet_cellErase h k b
  | some p => exact cellGet_cellSet t k b p

/-- Two canonical lists that give the same value for every key are the same list. -/
theorem cells_ext {m m' : List (Nat × α)} (h : cellsWf m = true) (h' : cellsWf m' = true)
    (he : ∀ k, cellGet m k = cellGet m' k) : m = m' := by
  induction m generalizing m' with
  | nil =>
    cases m' with
    | nil => rfl
    | cons q rest => have := he q.1; simp [cellGet] at this
  | cons p rest ih =>
    obtain ⟨a, u⟩ := p
    obtain ⟨hk, hwf⟩ := (cellsWf_cons a u rest).1 h
    cases m' with
    | nil => have := he a; simp [cellGet] at this
    | cons q rest' =>
      obtain ⟨b, w⟩ := q
      obtain ⟨hk', hwf'⟩ := (cellsWf_cons b w rest').1 h'
      have hab : a = b := by
        rcases Nat.lt_trichotomy a b with hlt | heq | hgt
        · have := he a
          rw [cellGet, if_pos rfl, cellGet, if_neg (by omega), cellGet_none_of_keysFrom hk' (by omega)] at this
          cases this
        · exact heq
        · have := he b
          rw [cellGet, if_neg (by omega), cellGet_none_of_keysFrom hk (by omega), cellGet, if_pos rfl] at this
          cases this
      subst hab
      have huw : u = w := by have := he a; simpa [cellGet] using this
      subst huw
      congr 1
      refine ih hwf hwf' fun k => ?_
      by_cases hka : a = k
      · subst hka
        rw [cellGet_none_of_keysFrom hk (by omega), cellGet_none_of_keysFrom hk' (by omega)]
      · have := he k; simpa [cellGet, hka] using this

/-! Buffers. -/

theorem memWrite_wf {m : Mem} (h : Mem.wf m = true) (a : Nat) (v : Byte) : Mem.wf (memWrite m a v) = true :=
  cellsWf_cellSet h a v

theorem cellGet_memWrite (m : Mem) (a b : Nat) (v : Byte) :
    cellGet (memWrite m a v) b = if b = a then some v else cellGet m b := cellGet_cellSet m a b v

end Sys2Proof.Machine
end

