-- ==== Sys2Proof/Laws/MatchFinder.lean ====
section
/-! SUPPORT. What the Match Finder can do: the measure of a candidate, the bounds of an answer, the index tables
(41_match_finder.md R104 to R107). -/

namespace Sys2Proof.Machine

theorem extendMatch_spec (D : Nat → Byte) (j i k fuel : Nat) (h : ∀ t < k, D (j + t) = D (i + t)) :
    IsMatchLen D j i (k + fuel) (extendMatch D j i k fuel) := by
  induction fuel generalizing k with
  | zero => exact ⟨by simp [extendMatch], h, by simp [extendMatch]⟩
  | succ fuel ih =>
    rw [extendMatch]
    split
    · next he =>
      have := ih (k + 1) fun t ht => by
        rcases Nat.lt_succ_iff_lt_or_eq.1 ht with h1 | h1
        · exact h t h1
        · rw [h1]; exact he
      rwa [show k + 1 + fuel = k + (fuel + 1) by omega] at this
    · next he => exact ⟨by omega, h, fun _ => he⟩

/-- `matchLen` is `mlen` (41_match_finder.md R104). -/
theorem matchLen_spec (D : Nat → Byte) (j i limit : Nat) : IsMatchLen D j i limit (matchLen D j i limit) := by
  have := extendMatch_spec D j i 0 limit (by simp)
  rwa [Nat.zero_add] at this

theorem matchLen_unique {D : Nat → Byte} {j i limit k k' : Nat} (h : IsMatchLen D j i limit k)
    (h' : IsMatchLen D j i limit k') : k = k' := by
  obtain ⟨h1, h2, h3⟩ := h
  obtain ⟨h1', h2', h3'⟩ := h'
  rcases Nat.lt_trichotomy k k' with hlt | heq | hgt
  · exact absurd (h2' k hlt) (h3 (by omega))
  · exact heq
  · exact absurd (h2 k' hgt) (h3' (by omega))

theorem matchLen_le (D : Nat → Byte) (j i limit : Nat) : matchLen D j i limit ≤ limit := (matchLen_spec D j i limit).1

/-- What a chain walk answers: a measure within the limit and an offset within the window, or what it began with. -/
theorem walkChain_bounds (D : Nat → Byte) (prev : Table) (w i limit : Nat) (j : Option Nat) (best : Best) (probes : Nat)
    (hl : best.len ≤ limit) (ho : best.off ≤ w) :
    (walkChain D prev w i limit j best probes).len ≤ limit ∧ (walkChain D prev w i limit j best probes).off ≤ w := by
  induction probes generalizing j best with
  | zero => exact ⟨hl, ho⟩
  | succ probes ih =>
    cases j with
    | none => exact ⟨hl, ho⟩
    | some j =>
      rw [walkChain]
      split
      · next hw =>
        apply ih
        · split
          · exact matchLen_le D j i limit
          · exact hl
        · split
          · exact hw
          · exact ho
      · exact ⟨hl, ho⟩

/-- The bounds of a match found, whatever the index holds. -/
theorem mfFind_bounds {F : FormatSpec} {D : Nat → Byte} {n w i : Nat} {x : Index} {off len : Nat}
    (h : mfFind F D n w i x = some (off, len)) :
    F.minLen ≤ len ∧ len ≤ F.maxLen ∧ len ≤ n - i ∧ off ≤ w := by
  unfold mfFind mfFindWith at h
  split at h
  · cases h
  · simp only at h
    split at h
    · next hge =>
      have hb := walkChain_bounds D x.prev w i (min F.maxLen (n - i)) (cellGet x.head (keyAt D i)) { len := 0, off := 0 }
        Config.maxProbes (Nat.zero_le _) (Nat.zero_le _)
      simp only [Option.some.injEq, Prod.mk.injEq] at h
      obtain ⟨rfl, rfl⟩ := h
      exact ⟨hge, hb.1.trans (min_le_left _ _), hb.1.trans (min_le_right _ _), hb.2⟩
    · cases h

theorem mfInsertRange_add (D : Nat → Byte) (n p a b : Nat) (x : Index) :
    mfInsertRange D n p (a + b) x = mfInsertRange D n (p + a) b (mfInsertRange D n p a x) := by
  induction a generalizing p x with
  | zero => simp [mfInsertRange]
  | succ a ih =>
    rw [show a + 1 + b = (a + b) + 1 by omega, mfInsertRange, mfInsertRange, ih, show p + 1 + a = p + (a + 1) by omega]

theorem mfInsert_wf (D : Nat → Byte) (n p : Nat) {x : Index} (h : cellsWf x.head = true ∧ cellsWf x.prev = true) :
    cellsWf (mfInsert D n p x).head = true ∧ cellsWf (mfInsert D n p x).prev = true := by
  unfold mfInsert
  split
  · exact ⟨cellsWf_cellSet h.1 _ _, cellsWf_tableSet h.2 _ _⟩
  · exact h

theorem mfInsertRange_wf (D : Nat → Byte) (n p count : Nat) {x : Index}
    (h : cellsWf x.head = true ∧ cellsWf x.prev = true) :
    cellsWf (mfInsertRange D n p count x).head = true ∧ cellsWf (mfInsertRange D n p count x).prev = true := by
  induction count generalizing p x with
  | zero => exact h
  | succ count ih => exact ih (p + 1) (mfInsert_wf D n p h)

end Sys2Proof.Machine
end

