-- ==== Sys2Proof/Laws/Packer.lean ====
section
/-! SUPPORT. What the bit packer can do: counting, placing, and leaving alone (42_token_encoder.md R121 to R126). -/

namespace Sys2Proof.Machine

/-- `q` is `p` after putting `k` bits, as far as counts and places go. -/
structure Packer.Grew (p q : Packer) (k : Nat) : Prop where
  nacc : q.nacc ≤ 7
  count : 8 * q.olen + q.nacc = 8 * p.olen + p.nacc + k
  olen : p.olen ≤ q.olen
  wf : Mem.wf p.obuf = true → Mem.wf q.obuf = true
  outside : ∀ a, a < p.olen ∨ q.olen ≤ a → cellGet q.obuf a = cellGet p.obuf a
  written : ∀ a, p.olen ≤ a → a < q.olen → (cellGet q.obuf a).isSome = true

theorem Packer.Grew.refl {p : Packer} (h : p.nacc ≤ 7) : p.Grew p 0 :=
  ⟨h, rfl, le_refl _, id, fun _ _ => rfl, fun a h1 h2 => by omega⟩

theorem Packer.Grew.trans {p q r : Packer} {j k : Nat} (h1 : p.Grew q j) (h2 : q.Grew r k) : p.Grew r (j + k) where
  nacc := h2.nacc
  count := by rw [h2.count, h1.count, Nat.add_assoc]
  olen := h1.olen.trans h2.olen
  wf := fun h => h2.wf (h1.wf h)
  outside := fun a ha => by
    have o1 := h1.olen
    have o2 := h2.olen
    rw [h2.outside a (by omega), h1.outside a (by omega)]
  written := fun a ha hb => by
    by_cases h : q.olen ≤ a
    · exact h2.written a h hb
    · rw [h2.outside a (by omega)]; exact h1.written a ha (by omega)

theorem emitAcc_grew (acc : Byte) (p : Packer) (h : p.nacc = 7) : p.Grew (emitAcc acc p) 1 where
  nacc := by simp [emitAcc]
  count := by simp [emitAcc]; omega
  olen := by simp [emitAcc]
  wf := fun hw => memWrite_wf hw _ _
  outside := fun a ha => by
    simp only [emitAcc] at ha ⊢
    rw [cellGet_memWrite, if_neg (by omega)]
  written := fun a h1 h2 => by
    simp only [emitAcc] at h2 ⊢
    rw [cellGet_memWrite, if_pos (by omega)]; rfl

theorem putBit_grew (o : BitOrder) (b : Bool) (p : Packer) (h : p.nacc ≤ 7) : p.Grew (putBit o b p) 1 := by
  unfold putBit
  simp only
  split
  · next h7 => exact emitAcc_grew _ p h7
  · next h7 =>
    exact ⟨by simp; omega, by simp; omega, le_refl _, id, fun _ _ => rfl, fun a h1 h2 => by simp at h2; omega⟩

theorem putBits_grew (o : BitOrder) (bits : List Bool) (p : Packer) (h : p.nacc ≤ 7) :
    p.Grew (putBits o bits p) bits.length := by
  induction bits generalizing p with
  | nil => exact Packer.Grew.refl h
  | cons b rest ih =>
    have h1 := putBit_grew o b p h
    have h2 := ih (putBit o b p) h1.nacc
    rw [List.length_cons, Nat.add_comm]
    exact h1.trans h2

theorem putBits_append (o : BitOrder) (xs ys : List Bool) (p : Packer) :
    putBits o (xs ++ ys) p = putBits o ys (putBits o xs p) := by
  induction xs generalizing p with
  | nil => rfl
  | cons b rest ih => exact ih _

@[simp] theorem fieldBits_length (o : BitOrder) (W v : Nat) : (fieldBits o W v).length = W := by
  cases o <;> simp [fieldBits]

@[simp] theorem fieldBits_flag (o : BitOrder) (b : Bool) : fieldBits o 1 b.toNat = [b] := by
  cases o <;> cases b <;> rfl

@[simp] theorem litBits_length (f : Fmt) (byte : Byte) : (litBits f byte).length = 9 := by simp [litBits]

@[simp] theorem matchBits_length (f : Fmt) (offset length : Nat) :
    (matchBits f offset length).length = f.spec.matchBits := by
  simp [matchBits, FormatSpec.matchBits]; omega

/-- `TE.LIT` puts the bits of the encoding of `LIT` (42_token_encoder.md R125, 30_encoding.md R76). -/
theorem teLit_eq (f : Fmt) (byte : Byte) (p : Packer) : teLit f byte p = putBits f.spec.order (litBits f byte) p := by
  rw [litBits, ← List.singleton_append, putBits_append, teLit, putField, putField, fieldBits_flag]

/-- `TE.MATCH` puts the bits of the encoding of `MATCH` (42_token_encoder.md R126, 30_encoding.md R77). -/
theorem teMatch_eq (f : Fmt) (offset length : Nat) (p : Packer) :
    teMatch f offset length p = putBits f.spec.order (matchBits f offset length) p := by
  rw [matchBits, ← List.singleton_append, putBits_append, putBits_append, teMatch, putField, putField, putField,
    fieldBits_flag]

theorem flush_cases (p : Packer) :
    (p.nacc = 0 ∧ flush p = p) ∨ (0 < p.nacc ∧ flush p = emitAcc p.acc p) := by
  unfold flush
  split
  · exact .inr ⟨by omega, rfl⟩
  · exact .inl ⟨by omega, rfl⟩

theorem memWriteBytes_wf {m : Mem} (h : Mem.wf m = true) (a : Nat) (bytes : List Byte) :
    Mem.wf (memWriteBytes m a bytes) = true := by
  induction bytes generalizing m a with
  | nil => exact h
  | cons b rest ih => exact ih (memWrite_wf h a b) (a + 1)

theorem cellGet_memWriteBytes (m : Mem) (a : Nat) (bytes : List Byte) (b : Nat) :
    cellGet (memWriteBytes m a bytes) b = if a ≤ b ∧ b < a + bytes.length then bytes[b - a]? else cellGet m b := by
  induction bytes generalizing m a with
  | nil =>
    rw [memWriteBytes, if_neg]
    simp
  | cons x rest ih =>
    rw [memWriteBytes, ih, cellGet_memWrite]
    by_cases hb : b = a
    · subst hb; simp
    · by_cases hc : a ≤ b ∧ b < a + (x :: rest).length
      · obtain ⟨c, rfl⟩ : ∃ c, b = a + 1 + c := ⟨b - (a + 1), by omega⟩
        simp only [List.length_cons] at hc
        rw [if_pos (by omega), if_pos (by simp; omega)]
        have h1 : a + 1 + c - (a + 1) = c := by omega
        have h2 : a + 1 + c - a = c + 1 := by omega
        rw [h1, h2, List.getElem?_cons_succ]
      · simp only [List.length_cons] at hc
        rw [if_neg (by omega), if_neg hb, if_neg (by simp; omega)]

/-- Stream bit `k` as the packer holds it, `d` giving the bytes OBUF does not list. -/
def Packer.bit (o : BitOrder) (d : Nat → Byte) (p : Packer) (k : Nat) : Bool :=
  if 5 + k / 8 < p.olen then bitOfByte o ((cellGet p.obuf (5 + k / 8)).getD (d (5 + k / 8))) k
  else p.acc.getLsbD (bitPlace o k)

/-- The unused bit places of `acc` are 0 (42_token_encoder.md R121). -/
def Packer.Clean (o : BitOrder) (p : Packer) : Prop :=
  ∀ k, p.nacc ≤ k → k < 8 → p.acc.getLsbD (bitPlace o k) = false

theorem bitPlace_mod (o : BitOrder) (k : Nat) : bitPlace o (k % 8) = bitPlace o k := by
  cases o <;> simp [bitPlace]

theorem bitPlace_lt (o : BitOrder) (k : Nat) : bitPlace o k < 8 := by
  cases o <;> simp [bitPlace] <;> omega

theorem bitPlace_inj {o : BitOrder} {j k : Nat} (h : bitPlace o j = bitPlace o k) : j % 8 = k % 8 := by
  cases o <;> simp [bitPlace] at h <;> omega

theorem putBit_acc (o : BitOrder) (b : Bool) (p : Packer) (h : p.nacc ≤ 7) :
    ∃ acc : Byte, (putBit o b p = if p.nacc = 7 then emitAcc acc p else { p with acc := acc, nacc := p.nacc + 1 }) ∧
      ∀ t < 8, acc.getLsbD t = (p.acc.getLsbD t || (b && decide (t = bitPlace o p.nacc))) := by
  cases o with
  | msbFirst =>
    refine ⟨p.acc ||| (BitVec.ofNat 8 b.toNat <<< (7 - p.nacc)), rfl, fun t ht => ?_⟩
    have hm : p.nacc % 8 = p.nacc := by omega
    simp only [bitPlace, hm, BitVec.getLsbD_or, BitVec.getLsbD_shiftLeft, ht, decide_true, Bool.true_and]
    congr 1
    cases b
    · simp
    · by_cases h2 : t = 7 - p.nacc
      · subst h2; simp
      · by_cases h3 : t < 7 - p.nacc
        · simp [h3, h2]
        · have : t - (7 - p.nacc) ≠ 0 := by omega
          simp [h2, BitVec.getLsbD_one, this]
  | lsbFirst =>
    refine ⟨p.acc ||| (BitVec.ofNat 8 b.toNat <<< p.nacc), rfl, fun t ht => ?_⟩
    have hm : p.nacc % 8 = p.nacc := by omega
    simp only [bitPlace, hm, BitVec.getLsbD_or, BitVec.getLsbD_shiftLeft, ht, decide_true, Bool.true_and]
    congr 1
    cases b
    · simp
    · by_cases h2 : t = p.nacc
      · subst h2; simp
      · by_cases h3 : t < p.nacc
        · simp [h3, h2]
        · have : t - p.nacc ≠ 0 := by omega
          simp [h2, BitVec.getLsbD_one, this]

/-- One bit put: the bits before it stay, it is the next, and `acc` stays clean (42_token_encoder.md R121, 30_encoding.md
R74). -/
theorem putBit_places (o : BitOrder) (d : Nat → Byte) (b : Bool) (p : Packer) (h : p.nacc ≤ 7) (h5 : 5 ≤ p.olen)
    (hc : p.Clean o) :
    (putBit o b p).Clean o ∧
    (∀ k < 8 * (p.olen - 5) + p.nacc, (putBit o b p).bit o d k = p.bit o d k) ∧
    (putBit o b p).bit o d (8 * (p.olen - 5) + p.nacc) = b := by
  obtain ⟨acc, he, ha⟩ := putBit_acc o b p h
  have hnew : acc.getLsbD (bitPlace o p.nacc) = b := by
    rw [ha _ (bitPlace_lt _ _), hc p.nacc (le_refl _) (by omega)]; simp
  have hold : ∀ k, k % 8 ≠ p.nacc → acc.getLsbD (bitPlace o k) = p.acc.getLsbD (bitPlace o k) := by
    intro k hk
    rw [ha _ (bitPlace_lt _ _)]
    have : bitPlace o k ≠ bitPlace o p.nacc := fun heq => hk (by have := bitPlace_inj heq; omega)
    simp [this]
  have hpos : bitPlace o (8 * (p.olen - 5) + p.nacc) = bitPlace o p.nacc := by
    rw [← bitPlace_mod o (8 * (p.olen - 5) + p.nacc)]
    have : (8 * (p.olen - 5) + p.nacc) % 8 = p.nacc := by omega
    rw [this]
  by_cases h7 : p.nacc = 7
  · rw [if_pos h7] at he
    rw [he]
    refine ⟨fun k h1 h2 => by simp [emitAcc], fun k hk => ?_, ?_⟩
    · simp only [Packer.bit, emitAcc, cellGet_memWrite]
      by_cases hlt : 5 + k / 8 < p.olen
      · rw [if_pos (by omega), if_pos hlt, if_neg (by omega)]
      · rw [if_pos (by omega), if_neg hlt, if_pos (by omega)]
        exact hold k (by omega)
    · simp only [Packer.bit, emitAcc, cellGet_memWrite]
      rw [if_pos (by omega), if_pos (by omega)]
      simp only [Option.getD_some, bitOfByte, hpos, hnew]
  · rw [if_neg h7] at he
    rw [he]
    refine ⟨fun k h1 h2 => ?_, fun k hk => ?_, ?_⟩
    · simp only at h1 ⊢
      rw [hold k (by omega)]
      exact hc k (by omega) h2
    · simp only [Packer.bit]
      by_cases hlt : 5 + k / 8 < p.olen
      · rw [if_pos hlt, if_pos hlt]
      · rw [if_neg hlt, if_neg hlt]
        exact hold k (by omega)
    · simp only [Packer.bit]
      rw [if_neg (by omega), hpos, hnew]

/-- Bits put: those before stay, the new ones follow in order, and `acc` stays clean. -/
theorem putBits_places (o : BitOrder) (d : Nat → Byte) (bits : List Bool) (p : Packer) (h : p.nacc ≤ 7) (h5 : 5 ≤ p.olen)
    (hc : p.Clean o) :
    (putBits o bits p).Clean o ∧
    (∀ k < 8 * (p.olen - 5) + p.nacc, (putBits o bits p).bit o d k = p.bit o d k) ∧
    ∀ k (hk : k < bits.length), (putBits o bits p).bit o d (8 * (p.olen - 5) + p.nacc + k) = bits[k] := by
  induction bits generalizing p with
  | nil => exact ⟨hc, fun _ _ => rfl, fun k hk => by simp at hk⟩
  | cons b rest ih =>
    obtain ⟨c1, o1, n1⟩ := putBit_places o d b p h h5 hc
    have g1 := putBit_grew o b p h
    have hcount := g1.count
    have holen := g1.olen
    obtain ⟨c2, o2, n2⟩ := ih (putBit o b p) g1.nacc (by omega) c1
    refine ⟨c2, fun k hk => ?_, fun k hk => ?_⟩
    · rw [putBits, o2 k (by omega), o1 k hk]
    · rw [putBits]
      cases k with
      | zero => rw [o2 _ (by omega), Nat.add_zero, n1]; rfl
      | succ k =>
        have := n2 k (by simpa using hk)
        rw [show 8 * (p.olen - 5) + p.nacc + (k + 1) = 8 * ((putBit o b p).olen - 5) + (putBit o b p).nacc + k by omega,
          this]
        simp

end Sys2Proof.Machine
end

