-- ==== Sys2Proof/Laws/Parser.lean ====
section
/-! SUPPORT. Fields and the decoders' answers: ranges, inverses, and what a decoded token is (30_encoding.md R75 to R78). -/

namespace Sys2Proof.Machine

theorem foldl_bits (bits : List Bool) (v : Nat) :
    bits.foldl (fun v b => 2 * v + b.toNat) v = v * 2 ^ bits.length + bits.foldl (fun v b => 2 * v + b.toNat) 0 := by
  induction bits generalizing v with
  | nil => simp
  | cons b rest ih =>
    rw [List.foldl_cons, List.foldl_cons, ih, ih (2 * 0 + b.toNat), List.length_cons, pow_succ]
    ring

theorem foldl_bits_lt (bits : List Bool) : bits.foldl (fun v b => 2 * v + b.toNat) 0 < 2 ^ bits.length := by
  induction bits with
  | nil => simp
  | cons b rest ih =>
    rw [List.foldl_cons, foldl_bits, List.length_cons, pow_succ]
    cases b <;> simp <;> omega

theorem foldr_bits_lt (bits : List Bool) : bits.foldr (fun b v => b.toNat + 2 * v) 0 < 2 ^ bits.length := by
  induction bits with
  | nil => simp
  | cons b rest ih =>
    rw [List.foldr_cons, List.length_cons, pow_succ]
    cases b <;> simp <;> omega

/-- A field's value fits its width (00_scope.md R10). -/
theorem fieldValue_lt (o : BitOrder) (bits : List Bool) : fieldValue o bits < 2 ^ bits.length := by
  cases o
  · exact foldl_bits_lt bits
  · exact foldr_bits_lt bits

theorem takeField_some {o : BitOrder} {W v : Nat} {bits rest : List Bool} (h : takeField o W bits = some (v, rest)) :
    W ≤ bits.length ∧ v = fieldValue o (bits.take W) ∧ rest = bits.drop W ∧ v < 2 ^ W := by
  unfold takeField at h
  split at h
  · cases h
  · next hlt =>
    simp only [Option.some.injEq, Prod.mk.injEq] at h
    obtain ⟨rfl, rfl⟩ := h
    refine ⟨by omega, rfl, rfl, ?_⟩
    have := fieldValue_lt o (bits.take W)
    rwa [List.length_take, min_eq_left (by omega)] at this

theorem takeField_none {o : BitOrder} {W : Nat} {bits : List Bool} : takeField o W bits = none ↔ bits.length < W := by
  unfold takeField
  split <;> simp <;> omega

@[simp] theorem streamBits_length (k : Nat) (s : State) : (streamBits k s).length = min k (s.tBits - s.c) := by
  simp [streamBits]

@[simp] theorem headerBytes_length (s : State) : (headerBytes s).length = min 5 s.n := by
  simp [headerBytes, Config.hdrLen]

/-- What a decoded token is: a literal whose 9 bits are there, or a match in range whose bits are there. -/
theorem decodeToken_ok {f : Fmt} {bits rest : List Bool} {i : Instr} (h : decodeToken f bits = .ok (i, rest)) :
    (∃ byte, i = litOf f byte ∧ 9 ≤ bits.length) ∨
    (∃ o l, i = matchOf f (o + 1) (l + f.spec.minLen) ∧ o < 2 ^ f.spec.offBits ∧ l < 2 ^ f.spec.lenBits ∧
      f.spec.matchBits ≤ bits.length) := by
  unfold decodeToken at h
  cases bits with
  | nil => cases h
  | cons flag bs =>
    simp only at h
    split at h
    · split at h
      · cases h
      · next v r ht =>
        simp only [Except.ok.injEq, Prod.mk.injEq] at h
        have := takeField_some ht
        exact .inl ⟨_, h.1.symm, by rw [List.length_cons]; omega⟩
    · split at h
      · cases h
      · next o r ht =>
        split at h
        · cases h
        · next l r' hl =>
          simp only [Except.ok.injEq, Prod.mk.injEq] at h
          obtain ⟨h1, -, h3, h4⟩ := takeField_some ht
          obtain ⟨g1, -, -, g4⟩ := takeField_some hl
          refine .inr ⟨o, l, h.1.symm, h4, g4, ?_⟩
          rw [List.length_cons, FormatSpec.matchBits]
          rw [h3, List.length_drop] at g1
          omega

/-- Why a token does not decode: no bit, or too few after its flag. -/
theorem decodeToken_error {f : Fmt} {bits : List Bool} {e : DecodeError} (h : decodeToken f bits = .error e) :
    (e = .exhausted ∧ bits.length = 0) ∨ (e = .litTruncated ∧ 1 ≤ bits.length) ∨ (e = .offTruncated ∧ 1 ≤ bits.length) ∨
    (∃ o, e = .lenTruncated o ∧ o < 2 ^ f.spec.offBits ∧ 1 + f.spec.offBits ≤ bits.length) := by
  unfold decodeToken at h
  cases bits with
  | nil => simp only [Except.error.injEq] at h; exact .inl ⟨h.symm, rfl⟩
  | cons flag bs =>
    simp only at h
    split at h
    · split at h
      · simp only [Except.error.injEq] at h
        exact .inr (.inl ⟨h.symm, by simp⟩)
      · cases h
    · split at h
      · simp only [Except.error.injEq] at h
        exact .inr (.inr (.inl ⟨h.symm, by simp⟩))
      · next o r ht =>
        split at h
        · simp only [Except.error.injEq] at h
          obtain ⟨h1, -, -, h4⟩ := takeField_some ht
          exact .inr (.inr (.inr ⟨o, h.symm, h4, by rw [List.length_cons]; omega⟩))
        · cases h

/-- What a decoded tail is. -/
theorem decodeTail_ok {f : Fmt} {bits : List Bool} {i : Instr} (h : decodeTail f bits = .ok i) :
    i = padOf f bits.length ∧ bits.length < 8 ∧ bits.any id = false := by
  unfold decodeTail at h
  split at h
  · cases h
  · split at h
    · cases h
    · next h8 hz =>
      simp only [Except.ok.injEq] at h
      exact ⟨h.symm, by omega, by simpa using hz⟩

/-- Why a tail is no `PAD`. -/
theorem decodeTail_error {f : Fmt} {bits : List Bool} {e : DecodeError} (h : decodeTail f bits = .error e) :
    (e = .wholeByteLeft ∧ 8 ≤ bits.length) ∨ (e = .nonZeroPadding ∧ bits.length < 8 ∧ bits.any id = true) := by
  unfold decodeTail at h
  split at h
  · next h8 => simp only [Except.error.injEq] at h; exact .inl ⟨h.symm, h8⟩
  · split at h
    · next h8 hz => simp only [Except.error.injEq] at h; exact .inr ⟨h.symm, by omega, hz⟩
    · cases h

/-- What a decoded header is. -/
theorem decodeHeader_ok {bytes : List Byte} {i : Instr} (h : decodeHeader bytes = .ok i) :
    ∃ f t b0 b1 b2 b3, bytes = [t, b0, b1, b2, b3] ∧ fmtOfTag t = some f ∧ i = hdrOf f (le32 b0 b1 b2 b3) := by
  unfold decodeHeader at h
  split at h
  · next t b0 b1 b2 b3 =>
    split at h
    · next f hf =>
      simp only [Except.ok.injEq] at h
      exact ⟨f, t, b0, b1, b2, b3, rfl, hf, h.symm⟩
    · cases h
  · cases h
  · cases h

/-- Why five bytes or fewer are no header. -/
theorem decodeHeader_error {bytes : List Byte} {e : DecodeError} (hl : bytes.length ≤ 5) (h : decodeHeader bytes = .error e) :
    e = .headerTruncated ∨ e = .unknownTag := by
  unfold decodeHeader at h
  split at h
  · split at h
    · cases h
    · simp only [Except.error.injEq] at h; exact .inr h.symm
  · simp at hl; omega
  · simp only [Except.error.injEq] at h; exact .inl h.symm

end Sys2Proof.Machine
end

