-- ==== Sys2Proof/Laws/PerInstr.lean ====
section
/-! SUPPORT. Per instruction: how wide its encoding is (30_encoding.md R71, R76, R77, R79, R83; 10_state.md R24). -/

namespace Sys2Proof.Laws.CodeWidth

/-- The width in bits of a piece of code. -/
def codeWidth : Code → Nat
  | .header bytes => 8 * bytes.length
  | .token _ bits => bits.length
  | .tail _ bits => bits.length
  | .cmd _ => 32
  | .ctrl _ => 32

/-- The width the tables of 30_encoding.md R72 and R83 give an instruction. -/
def rowWidth : Instr → Nat
  | .hdrLz80 _ => 40
  | .hdrLz01 _ => 40
  | .hdrLz03 _ => 40
  | .litLz80 _ => 9
  | .litLz01 _ => 9
  | .litLz03 _ => 9
  | .matchLz80 _ _ => 24
  | .matchLz01 _ _ => 17
  | .matchLz03 _ _ => 19
  | .padLz80 bits => bits
  | .padLz01 bits => bits
  | .padLz03 bits => bits
  | .compressLz80 => 32
  | .decompressLz80 => 32
  | .compressLz80Fast => 32
  | .compressLz01 => 32
  | .decompressLz01 => 32
  | .compressLz01Fast => 32
  | .compressLz03 => 32
  | .decompressLz03 => 32
  | .compressLz03Fast => 32
  | .start => 32

/-- A well-formed instruction's encoding is as wide as its row says. -/
def Statement (i : Instr) : Prop := i.wellFormed = true → codeWidth (encode i) = rowWidth i

theorem hdrLz80 (origLen : Word) : Statement (.hdrLz80 origLen) := fun _ => rfl

theorem hdrLz01 (origLen : Word) : Statement (.hdrLz01 origLen) := fun _ => rfl

theorem hdrLz03 (origLen : Word) : Statement (.hdrLz03 origLen) := fun _ => rfl

theorem litLz80 (byte : Byte) : Statement (.litLz80 byte) := fun _ => Machine.litBits_length _ _

theorem litLz01 (byte : Byte) : Statement (.litLz01 byte) := fun _ => Machine.litBits_length _ _

theorem litLz03 (byte : Byte) : Statement (.litLz03 byte) := fun _ => Machine.litBits_length _ _

theorem matchLz80 (offset length : Nat) : Statement (.matchLz80 offset length) := fun _ => Machine.matchBits_length _ _ _

theorem matchLz01 (offset length : Nat) : Statement (.matchLz01 offset length) := fun _ => Machine.matchBits_length _ _ _

theorem matchLz03 (offset length : Nat) : Statement (.matchLz03 offset length) := fun _ => Machine.matchBits_length _ _ _

theorem padLz80 (bits : Nat) : Statement (.padLz80 bits) := fun _ => List.length_replicate

theorem padLz01 (bits : Nat) : Statement (.padLz01 bits) := fun _ => List.length_replicate

theorem padLz03 (bits : Nat) : Statement (.padLz03 bits) := fun _ => List.length_replicate

theorem compressLz80 : Statement .compressLz80 := fun _ => rfl

theorem decompressLz80 : Statement .decompressLz80 := fun _ => rfl

theorem compressLz80Fast : Statement .compressLz80Fast := fun _ => rfl

theorem compressLz01 : Statement .compressLz01 := fun _ => rfl

theorem decompressLz01 : Statement .decompressLz01 := fun _ => rfl

theorem compressLz01Fast : Statement .compressLz01Fast := fun _ => rfl

theorem compressLz03 : Statement .compressLz03 := fun _ => rfl

theorem decompressLz03 : Statement .decompressLz03 := fun _ => rfl

theorem compressLz03Fast : Statement .compressLz03Fast := fun _ => rfl

theorem start : Statement .start := fun _ => rfl

end Sys2Proof.Laws.CodeWidth
end

