-- ==== Sys2Proof/Laws/Phases.lean ====
section
/-! SUPPORT. Which phase follows (10_state.md R34), and which parts of the invariant a phase leaves empty. -/

namespace Sys2Proof.Machine

theorem encodeHeader_phase (s : State) :
    ((encodeHeader s).phase = .cToken ∧ 0 < s.n) ∨ ((encodeHeader s).phase = .cFlush ∧ s.n = 0) := by
  by_cases h : 0 < s.n
  · exact .inl ⟨if_pos h, h⟩
  · exact .inr ⟨if_neg h, by omega⟩

theorem encodeAdvance_phase (p : Packer) (adv : Nat) (s : State) :
    ((encodeAdvance p adv s).phase = .cToken ∧ s.cur + adv < s.n) ∨
    ((encodeAdvance p adv s).phase = .cFlush ∧ s.n ≤ s.cur + adv) := by
  by_cases h : s.cur + adv < s.n
  · exact .inl ⟨if_pos h, h⟩
  · exact .inr ⟨if_neg h, by omega⟩

theorem decodeLoop_cases (s : State) :
    (decodeLoop s = .dToken ∧ s.olen < s.origLen) ∨ (decodeLoop s = .dTail ∧ s.origLen ≤ s.olen) := by
  by_cases h : s.olen < s.origLen
  · exact .inl ⟨if_pos h, h⟩
  · exact .inr ⟨if_neg h, by omega⟩

theorem copyByte_phase (s : State) :
    ((copyByte s).phase = .dToken ∧ s.rem - 1 = 0 ∧ s.olen + 1 < s.origLen) ∨
    ((copyByte s).phase = .dTail ∧ s.rem - 1 = 0 ∧ s.origLen ≤ s.olen + 1) ∨
    ((copyByte s).phase = .dCopy ∧ s.rem - 1 ≠ 0) := by
  by_cases h : s.rem - 1 = 0
  · by_cases h2 : s.olen + 1 < s.origLen
    · exact .inl ⟨by simp [copyByte, h, decodeLoop, h2], h, h2⟩
    · exact .inr (.inl ⟨by simp [copyByte, h, decodeLoop, h2], h, by omega⟩)
  · exact .inr (.inr ⟨by simp [copyByte, h], h⟩)

theorem encInv_of_phase {t : State}
    (h : t.phase ≠ .check ∧ t.phase ≠ .cHdr ∧ t.phase ≠ .cToken ∧ t.phase ≠ .cFlush) : EncInv t := by
  constructor <;> simp [encoding, h]

theorem decInv_of_phase {t : State} (h : t.phase ≠ .dToken ∧ t.phase ≠ .dCopy ∧ t.phase ≠ .dTail) : DecInv t := by
  constructor <;> simp [decoding, h]

theorem StatusInv.busy {s : State} (h : StatusInv s) (hp : s.phase ≠ .idle) : s.callState = .busy := by
  by_contra hc
  exact hp (h.idle_iff.2 hc)

/-- With no call running only the status, the ownership before the first START, the forms and the widths say anything. -/
theorem EngineInv.of_idle {t : State} (hp : t.phase = .idle) (ho : t.callState = .idle → t.awaitingEnd = false)
    (hs : StatusInv t) (hf : FormInv t) (hr : RegsFit t) : EngineInv t where
  status := hs
  latch := ⟨fun h => absurd h (hs.idle_iff.1 hp), fun h => absurd h (hs.idle_iff.1 hp),
    fun h => absurd h (hs.idle_iff.1 hp), fun h => absurd h (hs.idle_iff.1 hp), ho⟩
  form := hf
  fit := hr
  enc := encInv_of_phase (by simp [hp])
  dec := decInv_of_phase (by simp [hp])

end Sys2Proof.Machine
end

