-- ==== Sys2Proof/Laws/State.lean ====
section
/-! SUPPORT. One lemma per field per named update of the state, so that no later proof unfolds a record update. -/

namespace Sys2Proof.Machine

@[simp] theorem raise_cmd (e : ErrKind) (s : State) : (raise e s).cmd = s.cmd := rfl
@[simp] theorem raise_windowSize (e : ErrKind) (s : State) : (raise e s).windowSize = s.windowSize := rfl
@[simp] theorem raise_inLen (e : ErrKind) (s : State) : (raise e s).inLen = s.inLen := rfl
@[simp] theorem raise_outLen (e : ErrKind) (s : State) : (raise e s).outLen = 0 := rfl
@[simp] theorem raise_callState (e : ErrKind) (s : State) : (raise e s).callState = .failed := rfl
@[simp] theorem raise_err (e : ErrKind) (s : State) : (raise e s).err = some e := rfl
@[simp] theorem raise_ibuf (e : ErrKind) (s : State) : (raise e s).ibuf = s.ibuf := rfl
@[simp] theorem raise_obuf (e : ErrKind) (s : State) : (raise e s).obuf = s.obuf := rfl
@[simp] theorem raise_op (e : ErrKind) (s : State) : (raise e s).op = s.op := rfl
@[simp] theorem raise_fmt (e : ErrKind) (s : State) : (raise e s).fmt = s.fmt := rfl
@[simp] theorem raise_w (e : ErrKind) (s : State) : (raise e s).w = s.w := rfl
@[simp] theorem raise_n (e : ErrKind) (s : State) : (raise e s).n = s.n := rfl
@[simp] theorem raise_cur (e : ErrKind) (s : State) : (raise e s).cur = s.cur := rfl
@[simp] theorem raise_olen (e : ErrKind) (s : State) : (raise e s).olen = s.olen := rfl
@[simp] theorem raise_origLen (e : ErrKind) (s : State) : (raise e s).origLen = s.origLen := rfl
@[simp] theorem raise_c (e : ErrKind) (s : State) : (raise e s).c = s.c := rfl
@[simp] theorem raise_tBits (e : ErrKind) (s : State) : (raise e s).tBits = s.tBits := rfl
@[simp] theorem raise_acc (e : ErrKind) (s : State) : (raise e s).acc = s.acc := rfl
@[simp] theorem raise_nacc (e : ErrKind) (s : State) : (raise e s).nacc = s.nacc := rfl
@[simp] theorem raise_tKind (e : ErrKind) (s : State) : (raise e s).tKind = s.tKind := rfl
@[simp] theorem raise_tByte (e : ErrKind) (s : State) : (raise e s).tByte = s.tByte := rfl
@[simp] theorem raise_tOff (e : ErrKind) (s : State) : (raise e s).tOff = s.tOff := rfl
@[simp] theorem raise_tLen (e : ErrKind) (s : State) : (raise e s).tLen = s.tLen := rfl
@[simp] theorem raise_rd (e : ErrKind) (s : State) : (raise e s).rd = s.rd := rfl
@[simp] theorem raise_wr (e : ErrKind) (s : State) : (raise e s).wr = s.wr := rfl
@[simp] theorem raise_rem (e : ErrKind) (s : State) : (raise e s).rem = s.rem := rfl
@[simp] theorem raise_phase (e : ErrKind) (s : State) : (raise e s).phase = .idle := rfl
@[simp] theorem raise_head (e : ErrKind) (s : State) : (raise e s).head = s.head := rfl
@[simp] theorem raise_prev (e : ErrKind) (s : State) : (raise e s).prev = s.prev := rfl
@[simp] theorem raise_acts (e : ErrKind) (s : State) : (raise e s).acts = s.acts := rfl
@[simp] theorem raise_hostData (e : ErrKind) (s : State) : (raise e s).hostData = s.hostData := rfl
@[simp] theorem raise_awaitingEnd (e : ErrKind) (s : State) : (raise e s).awaitingEnd = s.awaitingEnd := rfl
@[simp] theorem raise_engine (e : ErrKind) (s : State) : (raise e s).engine = s.engine := rfl
@[simp] theorem raise_ibufEpoch (e : ErrKind) (s : State) : (raise e s).ibufEpoch = s.ibufEpoch := rfl
@[simp] theorem raise_obufEpoch (e : ErrKind) (s : State) : (raise e s).obufEpoch = s.obufEpoch := rfl

@[simp] theorem finish_cmd (s : State) : (finish s).cmd = s.cmd := rfl
@[simp] theorem finish_windowSize (s : State) : (finish s).windowSize = s.windowSize := rfl
@[simp] theorem finish_inLen (s : State) : (finish s).inLen = s.inLen := rfl
@[simp] theorem finish_outLen (s : State) : (finish s).outLen = BitVec.ofNat 32 s.olen := rfl
@[simp] theorem finish_callState (s : State) : (finish s).callState = .done := rfl
@[simp] theorem finish_err (s : State) : (finish s).err = s.err := rfl
@[simp] theorem finish_ibuf (s : State) : (finish s).ibuf = s.ibuf := rfl
@[simp] theorem finish_obuf (s : State) : (finish s).obuf = s.obuf := rfl
@[simp] theorem finish_op (s : State) : (finish s).op = s.op := rfl
@[simp] theorem finish_fmt (s : State) : (finish s).fmt = s.fmt := rfl
@[simp] theorem finish_w (s : State) : (finish s).w = s.w := rfl
@[simp] theorem finish_n (s : State) : (finish s).n = s.n := rfl
@[simp] theorem finish_cur (s : State) : (finish s).cur = s.cur := rfl
@[simp] theorem finish_olen (s : State) : (finish s).olen = s.olen := rfl
@[simp] theorem finish_origLen (s : State) : (finish s).origLen = s.origLen := rfl
@[simp] theorem finish_c (s : State) : (finish s).c = s.c := rfl
@[simp] theorem finish_tBits (s : State) : (finish s).tBits = s.tBits := rfl
@[simp] theorem finish_acc (s : State) : (finish s).acc = s.acc := rfl
@[simp] theorem finish_nacc (s : State) : (finish s).nacc = s.nacc := rfl
@[simp] theorem finish_tKind (s : State) : (finish s).tKind = s.tKind := rfl
@[simp] theorem finish_tByte (s : State) : (finish s).tByte = s.tByte := rfl
@[simp] theorem finish_tOff (s : State) : (finish s).tOff = s.tOff := rfl
@[simp] theorem finish_tLen (s : State) : (finish s).tLen = s.tLen := rfl
@[simp] theorem finish_rd (s : State) : (finish s).rd = s.rd := rfl
@[simp] theorem finish_wr (s : State) : (finish s).wr = s.wr := rfl
@[simp] theorem finish_rem (s : State) : (finish s).rem = s.rem := rfl
@[simp] theorem finish_phase (s : State) : (finish s).phase = .idle := rfl
@[simp] theorem finish_head (s : State) : (finish s).head = s.head := rfl
@[simp] theorem finish_prev (s : State) : (finish s).prev = s.prev := rfl
@[simp] theorem finish_acts (s : State) : (finish s).acts = s.acts := rfl
@[simp] theorem finish_hostData (s : State) : (finish s).hostData = s.hostData := rfl
@[simp] theorem finish_awaitingEnd (s : State) : (finish s).awaitingEnd = s.awaitingEnd := rfl
@[simp] theorem finish_engine (s : State) : (finish s).engine = s.engine := rfl
@[simp] theorem finish_ibufEpoch (s : State) : (finish s).ibufEpoch = s.ibufEpoch := rfl
@[simp] theorem finish_obufEpoch (s : State) : (finish s).obufEpoch = s.obufEpoch := rfl

@[simp] theorem beginCall_cmd (o : Op) (f : Fmt) (s : State) : (beginCall o f s).cmd = s.cmd := rfl
@[simp] theorem beginCall_windowSize (o : Op) (f : Fmt) (s : State) : (beginCall o f s).windowSize = s.windowSize := rfl
@[simp] theorem beginCall_inLen (o : Op) (f : Fmt) (s : State) : (beginCall o f s).inLen = s.inLen := rfl
@[simp] theorem beginCall_outLen (o : Op) (f : Fmt) (s : State) : (beginCall o f s).outLen = 0 := rfl
@[simp] theorem beginCall_callState (o : Op) (f : Fmt) (s : State) : (beginCall o f s).callState = .busy := rfl
@[simp] theorem beginCall_err (o : Op) (f : Fmt) (s : State) : (beginCall o f s).err = none := rfl
@[simp] theorem beginCall_ibuf (o : Op) (f : Fmt) (s : State) : (beginCall o f s).ibuf = s.ibuf := rfl
@[simp] theorem beginCall_obuf (o : Op) (f : Fmt) (s : State) : (beginCall o f s).obuf = s.obuf := rfl
@[simp] theorem beginCall_op (o : Op) (f : Fmt) (s : State) : (beginCall o f s).op = o := rfl
@[simp] theorem beginCall_fmt (o : Op) (f : Fmt) (s : State) : (beginCall o f s).fmt = f := rfl
@[simp] theorem beginCall_w (o : Op) (f : Fmt) (s : State) : (beginCall o f s).w = s.w := rfl
@[simp] theorem beginCall_n (o : Op) (f : Fmt) (s : State) : (beginCall o f s).n = s.inLen.toNat := rfl
@[simp] theorem beginCall_cur (o : Op) (f : Fmt) (s : State) : (beginCall o f s).cur = 0 := rfl
@[simp] theorem beginCall_olen (o : Op) (f : Fmt) (s : State) : (beginCall o f s).olen = 0 := rfl
@[simp] theorem beginCall_origLen (o : Op) (f : Fmt) (s : State) : (beginCall o f s).origLen = s.origLen := rfl
@[simp] theorem beginCall_c (o : Op) (f : Fmt) (s : State) : (beginCall o f s).c = 0 := rfl
@[simp] theorem beginCall_tBits (o : Op) (f : Fmt) (s : State) : (beginCall o f s).tBits = s.tBits := rfl
@[simp] theorem beginCall_acc (o : Op) (f : Fmt) (s : State) : (beginCall o f s).acc = 0 := rfl
@[simp] theorem beginCall_nacc (o : Op) (f : Fmt) (s : State) : (beginCall o f s).nacc = 0 := rfl
@[simp] theorem beginCall_tKind (o : Op) (f : Fmt) (s : State) : (beginCall o f s).tKind = s.tKind := rfl
@[simp] theorem beginCall_tByte (o : Op) (f : Fmt) (s : State) : (beginCall o f s).tByte = s.tByte := rfl
@[simp] theorem beginCall_tOff (o : Op) (f : Fmt) (s : State) : (beginCall o f s).tOff = s.tOff := rfl
@[simp] theorem beginCall_tLen (o : Op) (f : Fmt) (s : State) : (beginCall o f s).tLen = s.tLen := rfl
@[simp] theorem beginCall_rd (o : Op) (f : Fmt) (s : State) : (beginCall o f s).rd = s.rd := rfl
@[simp] theorem beginCall_wr (o : Op) (f : Fmt) (s : State) : (beginCall o f s).wr = s.wr := rfl
@[simp] theorem beginCall_rem (o : Op) (f : Fmt) (s : State) : (beginCall o f s).rem = 0 := rfl
@[simp] theorem beginCall_phase (o : Op) (f : Fmt) (s : State) : (beginCall o f s).phase = .check := rfl
@[simp] theorem beginCall_head (o : Op) (f : Fmt) (s : State) : (beginCall o f s).head = [] := rfl
@[simp] theorem beginCall_prev (o : Op) (f : Fmt) (s : State) : (beginCall o f s).prev = [] := rfl
@[simp] theorem beginCall_acts (o : Op) (f : Fmt) (s : State) : (beginCall o f s).acts = s.acts := rfl
@[simp] theorem beginCall_hostData (o : Op) (f : Fmt) (s : State) : (beginCall o f s).hostData = s.hostData := rfl
@[simp] theorem beginCall_awaitingEnd (o : Op) (f : Fmt) (s : State) : (beginCall o f s).awaitingEnd = true := rfl
@[simp] theorem beginCall_engine (o : Op) (f : Fmt) (s : State) : (beginCall o f s).engine = s.engine := rfl
@[simp] theorem beginCall_ibufEpoch (o : Op) (f : Fmt) (s : State) : (beginCall o f s).ibufEpoch = s.ibufEpoch := rfl
@[simp] theorem beginCall_obufEpoch (o : Op) (f : Fmt) (s : State) : (beginCall o f s).obufEpoch = s.obufEpoch + 1 := rfl

@[simp] theorem appendByte_cmd (b : Byte) (s : State) : (appendByte b s).cmd = s.cmd := rfl
@[simp] theorem appendByte_windowSize (b : Byte) (s : State) : (appendByte b s).windowSize = s.windowSize := rfl
@[simp] theorem appendByte_inLen (b : Byte) (s : State) : (appendByte b s).inLen = s.inLen := rfl
@[simp] theorem appendByte_outLen (b : Byte) (s : State) : (appendByte b s).outLen = s.outLen := rfl
@[simp] theorem appendByte_callState (b : Byte) (s : State) : (appendByte b s).callState = s.callState := rfl
@[simp] theorem appendByte_err (b : Byte) (s : State) : (appendByte b s).err = s.err := rfl
@[simp] theorem appendByte_ibuf (b : Byte) (s : State) : (appendByte b s).ibuf = s.ibuf := rfl
@[simp] theorem appendByte_obuf (b : Byte) (s : State) : (appendByte b s).obuf = memWrite s.obuf s.olen b := rfl
@[simp] theorem appendByte_op (b : Byte) (s : State) : (appendByte b s).op = s.op := rfl
@[simp] theorem appendByte_fmt (b : Byte) (s : State) : (appendByte b s).fmt = s.fmt := rfl
@[simp] theorem appendByte_w (b : Byte) (s : State) : (appendByte b s).w = s.w := rfl
@[simp] theorem appendByte_n (b : Byte) (s : State) : (appendByte b s).n = s.n := rfl
@[simp] theorem appendByte_cur (b : Byte) (s : State) : (appendByte b s).cur = s.cur := rfl
@[simp] theorem appendByte_olen (b : Byte) (s : State) : (appendByte b s).olen = s.olen + 1 := rfl
@[simp] theorem appendByte_origLen (b : Byte) (s : State) : (appendByte b s).origLen = s.origLen := rfl
@[simp] theorem appendByte_c (b : Byte) (s : State) : (appendByte b s).c = s.c := rfl
@[simp] theorem appendByte_tBits (b : Byte) (s : State) : (appendByte b s).tBits = s.tBits := rfl
@[simp] theorem appendByte_acc (b : Byte) (s : State) : (appendByte b s).acc = s.acc := rfl
@[simp] theorem appendByte_nacc (b : Byte) (s : State) : (appendByte b s).nacc = s.nacc := rfl
@[simp] theorem appendByte_tKind (b : Byte) (s : State) : (appendByte b s).tKind = s.tKind := rfl
@[simp] theorem appendByte_tByte (b : Byte) (s : State) : (appendByte b s).tByte = s.tByte := rfl
@[simp] theorem appendByte_tOff (b : Byte) (s : State) : (appendByte b s).tOff = s.tOff := rfl
@[simp] theorem appendByte_tLen (b : Byte) (s : State) : (appendByte b s).tLen = s.tLen := rfl
@[simp] theorem appendByte_rd (b : Byte) (s : State) : (appendByte b s).rd = s.rd := rfl
@[simp] theorem appendByte_wr (b : Byte) (s : State) : (appendByte b s).wr = s.wr := rfl
@[simp] theorem appendByte_rem (b : Byte) (s : State) : (appendByte b s).rem = s.rem := rfl
@[simp] theorem appendByte_phase (b : Byte) (s : State) : (appendByte b s).phase = s.phase := rfl
@[simp] theorem appendByte_head (b : Byte) (s : State) : (appendByte b s).head = s.head := rfl
@[simp] theorem appendByte_prev (b : Byte) (s : State) : (appendByte b s).prev = s.prev := rfl
@[simp] theorem appendByte_acts (b : Byte) (s : State) : (appendByte b s).acts = s.acts := rfl
@[simp] theorem appendByte_hostData (b : Byte) (s : State) : (appendByte b s).hostData = s.hostData := rfl
@[simp] theorem appendByte_awaitingEnd (b : Byte) (s : State) : (appendByte b s).awaitingEnd = s.awaitingEnd := rfl
@[simp] theorem appendByte_engine (b : Byte) (s : State) : (appendByte b s).engine = s.engine := rfl
@[simp] theorem appendByte_ibufEpoch (b : Byte) (s : State) : (appendByte b s).ibufEpoch = s.ibufEpoch := rfl
@[simp] theorem appendByte_obufEpoch (b : Byte) (s : State) : (appendByte b s).obufEpoch = s.obufEpoch := rfl

@[simp] theorem startEncode_cmd (v : Nat) (s : State) : (startEncode v s).cmd = s.cmd := rfl
@[simp] theorem startEncode_windowSize (v : Nat) (s : State) : (startEncode v s).windowSize = s.windowSize := rfl
@[simp] theorem startEncode_inLen (v : Nat) (s : State) : (startEncode v s).inLen = s.inLen := rfl
@[simp] theorem startEncode_outLen (v : Nat) (s : State) : (startEncode v s).outLen = s.outLen := rfl
@[simp] theorem startEncode_callState (v : Nat) (s : State) : (startEncode v s).callState = s.callState := rfl
@[simp] theorem startEncode_err (v : Nat) (s : State) : (startEncode v s).err = s.err := rfl
@[simp] theorem startEncode_ibuf (v : Nat) (s : State) : (startEncode v s).ibuf = s.ibuf := rfl
@[simp] theorem startEncode_obuf (v : Nat) (s : State) : (startEncode v s).obuf = s.obuf := rfl
@[simp] theorem startEncode_op (v : Nat) (s : State) : (startEncode v s).op = s.op := rfl
@[simp] theorem startEncode_fmt (v : Nat) (s : State) : (startEncode v s).fmt = s.fmt := rfl
@[simp] theorem startEncode_w (v : Nat) (s : State) : (startEncode v s).w = v := rfl
@[simp] theorem startEncode_n (v : Nat) (s : State) : (startEncode v s).n = s.n := rfl
@[simp] theorem startEncode_cur (v : Nat) (s : State) : (startEncode v s).cur = s.cur := rfl
@[simp] theorem startEncode_olen (v : Nat) (s : State) : (startEncode v s).olen = s.olen := rfl
@[simp] theorem startEncode_origLen (v : Nat) (s : State) : (startEncode v s).origLen = s.origLen := rfl
@[simp] theorem startEncode_c (v : Nat) (s : State) : (startEncode v s).c = s.c := rfl
@[simp] theorem startEncode_tBits (v : Nat) (s : State) : (startEncode v s).tBits = s.tBits := rfl
@[simp] theorem startEncode_acc (v : Nat) (s : State) : (startEncode v s).acc = s.acc := rfl
@[simp] theorem startEncode_nacc (v : Nat) (s : State) : (startEncode v s).nacc = s.nacc := rfl
@[simp] theorem startEncode_tKind (v : Nat) (s : State) : (startEncode v s).tKind = s.tKind := rfl
@[simp] theorem startEncode_tByte (v : Nat) (s : State) : (startEncode v s).tByte = s.tByte := rfl
@[simp] theorem startEncode_tOff (v : Nat) (s : State) : (startEncode v s).tOff = s.tOff := rfl
@[simp] theorem startEncode_tLen (v : Nat) (s : State) : (startEncode v s).tLen = s.tLen := rfl
@[simp] theorem startEncode_rd (v : Nat) (s : State) : (startEncode v s).rd = s.rd := rfl
@[simp] theorem startEncode_wr (v : Nat) (s : State) : (startEncode v s).wr = s.wr := rfl
@[simp] theorem startEncode_rem (v : Nat) (s : State) : (startEncode v s).rem = s.rem := rfl
@[simp] theorem startEncode_phase (v : Nat) (s : State) : (startEncode v s).phase = .cHdr := rfl
@[simp] theorem startEncode_head (v : Nat) (s : State) : (startEncode v s).head = s.head := rfl
@[simp] theorem startEncode_prev (v : Nat) (s : State) : (startEncode v s).prev = s.prev := rfl
@[simp] theorem startEncode_acts (v : Nat) (s : State) : (startEncode v s).acts = s.acts := rfl
@[simp] theorem startEncode_hostData (v : Nat) (s : State) : (startEncode v s).hostData = s.hostData := rfl
@[simp] theorem startEncode_awaitingEnd (v : Nat) (s : State) : (startEncode v s).awaitingEnd = s.awaitingEnd := rfl
@[simp] theorem startEncode_engine (v : Nat) (s : State) : (startEncode v s).engine = s.engine := rfl
@[simp] theorem startEncode_ibufEpoch (v : Nat) (s : State) : (startEncode v s).ibufEpoch = s.ibufEpoch := rfl
@[simp] theorem startEncode_obufEpoch (v : Nat) (s : State) : (startEncode v s).obufEpoch = s.obufEpoch := rfl

@[simp] theorem withPacker_cmd (s : State) (p : Packer) : (s.withPacker p).cmd = s.cmd := rfl
@[simp] theorem withPacker_windowSize (s : State) (p : Packer) : (s.withPacker p).windowSize = s.windowSize := rfl
@[simp] theorem withPacker_inLen (s : State) (p : Packer) : (s.withPacker p).inLen = s.inLen := rfl
@[simp] theorem withPacker_outLen (s : State) (p : Packer) : (s.withPacker p).outLen = s.outLen := rfl
@[simp] theorem withPacker_callState (s : State) (p : Packer) : (s.withPacker p).callState = s.callState := rfl
@[simp] theorem withPacker_err (s : State) (p : Packer) : (s.withPacker p).err = s.err := rfl
@[simp] theorem withPacker_ibuf (s : State) (p : Packer) : (s.withPacker p).ibuf = s.ibuf := rfl
@[simp] theorem withPacker_obuf (s : State) (p : Packer) : (s.withPacker p).obuf = p.obuf := rfl
@[simp] theorem withPacker_op (s : State) (p : Packer) : (s.withPacker p).op = s.op := rfl
@[simp] theorem withPacker_fmt (s : State) (p : Packer) : (s.withPacker p).fmt = s.fmt := rfl
@[simp] theorem withPacker_w (s : State) (p : Packer) : (s.withPacker p).w = s.w := rfl
@[simp] theorem withPacker_n (s : State) (p : Packer) : (s.withPacker p).n = s.n := rfl
@[simp] theorem withPacker_cur (s : State) (p : Packer) : (s.withPacker p).cur = s.cur := rfl
@[simp] theorem withPacker_olen (s : State) (p : Packer) : (s.withPacker p).olen = p.olen := rfl
@[simp] theorem withPacker_origLen (s : State) (p : Packer) : (s.withPacker p).origLen = s.origLen := rfl
@[simp] theorem withPacker_c (s : State) (p : Packer) : (s.withPacker p).c = s.c := rfl
@[simp] theorem withPacker_tBits (s : State) (p : Packer) : (s.withPacker p).tBits = s.tBits := rfl
@[simp] theorem withPacker_acc (s : State) (p : Packer) : (s.withPacker p).acc = p.acc := rfl
@[simp] theorem withPacker_nacc (s : State) (p : Packer) : (s.withPacker p).nacc = p.nacc := rfl
@[simp] theorem withPacker_tKind (s : State) (p : Packer) : (s.withPacker p).tKind = s.tKind := rfl
@[simp] theorem withPacker_tByte (s : State) (p : Packer) : (s.withPacker p).tByte = s.tByte := rfl
@[simp] theorem withPacker_tOff (s : State) (p : Packer) : (s.withPacker p).tOff = s.tOff := rfl
@[simp] theorem withPacker_tLen (s : State) (p : Packer) : (s.withPacker p).tLen = s.tLen := rfl
@[simp] theorem withPacker_rd (s : State) (p : Packer) : (s.withPacker p).rd = s.rd := rfl
@[simp] theorem withPacker_wr (s : State) (p : Packer) : (s.withPacker p).wr = s.wr := rfl
@[simp] theorem withPacker_rem (s : State) (p : Packer) : (s.withPacker p).rem = s.rem := rfl
@[simp] theorem withPacker_phase (s : State) (p : Packer) : (s.withPacker p).phase = s.phase := rfl
@[simp] theorem withPacker_head (s : State) (p : Packer) : (s.withPacker p).head = s.head := rfl
@[simp] theorem withPacker_prev (s : State) (p : Packer) : (s.withPacker p).prev = s.prev := rfl
@[simp] theorem withPacker_acts (s : State) (p : Packer) : (s.withPacker p).acts = s.acts := rfl
@[simp] theorem withPacker_hostData (s : State) (p : Packer) : (s.withPacker p).hostData = s.hostData := rfl
@[simp] theorem withPacker_awaitingEnd (s : State) (p : Packer) : (s.withPacker p).awaitingEnd = s.awaitingEnd := rfl
@[simp] theorem withPacker_engine (s : State) (p : Packer) : (s.withPacker p).engine = s.engine := rfl
@[simp] theorem withPacker_ibufEpoch (s : State) (p : Packer) : (s.withPacker p).ibufEpoch = s.ibufEpoch := rfl
@[simp] theorem withPacker_obufEpoch (s : State) (p : Packer) : (s.withPacker p).obufEpoch = s.obufEpoch := rfl

@[simp] theorem withIndex_cmd (s : State) (x : Index) : (s.withIndex x).cmd = s.cmd := rfl
@[simp] theorem withIndex_windowSize (s : State) (x : Index) : (s.withIndex x).windowSize = s.windowSize := rfl
@[simp] theorem withIndex_inLen (s : State) (x : Index) : (s.withIndex x).inLen = s.inLen := rfl
@[simp] theorem withIndex_outLen (s : State) (x : Index) : (s.withIndex x).outLen = s.outLen := rfl
@[simp] theorem withIndex_callState (s : State) (x : Index) : (s.withIndex x).callState = s.callState := rfl
@[simp] theorem withIndex_err (s : State) (x : Index) : (s.withIndex x).err = s.err := rfl
@[simp] theorem withIndex_ibuf (s : State) (x : Index) : (s.withIndex x).ibuf = s.ibuf := rfl
@[simp] theorem withIndex_obuf (s : State) (x : Index) : (s.withIndex x).obuf = s.obuf := rfl
@[simp] theorem withIndex_op (s : State) (x : Index) : (s.withIndex x).op = s.op := rfl
@[simp] theorem withIndex_fmt (s : State) (x : Index) : (s.withIndex x).fmt = s.fmt := rfl
@[simp] theorem withIndex_w (s : State) (x : Index) : (s.withIndex x).w = s.w := rfl
@[simp] theorem withIndex_n (s : State) (x : Index) : (s.withIndex x).n = s.n := rfl
@[simp] theorem withIndex_cur (s : State) (x : Index) : (s.withIndex x).cur = s.cur := rfl
@[simp] theorem withIndex_olen (s : State) (x : Index) : (s.withIndex x).olen = s.olen := rfl
@[simp] theorem withIndex_origLen (s : State) (x : Index) : (s.withIndex x).origLen = s.origLen := rfl
@[simp] theorem withIndex_c (s : State) (x : Index) : (s.withIndex x).c = s.c := rfl
@[simp] theorem withIndex_tBits (s : State) (x : Index) : (s.withIndex x).tBits = s.tBits := rfl
@[simp] theorem withIndex_acc (s : State) (x : Index) : (s.withIndex x).acc = s.acc := rfl
@[simp] theorem withIndex_nacc (s : State) (x : Index) : (s.withIndex x).nacc = s.nacc := rfl
@[simp] theorem withIndex_tKind (s : State) (x : Index) : (s.withIndex x).tKind = s.tKind := rfl
@[simp] theorem withIndex_tByte (s : State) (x : Index) : (s.withIndex x).tByte = s.tByte := rfl
@[simp] theorem withIndex_tOff (s : State) (x : Index) : (s.withIndex x).tOff = s.tOff := rfl
@[simp] theorem withIndex_tLen (s : State) (x : Index) : (s.withIndex x).tLen = s.tLen := rfl
@[simp] theorem withIndex_rd (s : State) (x : Index) : (s.withIndex x).rd = s.rd := rfl
@[simp] theorem withIndex_wr (s : State) (x : Index) : (s.withIndex x).wr = s.wr := rfl
@[simp] theorem withIndex_rem (s : State) (x : Index) : (s.withIndex x).rem = s.rem := rfl
@[simp] theorem withIndex_phase (s : State) (x : Index) : (s.withIndex x).phase = s.phase := rfl
@[simp] theorem withIndex_head (s : State) (x : Index) : (s.withIndex x).head = x.head := rfl
@[simp] theorem withIndex_prev (s : State) (x : Index) : (s.withIndex x).prev = x.prev := rfl
@[simp] theorem withIndex_acts (s : State) (x : Index) : (s.withIndex x).acts = s.acts := rfl
@[simp] theorem withIndex_hostData (s : State) (x : Index) : (s.withIndex x).hostData = s.hostData := rfl
@[simp] theorem withIndex_awaitingEnd (s : State) (x : Index) : (s.withIndex x).awaitingEnd = s.awaitingEnd := rfl
@[simp] theorem withIndex_engine (s : State) (x : Index) : (s.withIndex x).engine = s.engine := rfl
@[simp] theorem withIndex_ibufEpoch (s : State) (x : Index) : (s.withIndex x).ibufEpoch = s.ibufEpoch := rfl
@[simp] theorem withIndex_obufEpoch (s : State) (x : Index) : (s.withIndex x).obufEpoch = s.obufEpoch := rfl

@[simp] theorem withPacker_packer (s : State) (p : Packer) : (s.withPacker p).packer = p := rfl
@[simp] theorem withIndex_index (s : State) (x : Index) : (s.withIndex x).index = x := rfl
@[simp] theorem withPacker_index (s : State) (p : Packer) : (s.withPacker p).index = s.index := rfl
@[simp] theorem withIndex_packer (s : State) (x : Index) : (s.withIndex x).packer = s.packer := rfl
@[simp] theorem index_head (s : State) : s.index.head = s.head := rfl
@[simp] theorem index_prev (s : State) : s.index.prev = s.prev := rfl
@[simp] theorem packer_obuf (s : State) : s.packer.obuf = s.obuf := rfl
@[simp] theorem packer_olen (s : State) : s.packer.olen = s.olen := rfl
@[simp] theorem packer_acc (s : State) : s.packer.acc = s.acc := rfl
@[simp] theorem packer_nacc (s : State) : s.packer.nacc = s.nacc := rfl

end Sys2Proof.Machine
end

