-- ==== Sys2Proof/Laws/Step.lean ====
section
/-! SUPPORT. What a step can do, said once: `EngineStep` for the engine (10_state.md R34, 44_codec_commands.md R181), the
host's moves beside it. -/

namespace Sys2Proof.Machine

theorem exec_hdrOf (f : Fmt) (origLen : Word) (s : State) : exec (hdrOf f origLen) s = execHeader f origLen s := by
  cases f <;> rfl

theorem exec_litOf (f : Fmt) (byte : Byte) (s : State) : exec (litOf f byte) s = execLit f byte s := by
  cases f <;> rfl

theorem exec_matchOf (f : Fmt) (offset length : Nat) (s : State) :
    exec (matchOf f offset length) s = execMatch f offset length s := by
  cases f <;> rfl

theorem exec_padOf (f : Fmt) (bits : Nat) (s : State) : exec (padOf f bits) s = execPad f bits s := by
  cases f <;> rfl

theorem exec_compress (f : Fmt) (s : State) :
    exec (commandOf .compress f) s = execEncode .compress f checkWindow s := by
  cases f <;> rfl

theorem exec_compressFast (f : Fmt) (s : State) :
    exec (commandOf .compressFast f) s = execEncode .compressFast f (startEncode Config.fastWindow) s := by
  cases f <;> rfl

theorem exec_decompress (f : Fmt) (s : State) : exec (commandOf .decompress f) s = execDecode f s := by
  cases f <;> rfl

/-- One visit of a phase by the engine. -/
inductive EngineStep : State → State → Prop where
  | idle {s} : s.phase = .idle → EngineStep s s
  | checkCompress {s} : s.phase = .check → s.op = .compress → EngineStep s (checkWindow s)
  | checkFast {s} : s.phase = .check → s.op = .compressFast → EngineStep s (startEncode Config.fastWindow s)
  | checkDecompress {s} : s.phase = .check → s.op = .decompress → EngineStep s { s with phase := .dHdr }
  | header {s} : s.phase = .cHdr → s.op ≠ .decompress → EngineStep s (encodeHeader s)
  | token {s} : s.phase = .cToken → s.op ≠ .decompress → EngineStep s (encodeToken s)
  | flush {s} : s.phase = .cFlush → s.op ≠ .decompress → EngineStep s (encodeFlush s)
  | badHeader {s} : s.phase = .dHdr → EngineStep s (raise .malformedStream s)
  | goodHeader {s t : State} (origLen : Word) : s.phase = .dHdr → 5 ≤ s.n →
      t = { s with origLen := origLen.toNat, tBits := 8 * (s.n - 5), c := 0, olen := 0 } →
      EngineStep s { t with phase := decodeLoop t }
  | exhausted {s} : s.phase = .dToken → s.tBits - s.c = 0 → EngineStep s (raise .lengthMismatch s)
  | litTruncated {s} : s.phase = .dToken → 1 ≤ s.tBits - s.c →
      EngineStep s (raise .malformedStream { s with c := s.c + 1, tKind := .literal })
  | offTruncated {s} : s.phase = .dToken → 1 ≤ s.tBits - s.c →
      EngineStep s (raise .malformedStream { s with c := s.c + 1, tKind := .backRef })
  | lenTruncated {s} (o : Nat) : s.phase = .dToken → o < 2 ^ s.fmt.spec.offBits → 1 + s.fmt.spec.offBits ≤ s.tBits - s.c →
      EngineStep s (raise .malformedStream
        { s with c := s.c + 1 + s.fmt.spec.offBits, tKind := .backRef, tOff := o + 1 })
  | literal {s t : State} (byte : Byte) : s.phase = .dToken → 9 ≤ s.tBits - s.c →
      t = appendByte byte { s with c := s.c + 1 + 8, tKind := .literal, tByte := byte } →
      EngineStep s { t with phase := decodeLoop t }
  | match {s t : State} (o l : Nat) : s.phase = .dToken → o < 2 ^ s.fmt.spec.offBits → l < 2 ^ s.fmt.spec.lenBits →
      s.fmt.spec.matchBits ≤ s.tBits - s.c →
      t = { s with c := s.c + 1 + s.fmt.spec.offBits + s.fmt.spec.lenBits, tKind := .backRef, tOff := o + 1,
                   tLen := l + s.fmt.spec.minLen } →
      EngineStep s
        (if o + 1 > s.olen then raise .malformedStream t
         else if s.olen + (l + s.fmt.spec.minLen) > s.origLen then raise .lengthMismatch t
         else { t with rd := s.olen - (o + 1), wr := s.olen, rem := l + s.fmt.spec.minLen, phase := .dCopy })
  | copyOver {s} : s.phase = .dCopy → s.rem = 0 → EngineStep s { s with phase := decodeLoop s }
  | copy {s} : s.phase = .dCopy → 0 < s.rem → EngineStep s (copyByte s)
  | tailLong {s} : s.phase = .dTail → EngineStep s (raise .lengthMismatch s)
  | tailSet {s} : s.phase = .dTail → EngineStep s (raise .malformedStream s)
  | tailDone {s} : s.phase = .dTail → EngineStep s (finish s)

/-- The engine's step as `step` runs it, the host's moves aside. -/
def engineOutcome (s : State) : Host.Outcome State Fault Refusal :=
  match fetchEngine s with
  | .instr i t => exec i t
  | .without o => o

theorem execLit_of_room {s : State} {f : Fmt} {byte : Byte} (hp : s.phase = .dToken) (hf : s.fmt = f)
    (hr : 9 ≤ s.tBits - s.c) :
    execLit f byte s =
      .next { appendByte byte { s with c := s.c + 1 + 8, tKind := .literal, tByte := byte } with
        phase := decodeLoop (appendByte byte { s with c := s.c + 1 + 8, tKind := .literal, tByte := byte }) } := by
  unfold execLit
  rw [if_neg (by simp [hp, hf]), tokenFlag, if_neg (by omega), brGet, if_neg (by omega), brGet,
    if_neg (by simp only; omega)]

theorem matchStart_of_room {s : State} {offset length : Nat} (hr : s.fmt.spec.matchBits ≤ s.tBits - s.c) :
    matchStart offset length s =
      .next (if offset > s.olen then raise .malformedStream
          { s with c := s.c + 1 + s.fmt.spec.offBits + s.fmt.spec.lenBits, tKind := .backRef, tOff := offset,
                   tLen := length }
        else if s.olen + length > s.origLen then raise .lengthMismatch
          { s with c := s.c + 1 + s.fmt.spec.offBits + s.fmt.spec.lenBits, tKind := .backRef, tOff := offset,
                   tLen := length }
        else { s with c := s.c + 1 + s.fmt.spec.offBits + s.fmt.spec.lenBits, tKind := .backRef, tOff := offset,
                      tLen := length, rd := s.olen - offset, wr := s.olen, rem := length, phase := .dCopy }) := by
  unfold FormatSpec.matchBits at hr
  unfold matchStart
  rw [tokenFlag, if_neg (by omega), brGet, if_neg (by omega), brGet, if_neg (by simp only; omega), brGet,
    if_neg (by simp only; omega)]
  simp only
  split
  · rfl
  · split <;> rfl

theorem engineOutcome_next {s t : State} (h : engineOutcome s = .next t) : EngineStep s t := by
  unfold engineOutcome fetchEngine at h
  have command : exec (commandOf s.op s.fmt) s = .next t → s.phase = .check ∨ s.phase = .cHdr ∨ s.phase = .cToken ∨
      s.phase = .cFlush → EngineStep s t := by
    intro h hp
    have encode : ∀ op chk, s.op = op → op ≠ .decompress → execEncode op s.fmt chk s = .next t →
        (s.phase = .check ∧ t = chk s) ∨ EngineStep s t := by
      intro op chk ho hne he
      unfold execEncode at he
      rw [if_neg (by simp [ho])] at he
      rcases hp with hp | hp | hp | hp <;> simp only [hp, Host.Outcome.next.injEq] at he <;> subst he
      · exact .inl ⟨hp, rfl⟩
      · exact .inr (.header hp (by rwa [ho]))
      · exact .inr (.token hp (by rwa [ho]))
      · exact .inr (.flush hp (by rwa [ho]))
    cases ho : s.op with
    | compress =>
      rw [ho, exec_compress] at h
      rcases encode _ _ ho (by decide) h with ⟨hc, rfl⟩ | h
      · exact .checkCompress hc ho
      · exact h
    | compressFast =>
      rw [ho, exec_compressFast] at h
      rcases encode _ _ ho (by decide) h with ⟨hc, rfl⟩ | h
      · exact .checkFast hc ho
      · exact h
    | decompress =>
      rw [ho, exec_decompress] at h
      unfold execDecode at h
      split at h
      · cases h
      · next hc =>
        simp only [not_or, ne_eq, not_not] at hc
        simp only [Host.Outcome.next.injEq] at h
        subst h
        exact .checkDecompress hc.2.2 ho
  cases hp : s.phase with
  | idle => simp only [hp, Host.Outcome.next.injEq] at h; subst h; exact .idle hp
  | check => simp only [hp] at h; exact command h (by simp [hp])
  | cHdr => simp only [hp] at h; exact command h (by simp [hp])
  | cToken => simp only [hp] at h; exact command h (by simp [hp])
  | cFlush => simp only [hp] at h; exact command h (by simp [hp])
  | dHdr =>
    simp only [hp, fetchDecoded] at h
    cases hd : decodeHeader (headerBytes s) with
    | error e =>
      rw [hd] at h
      rcases decodeHeader_error (by simp) hd with rfl | rfl <;>
        (simp only [decodeFault, Host.Outcome.next.injEq] at h; subst h; exact .badHeader hp)
    | ok i =>
      rw [hd] at h
      obtain ⟨f, tg, b0, b1, b2, b3, -, -, rfl⟩ := decodeHeader_ok hd
      simp only [exec_hdrOf] at h
      unfold execHeader at h
      rw [if_neg (by simp [hp])] at h
      split at h
      · simp only [Host.Outcome.next.injEq] at h; subst h; exact .badHeader hp
      · next hn =>
        split at h
        · simp only [Host.Outcome.next.injEq] at h; subst h; exact .badHeader hp
        · simp only [Host.Outcome.next.injEq] at h
          subst h
          exact .goodHeader (t := { s with origLen := (le32 b0 b1 b2 b3).toNat, tBits := 8 * (s.n - 5), c := 0, olen := 0 })
            _ hp (by simpa [Config.hdrLen] using hn) rfl
  | dToken =>
    simp only [hp, fetchDecoded, tokenAt] at h
    cases hd : decodeToken s.fmt (streamBits maxTokenBits s) with
    | error e =>
      rw [hd] at h
      simp only at h
      rcases decodeToken_error hd with ⟨rfl, hl⟩ | ⟨rfl, hl⟩ | ⟨rfl, hl⟩ | ⟨o, rfl, ho, hl⟩ <;>
        simp only [decodeFault, Host.Outcome.next.injEq] at h <;> subst h <;>
        simp only [streamBits_length, maxTokenBits] at hl
      · exact .exhausted hp (by omega)
      · exact .litTruncated hp (by omega)
      · exact .offTruncated hp (by omega)
      · exact .lenTruncated o hp ho (by omega)
    | ok p =>
      obtain ⟨i, rest⟩ := p
      rw [hd] at h
      simp only at h
      rcases decodeToken_ok hd with ⟨byte, rfl, hl⟩ | ⟨o, l, rfl, ho, hl', hl⟩ <;>
        simp only [streamBits_length, maxTokenBits] at hl
      · rw [exec_litOf, execLit_of_room hp rfl (by omega)] at h
        simp only [Host.Outcome.next.injEq] at h
        subst h
        exact .literal byte hp (by omega) rfl
      · rw [exec_matchOf, execMatch, if_neg (by simp), hp] at h
        simp only at h
        rw [matchStart_of_room (by omega)] at h
        simp only [Host.Outcome.next.injEq] at h
        subst h
        exact .match o l hp ho hl' (by omega) rfl
  | dCopy =>
    simp only [hp] at h
    rw [exec_matchOf, execMatch, if_neg (by simp), hp] at h
    simp only [ne_eq, not_true_eq_false, or_self, if_false] at h
    split at h
    · next hr => simp only [Host.Outcome.next.injEq] at h; subst h; exact .copyOver hp hr
    · next hr => simp only [Host.Outcome.next.injEq] at h; subst h; exact .copy hp (by omega)
  | dTail =>
    simp only [hp, fetchDecoded] at h
    cases hd : decodeTail s.fmt (streamBits 8 s) with
    | error e =>
      rw [hd] at h
      rcases decodeTail_error hd with ⟨rfl, -⟩ | ⟨rfl, -, -⟩ <;>
        simp only [decodeFault, Host.Outcome.next.injEq] at h <;> subst h
      · exact .tailLong hp
      · exact .tailSet hp
    | ok i =>
      rw [hd] at h
      obtain ⟨rfl, -, -⟩ := decodeTail_ok hd
      simp only [exec_padOf] at h
      unfold execPad at h
      split at h
      · cases h
      · split at h
        · simp only [Host.Outcome.next.injEq] at h; subst h; exact .tailLong hp
        · split at h
          · simp only [Host.Outcome.next.injEq] at h; subst h; exact .tailSet hp
          · simp only [Host.Outcome.next.injEq] at h; subst h; exact .tailDone hp

/-- What a step can do: the engine's visit of its phase, a START, or another move of the host. -/
theorem step_cases {s t : State} (h : step s = .next t) :
    (s.acts = [] ∧ EngineStep s t) ∨
    (∃ rest, s.acts = .engine :: rest ∧ EngineStep { s with acts := rest } t) ∨
    (∃ rest, s.acts = .writeReg 0 1 :: rest ∧ execStart { s with acts := rest } = .next t) ∨
    (∃ a rest, s.acts = a :: rest ∧ hostMove a { s with acts := rest } = .next t) := by
  unfold step fetch at h
  cases ha : s.acts with
  | nil => rw [ha] at h; exact .inl ⟨rfl, engineOutcome_next h⟩
  | cons a rest =>
    rw [ha] at h
    cases a with
    | engine => exact .inr (.inl ⟨rest, rfl, engineOutcome_next h⟩)
    | writeReg number value =>
      simp only at h
      split at h
      · next hs =>
        split at hs
        · next hc =>
          simp only [Fetched.instr.injEq] at hs
          obtain ⟨rfl, rfl⟩ := hs
          obtain ⟨rfl, hv⟩ := hc
          unfold decodeControl at hv
          split at hv
          · next h1 => subst h1; exact .inr (.inr (.inl ⟨rest, rfl, h⟩))
          · cases hv
        · cases hs
      · next o hs =>
        split at hs
        · cases hs
        · simp only [Fetched.without.injEq] at hs
          subst hs
          exact .inr (.inr (.inr ⟨_, rest, rfl, h⟩))
    | _ => exact .inr (.inr (.inr ⟨_, rest, rfl, h⟩))

end Sys2Proof.Machine
end

