-- ==== Sys2Proof/Tests/Slice0.lean ====
section
/-! SUPPORT. The model's own tests: every constructor decoded from a word written out from spec/, an ill-formed term for
each check, one step per instruction with the result spec/ gives, and for each statement with hypotheses a witness. -/

namespace Sys2Proof.Tests

open Sys2Proof Sys2Proof.Machine

/-! ### Decoding, from words written out from the encodings -/

/-- A run of stream bits written as in 30_encoding.md R81. -/
def bits (text : String) : List Bool := text.toList.map fun ch => ch == '1'

/-- 30_encoding.md R71: `80 n0 n1 n2 n3`. -/
theorem test_decode_hdrLz80 : decode (.header [0x80, 0x04, 0x03, 0x02, 0x01]) = .ok (.hdrLz80 0x01020304) := by decide

/-- 30_encoding.md R71: `01 n0 n1 n2 n3`. -/
theorem test_decode_hdrLz01 : decode (.header [0x01, 0x0A, 0x00, 0x00, 0x80]) = .ok (.hdrLz01 0x8000000A) := by decide

/-- 30_encoding.md R71: `03 n0 n1 n2 n3`. -/
theorem test_decode_hdrLz03 : decode (.header [0x03, 0xFF, 0x00, 0x00, 0x00]) = .ok (.hdrLz03 255) := by decide

/-- 30_encoding.md R81: `0 bbbbbbbb`, most significant bit first. -/
theorem test_decode_litLz80 : decode (.token .lz80 (bits "010000011")) = .ok (.litLz80 0x83) := by decide

/-- 30_encoding.md R81, R87: `1 bbbbbbbb`, least significant bit first. -/
theorem test_decode_litLz01 : decode (.token .lz01 (bits "110000010")) = .ok (.litLz01 0x41) := by decide

/-- 30_encoding.md R81, R87: `1 bbbbbbbb`, most significant bit first. -/
theorem test_decode_litLz03 : decode (.token .lz03 (bits "101000001")) = .ok (.litLz03 0x41) := by decide

/-- 30_encoding.md R81, R78: offset field 2, length field 5. -/
theorem test_decode_matchLz80 :
    decode (.token .lz80 (bits "100000000000001000000101")) = .ok (.matchLz80 3 8) := by decide

/-- 30_encoding.md R81, R78: offset field 2048 (only its last stream bit set), length field 6, as `0110`. -/
theorem test_decode_matchLz01 : decode (.token .lz01 (bits "00000000000010110")) = .ok (.matchLz01 2049 9) := by decide

/-- 30_encoding.md R81, R78: offset field 1, length field 16. -/
theorem test_decode_matchLz03 : decode (.token .lz03 (bits "0000000000000110000")) = .ok (.matchLz03 2 20) := by decide

/-- 30_encoding.md R79, R87: `PAD 7`, `PAD 6`, and no padding. -/
theorem test_decode_pad :
    decode (.tail .lz80 (bits "0000000")) = .ok (.padLz80 7) ∧ decode (.tail .lz01 (bits "000000")) = .ok (.padLz01 6) ∧
    decode (.tail .lz03 []) = .ok (.padLz03 0) := by decide

/-- 30_encoding.md R83. -/
theorem test_decode_commands :
    decode (.cmd 0x00008001) = .ok .compressLz80 ∧ decode (.cmd 0x00008002) = .ok .decompressLz80 ∧
    decode (.cmd 0x00008003) = .ok .compressLz80Fast ∧ decode (.cmd 0x00000101) = .ok .compressLz01 ∧
    decode (.cmd 0x00000102) = .ok .decompressLz01 ∧ decode (.cmd 0x00000103) = .ok .compressLz01Fast ∧
    decode (.cmd 0x00000301) = .ok .compressLz03 ∧ decode (.cmd 0x00000302) = .ok .decompressLz03 ∧
    decode (.cmd 0x00000303) = .ok .compressLz03Fast := by decide

/-- 10_state.md R25. -/
theorem test_decode_start : decode (.ctrl 1) = .ok .start := by decide

/-- 30_encoding.md R84: an operation of 0, an unknown format, a reserved bit. -/
theorem test_decode_reserved :
    decode (.cmd 0x00008000) = .error .reservedCommand ∧ decode (.cmd 0x00000201) = .error .reservedCommand ∧
    decode (.cmd 0x00018001) = .error .reservedCommand ∧ decode (.header [0x02, 0, 0, 0, 0]) = .error .unknownTag := by
  decide

/-- 30_encoding.md R88 (a), (d): the table's MATCH.lz80 with offset field 1 and length field 2; a command; START. -/
theorem test_decode_table :
    decodeTableWord 24 0x800102 = some (.matchLz80 2 5) ∧ decodeTableWord 32 0x0302 = some .decompressLz03 ∧
    decodeTableWord 32 1 = some .start := by decide

/-! ### The checks of WellFormed, each refusing an ill-formed term (30_encoding.md R78, R79) -/

theorem test_illFormed_offset_zero : Instr.wellFormed (.matchLz80 0 3) = false := by decide

theorem test_illFormed_offset_above : Instr.wellFormed (.matchLz01 4097 3) = false := by decide

theorem test_illFormed_length_below : Instr.wellFormed (.matchLz03 1 3) = false := by decide

theorem test_illFormed_length_above : Instr.wellFormed (.matchLz80 1 259) = false := by decide

theorem test_illFormed_pad : Instr.wellFormed (.padLz03 8) = false := by decide

/-! ### States to test in -/

/-- A running call in a phase, its input in IBUF. -/
def running (op : Op) (f : Fmt) (phase : Phase) (data : List Byte) : State :=
  { State.reset with
    op := op, fmt := f, phase := phase, callState := .busy, cmd := commandWord op f, n := data.length
    inLen := BitVec.ofNat 32 data.length, ibuf := loadIbuf [] 0 data }

/-- A decompress call past its header, with output so far. -/
def reading (f : Fmt) (phase : Phase) (c origLen : Nat) (out data : List Byte) : State :=
  { running .decompress f phase data with
    c := c, tBits := 8 * (data.length - 5), origLen := origLen, olen := out.length, obuf := loadIbuf [] 0 out }

/-- A compress call past its header, `cur` positions in the index. -/
def writing (f : Fmt) (phase : Phase) (w cur : Nat) (data : List Byte) : State :=
  let s := { running .compress f phase data with w := w, cur := cur, olen := 5, obuf := loadIbuf [] 0 [0, 0, 0, 0, 0] }
  s.withIndex (indexOf (ibufByte s) s.n cur)

/-- An engine with no call running, its host registers written. -/
def ready (op : Op) (f : Fmt) (windowSize : Word) (data : List Byte) : State :=
  { State.reset with
    cmd := commandWord op f, windowSize := windowSize, inLen := BitVec.ofNat 32 data.length, ibuf := loadIbuf [] 0 data }

/-- Ten bytes 0x41 as a stream of each format (30_encoding.md R87). -/
def streamA (f : Fmt) : List Byte :=
  match f with
  | .lz80 => [0x80, 0x0A, 0x00, 0x00, 0x00, 0x20, 0xC0, 0x00, 0x03, 0x00]
  | .lz01 => [0x01, 0x0A, 0x00, 0x00, 0x00, 0x83, 0x00, 0x80, 0x01]
  | .lz03 => [0x03, 0x0A, 0x00, 0x00, 0x00, 0xA0, 0x80, 0x00, 0x50]

/-- An outcome is a next state that meets a test. -/
def nextIs (o : Host.Outcome State Fault Refusal) (p : State → Bool) : Bool :=
  match o with
  | .next t => p t
  | .fault _ => false
  | .refused _ => false

/-! ### One step of each instruction -/

/-- 43_token_decoder.md R143, example of R148. -/
theorem test_hdrLz80 :
    nextIs (step (running .decompress .lz80 .dHdr (streamA .lz80)))
      (fun t => t.origLen == 10 && t.tBits == 40 && t.phase == .dToken) = true := by decide

/-- 43_token_decoder.md R143: declared length 0 goes to the tail. -/
theorem test_hdrLz01 :
    nextIs (step (running .decompress .lz01 .dHdr [0x01, 0, 0, 0, 0]))
      (fun t => t.origLen == 0 && t.tBits == 0 && t.phase == .dTail) = true := by decide

/-- 43_token_decoder.md R143: another format's tag. -/
theorem test_hdrLz03_wrong_tag :
    nextIs (step (running .decompress .lz80 .dHdr (streamA .lz03)))
      (fun t => t.err == some .malformedStream && statusWord t == 0x23) = true := by decide

/-- 30_encoding.md R87, 43_token_decoder.md R145. -/
theorem test_litLz80 :
    nextIs (step (reading .lz80 .dToken 0 10 [] (streamA .lz80)))
      (fun t => t.obuf == [(0, 0x41)] && t.c == 9 && t.phase == .dToken) = true := by decide

/-- 30_encoding.md R87, 43_token_decoder.md R145. -/
theorem test_litLz01 :
    nextIs (step (reading .lz01 .dToken 0 1 [] (streamA .lz01)))
      (fun t => t.obuf == [(0, 0x41)] && t.c == 9 && t.phase == .dTail) = true := by decide

/-- 30_encoding.md R87, 43_token_decoder.md R145. -/
theorem test_litLz03 :
    nextIs (step (reading .lz03 .dToken 0 10 [] (streamA .lz03)))
      (fun t => t.obuf == [(0, 0x41)] && t.c == 9 && t.phase == .dToken) = true := by decide

/-- 30_encoding.md R87, 43_token_decoder.md R146: `MATCH 1, 9` at bit 9. -/
theorem test_matchLz80 :
    nextIs (step (reading .lz80 .dToken 9 10 [0x41] (streamA .lz80)))
      (fun t => t.c == 33 && t.tOff == 1 && t.rem == 9 && t.rd == 0 && t.wr == 1 && t.phase == .dCopy) = true := by decide

/-- 60_exceptions.md R195: `MATCH 2, 3` after one byte, with declared length 3: the offset is found bad first. -/
theorem test_matchLz80_order :
    nextIs (step (reading .lz80 .dToken 9 3 [0x41] [0x80, 0x03, 0x00, 0x00, 0x00, 0x20, 0xC0, 0x00, 0x80, 0x00]))
      (fun t => t.err == some .malformedStream && t.outLen == 0) = true := by decide

/-- 30_encoding.md R87, 43_token_decoder.md R146. -/
theorem test_matchLz01 :
    nextIs (step (reading .lz01 .dToken 9 10 [0x41] (streamA .lz01)))
      (fun t => t.c == 26 && t.tOff == 1 && t.tLen == 9 && t.phase == .dCopy) = true := by decide

/-- 43_token_decoder.md R146: the same with declared length 9 overshoots. -/
theorem test_matchLz01_overshoot :
    nextIs (step (reading .lz01 .dToken 9 9 [0x41] (streamA .lz01)))
      (fun t => t.err == some .lengthMismatch) = true := by decide

/-- 30_encoding.md R87, 43_token_decoder.md R146. -/
theorem test_matchLz03 :
    nextIs (step (reading .lz03 .dToken 9 10 [0x41] (streamA .lz03)))
      (fun t => t.c == 28 && t.tOff == 1 && t.tLen == 9 && t.phase == .dCopy) = true := by decide

/-- 43_token_decoder.md R147: one copied byte; the read cursor follows one behind. -/
theorem test_copy :
    nextIs (step { reading .lz03 .dCopy 28 10 [0x41] (streamA .lz03) with tOff := 1, tLen := 9, rd := 0, wr := 1, rem := 9 })
      (fun t => t.obuf == [(0, 0x41), (1, 0x41)] && t.rd == 1 && t.wr == 2 && t.rem == 8 && t.phase == .dCopy) = true := by
  decide

/-- 43_token_decoder.md R148: seven padding bits, all 0. -/
theorem test_padLz80 :
    nextIs (step (reading .lz80 .dTail 33 1 [0x41] (streamA .lz80)))
      (fun t => t.callState == .done && t.outLen == 1 && t.phase == .idle) = true := by decide

/-- 43_token_decoder.md R148: six padding bits, the last stream bit 1. -/
theorem test_padLz01_set :
    nextIs (step (reading .lz01 .dTail 26 1 [0x41] [0x01, 0x01, 0x00, 0x00, 0x00, 0x83, 0x00, 0x80, 0x81]))
      (fun t => t.err == some .malformedStream) = true := by decide

/-- 43_token_decoder.md R148: a byte beyond the last token. -/
theorem test_padLz03_long :
    nextIs (step (reading .lz03 .dTail 28 1 [0x41] (streamA .lz03 ++ [0x00])))
      (fun t => t.err == some .lengthMismatch) = true := by decide

/-- 44_codec_commands.md R172: 32769 is out of bounds. -/
theorem test_compressLz80_window :
    nextIs (step { running .compress .lz80 .check [] with windowSize := 32769 })
      (fun t => statusWord t == 0x13 && t.outLen == 0) = true := by decide

/-- 42_token_encoder.md R124: `80 0A 00 00 00`. -/
theorem test_compressLz80_header :
    nextIs (step { running .compress .lz80 .cHdr [] with n := 10 })
      (fun t => t.obuf == [(0, 0x80), (1, 0x0A), (2, 0), (3, 0), (4, 0)] && t.olen == 5 && t.phase == .cToken) = true := by
  decide

/-- 41_match_finder.md R106, R107, 42_token_encoder.md R126: the second token of ten bytes 0x41, `MATCH 1, 9`: 17 bits in
lz01, two bytes full, one bit left. -/
theorem test_compressLz01_match :
    nextIs (step (writing .lz01 .cToken 4096 1 (List.replicate 10 0x41)))
      (fun t => t.tOff == 1 && t.tLen == 9 && t.cur == 10 && t.olen == 7 && t.nacc == 1 && t.phase == .cFlush) = true := by
  decide

/-- 42_token_encoder.md R125: the literal 0x41 in lz01 puts `1 10000010`: byte 0x83, then one bit 0. -/
theorem test_compressLz01_literal :
    nextIs (step (writing .lz01 .cToken 4096 0 (List.replicate 10 0x41)))
      (fun t => t.obuf.getLast? == some (5, 0x83) && t.acc == 0 && t.nacc == 1 && t.cur == 1) = true := by decide

/-- 42_token_encoder.md R123, 44_codec_commands.md R175: the bits in `acc` go out. -/
theorem test_compressLz03_flush :
    nextIs (step { writing .lz03 .cFlush 8192 1 [0x41] with acc := 0x50, nacc := 4 })
      (fun t => t.obuf.getLast? == some (5, 0x50) && t.outLen == 6 && t.callState == .done) = true := by decide

/-- 44_codec_commands.md R173: no window is checked. -/
theorem test_compressLz80Fast :
    nextIs (step (running .compressFast .lz80 .check [])) (fun t => t.w == 1024 && t.phase == .cHdr) = true := by decide

/-- 44_codec_commands.md R173, with a `WINDOW_SIZE` that COMPRESS would reject. -/
theorem test_compressLz01Fast :
    nextIs (step { running .compressFast .lz01 .check [] with windowSize := 5000 })
      (fun t => t.w == 1024 && t.phase == .cHdr) = true := by decide

/-- 42_token_encoder.md R125: the literal 0x41 in lz03 puts `1 01000001`: byte 0xA0, then one bit 1. -/
theorem test_compressLz03Fast :
    nextIs (step { writing .lz03 .cToken 1024 0 [0x41] with op := .compressFast })
      (fun t => t.obuf.getLast? == some (5, 0xA0) && t.acc == 0x80 && t.nacc == 1 && t.phase == .cFlush) = true := by decide

/-- 44_codec_commands.md R174. -/
theorem test_decompress :
    ∀ f, nextIs (step (running .decompress f .check [])) (fun t => t.phase == .dHdr) = true := by
  intro f; cases f <;> decide

/-- 44_codec_commands.md R171: the example of START. -/
theorem test_start :
    nextIs (step { ready .compress .lz80 32768 (List.replicate 10 0x41) with acts := [.writeReg 0 1] })
      (fun t => statusWord t == 1 && t.n == 10 && t.phase == .check) = true := by decide

/-- 44_codec_commands.md R178: START while a call runs is ignored. -/
theorem test_start_busy :
    nextIs (step { running .compress .lz80 .cToken [0x41] with acts := [.writeReg 0 1] })
      (fun t => t.phase == .cToken && t.n == 1) = true := by decide

/-- 20_memory.md R63 (c): a call has ended; the buffers are the host's from its read of STATUS on. -/
theorem test_buffers_after_status :
    let s := { finish (beginCall .compress .lz80 (ready .compress .lz80 1 [])) with acts := [.readIbuf 0] }
    buffersOwned s = true ∧ nextIs (step s) (fun _ => true) = false ∧
    nextIs (step { s with acts := [.readReg 4] }) (fun t => t.hostData == 2 && !buffersOwned t) = true := by decide

/-- Log entries 18, 19: the table's MATCH.lz80 with both fields 0 runs as the first instruction after reset; with no output
behind it its offset is before the start (43_token_decoder.md R146). -/
theorem test_withFetchWord :
    nextIs (step (State.reset.withFetchWord 24 0x800000)) (fun t => t.err == some .malformedStream && t.tLen == 3) = true := by
  decide

/-! ### Witnesses: for each statement with hypotheses, a state and operands that meet all of them; where it has clauses,
one for each, at the boundary of its range -/

theorem witness_DecodeInvertsEncode :
    Instr.wellFormed (.matchLz80 32768 258) = true ∧ Instr.wellFormed (.matchLz01 4096 18) = true ∧
    Instr.wellFormed (.matchLz03 8192 35) = true ∧ Instr.wellFormed (.matchLz03 1 4) = true ∧
    Instr.wellFormed (.padLz80 7) = true := by decide

theorem witness_EncodeInvertsDecode : decode (.token .lz01 (bits "110000010")) = .ok (.litLz01 0x41) := by decide

theorem witness_TokensDecodeWhateverFollows : matchWellFormed Fmt.lz03.spec 8192 35 = true := by decide

theorem witness_NoTokenPatternIsReserved : Fmt.lz01.spec.matchBits ≤ (bits "00000000000010110").length := by decide

theorem witness_StepRuns_header :
    (running .decompress .lz80 .dHdr (streamA .lz80)).acts = [] ∧
    (running .decompress .lz80 .dHdr (streamA .lz80)).phase = .dHdr ∧
    decodeHeader (headerBytes (running .decompress .lz80 .dHdr (streamA .lz80))) = .ok (.hdrLz80 10) := by decide

theorem witness_StepRuns_token :
    (reading .lz80 .dToken 0 10 [] (streamA .lz80)).acts = [] ∧
    (reading .lz80 .dToken 0 10 [] (streamA .lz80)).phase = .dToken ∧
    decodeToken .lz80 (streamBits 24 (reading .lz80 .dToken 0 10 [] (streamA .lz80))) =
      .ok (.litLz80 0x41, bits "100000000000000") := by decide

theorem witness_StepRuns_copy :
    (reading .lz80 .dCopy 33 10 [0x41] (streamA .lz80)).acts = [] ∧
    (reading .lz80 .dCopy 33 10 [0x41] (streamA .lz80)).phase = .dCopy := by decide

theorem witness_StepRuns_tail :
    (reading .lz80 .dTail 33 1 [0x41] (streamA .lz80)).acts = [] ∧
    (reading .lz80 .dTail 33 1 [0x41] (streamA .lz80)).phase = .dTail ∧
    decodeTail .lz80 (streamBits 8 (reading .lz80 .dTail 33 1 [0x41] (streamA .lz80))) = .ok (.padLz80 7) := by decide

theorem witness_StepRuns_command :
    (running .compress .lz01 .check []).acts = [] ∧ (running .compress .lz01 .check []).phase = .check ∧
    (running .compress .lz01 .cFlush []).acts = [] ∧ encoding (running .compress .lz01 .cFlush []) = true := by decide

theorem witness_StepRuns_start : ({ State.reset with acts := [.writeReg 0 1] } : State).acts = [.writeReg 0 1] := by decide

theorem witness_EngineTurn :
    ({ running .decompress .lz80 .check [] with acts := [.engine, .readReg 4] } : State).acts = [.engine, .readReg 4] ∧
    step { { running .decompress .lz80 .check [] with acts := [.engine, .readReg 4] } with acts := [] } =
      .next { running .decompress .lz80 .dHdr [] with acts := [] } := by
  exact ⟨rfl, rfl⟩

theorem witness_IdleEngine : State.reset.acts = [] ∧ State.reset.phase = .idle := by decide

theorem witness_ResetValues : (5 : Nat) < 6 := by decide

theorem witness_ResetAbandons :
    ({ running .compress .lz80 .cToken [0x41] with acts := [.reset] } : State).acts = [.reset] := by decide

theorem witness_StartBegins :
    (ready .compress .lz80 32768 [0x41]).callState ≠ .busy ∧
    decodeCommand (ready .compress .lz80 32768 [0x41]).cmd = some (.compress, .lz80) ∧
    ((ready .compress .lz80 32768 [0x41]).inLen.toNat ≤ 3817748702) := by decide

/-- The longest input a compress call may have; the longest a decompress call may have. -/
theorem witness_StartBegins_boundary :
    decodeCommand (0x00000303 : Word) = some (.compressFast, .lz03) ∧ (3817748702 : Word).toNat ≤ 3817748702 ∧
    decodeCommand (0x00000102 : Word) = some (.decompress, .lz01) ∧ (0xFFFFFFFF : Word).toNat > 3817748702 := by decide

theorem witness_StartRefused :
    (running .compress .lz80 .cHdr []).callState = .busy ∧
    State.reset.callState ≠ .busy ∧ decodeCommand State.reset.cmd = none ∧
    ({ ready .compress .lz80 1 [] with inLen := 3817748703 } : State).callState ≠ .busy ∧
    decodeCommand ({ ready .compress .lz80 1 [] with inLen := 3817748703 } : State).cmd = some (.compress, .lz80) ∧
    Op.compress ≠ Op.decompress ∧ ({ ready .compress .lz80 1 [] with inLen := 3817748703 } : State).inLen.toNat > 3817748702 := by
  decide

theorem witness_CompressChecks (f : Fmt) :
    (running .compress f .check []).op = .compress ∧ (running .compress f .check []).fmt = f ∧
    (running .compress f .check []).phase = .check := ⟨rfl, rfl, rfl⟩

/-- The first and the last good window, the first bad one on either side. -/
theorem witness_CompressChecks_boundary :
    (1 ≤ (1 : Word).toNat ∧ (1 : Word).toNat ≤ Fmt.lz01.spec.winMax) ∧
    (1 ≤ (4096 : Word).toNat ∧ (4096 : Word).toNat ≤ Fmt.lz01.spec.winMax) ∧
    ((0 : Word).toNat < 1) ∧ (4097 : Word).toNat > Fmt.lz01.spec.winMax := by decide

theorem witness_FastCompress (f : Fmt) :
    (running .compressFast f .check []).op = .compressFast ∧ (running .compressFast f .check []).fmt = f ∧
    (running .compressFast f .check []).phase = .check := ⟨rfl, rfl, rfl⟩

theorem witness_Decompress (f : Fmt) :
    (running .decompress f .check []).op = .decompress ∧ (running .decompress f .check []).fmt = f ∧
    (running .decompress f .check []).phase = .check := ⟨rfl, rfl, rfl⟩

theorem witness_EncoderHeader :
    Op.compressFast ≠ .decompress ∧ (running .compressFast .lz03 .cHdr [0x41]).op = .compressFast ∧
    (running .compressFast .lz03 .cHdr [0x41]).fmt = .lz03 ∧ (running .compressFast .lz03 .cHdr [0x41]).phase = .cHdr ∧
    (running .compressFast .lz03 .cHdr [0x41]).n < 2 ^ 32 := by decide

/-- At cursor 0 the finder answers a literal, at cursor 1 a match. -/
theorem witness_EncoderEmits (cur : Nat) (h : cur = 0 ∨ cur = 1) :
    let s := writing .lz01 .cToken 4096 cur (List.replicate 10 0x41)
    Op.compress ≠ .decompress ∧ s.op = .compress ∧ s.fmt = .lz01 ∧ s.phase = .cToken ∧ s.cur < s.n ∧ PackerReady s ∧
    s.index = indexOf (ibufByte s) s.n s.cur ∧
    findSpec s.fmt.spec (ibufByte s) s.n s.w s.cur = if cur = 0 then none else some (1, 9) := by
  rcases h with rfl | rfl
  · exact ⟨by decide, rfl, rfl, rfl, by decide, ⟨by decide, by decide, by decide⟩, rfl, by decide⟩
  · exact ⟨by decide, rfl, rfl, rfl, by decide, ⟨by decide, by decide, by decide⟩, rfl, by decide⟩

/-- No bit left over, and one. -/
theorem witness_EncoderFlushes (b : Bool) :
    let s := { writing .lz03 .cFlush 1 1 [0x41] with acc := if b then 0x80 else 0, nacc := b.toNat }
    Op.compress ≠ .decompress ∧ s.op = .compress ∧ s.fmt = .lz03 ∧ s.phase = .cFlush ∧ PackerReady s ∧
    s.olen < 4294967295 ∧ s.nacc = b.toNat := by
  cases b
  · exact ⟨by decide, rfl, rfl, rfl, ⟨by decide, by decide, by decide⟩, by decide, rfl⟩
  · exact ⟨by decide, rfl, rfl, rfl, ⟨by decide, by decide, by decide⟩, by decide, rfl⟩

theorem witness_HeaderRecord (f : Fmt) :
    (running .decompress f .dHdr [f.spec.tag, 0, 0, 0, 0]).phase = .dHdr ∧
    (running .decompress f .dHdr [f.spec.tag, 0, 0, 0, 0]).fmt = f ∧
    5 ≤ (running .decompress f .dHdr [f.spec.tag, 0, 0, 0, 0]).n := ⟨rfl, rfl, by cases f <;> decide⟩

theorem witness_HeaderStep :
    (running .decompress .lz80 .dHdr [0x80]).acts = [] ∧ (running .decompress .lz80 .dHdr [0x80]).phase = .dHdr := by decide

/-- Nine bits left exactly. -/
theorem witness_LiteralRecord (f : Fmt) :
    (reading f .dToken 7 1 [] [0, 0, 0, 0, 0, 0, 0]).phase = .dToken ∧
    (reading f .dToken 7 1 [] [0, 0, 0, 0, 0, 0, 0]).fmt = f ∧
    9 ≤ (reading f .dToken 7 1 [] [0, 0, 0, 0, 0, 0, 0]).tBits - (reading f .dToken 7 1 [] [0, 0, 0, 0, 0, 0, 0]).c :=
  ⟨rfl, rfl, by cases f <;> decide⟩

/-- A literal flag with its byte, and one with only seven bits after it. -/
theorem witness_LiteralStep (c : Nat) (h : c = 0 ∨ c = 32) :
    let s := reading .lz80 .dToken c 10 [] (streamA .lz80)
    s.acts = [] ∧ s.phase = .dToken ∧ s.c < s.tBits ∧ streamBit s.fmt s s.c = s.fmt.spec.flagLit := by
  rcases h with rfl | rfl <;> decide

theorem witness_ExhaustedStream :
    (reading .lz80 .dToken 40 10 [0x41] (streamA .lz80)).acts = [] ∧
    (reading .lz80 .dToken 40 10 [0x41] (streamA .lz80)).phase = .dToken ∧
    (reading .lz80 .dToken 40 10 [0x41] (streamA .lz80)).tBits -
      (reading .lz80 .dToken 40 10 [0x41] (streamA .lz80)).c = 0 := by decide

/-- The longest lz80 match at its farthest, that just fits; then an offset one too far, and a length one too long. -/
theorem witness_MatchRecord :
    let s := { reading .lz80 .dToken 0 33026 [] [0, 0, 0, 0, 0, 0, 0, 0] with olen := 32768 }
    s.phase = .dToken ∧ s.fmt = .lz80 ∧ Fmt.lz80.spec.matchBits ≤ s.tBits - s.c ∧
    (32768 ≤ s.olen ∧ s.olen + 258 ≤ s.origLen) ∧ (32769 > s.olen) ∧ (32768 ≤ s.olen ∧ s.olen + 259 > s.origLen) := by
  decide

/-- All 19 bits there; after the flag one bit too few for the offset; one bit too few for the length. -/
theorem witness_MatchStep (c : Nat) (h : c = 9 ∨ c = 19 ∨ c = 14) :
    let s := reading .lz03 .dToken c 10 [0x41] (streamA .lz03)
    s.fmt.spec = Fmt.lz03.spec ∧ s.acts = [] ∧ s.phase = .dToken ∧ s.c < s.tBits ∧
    streamBit s.fmt s s.c = Fmt.lz03.spec.flagMatch ∧
    (c = 9 → Fmt.lz03.spec.matchBits ≤ s.tBits - s.c) ∧ (c = 19 → s.tBits - s.c = Fmt.lz03.spec.offBits) ∧
    (c = 14 → s.tBits - s.c = Fmt.lz03.spec.matchBits - 1) := by
  rcases h with rfl | rfl | rfl <;> decide

/-- The last byte of a copy, and one before it. -/
theorem witness_CopyMoves (f : Fmt) :
    let s := { reading f .dCopy 0 2 [0x41] [] with tOff := 1, tLen := 4, wr := 1, rem := 1 }
    s.phase = .dCopy ∧ s.fmt = f ∧ 0 < s.rem ∧ 0 < { s with rem := 4 }.rem :=
  ⟨rfl, rfl, by simp, by simp⟩

/-- A copy that overlaps itself: offset 1, nine bytes. -/
theorem witness_CopyRepeats :
    let s := { reading .lz80 .dCopy 33 10 [0x41] (streamA .lz80) with tOff := 1, tLen := 9, rd := 0, wr := 1, rem := 9 }
    s.acts = [] ∧ s.phase = .dCopy ∧ 0 < s.rem ∧ 1 ≤ s.tOff ∧ s.wr = s.olen ∧ s.rd + s.tOff = s.wr := by decide

/-- Seven padding bits, the most there can be. -/
theorem witness_PadRecord :
    let s := reading .lz80 .dTail 33 1 [0x41] (streamA .lz80)
    s.phase = .dTail ∧ s.fmt = .lz80 ∧ 5 ≤ s.n ∧ s.tBits = 8 * (s.n - 5) ∧ s.tBits = s.c + 7 ∧ 7 ≤ 7 ∧
    ∀ k, s.c ≤ k → k < s.tBits → streamBit .lz80 s k = false := by
  refine ⟨by decide, by decide, by decide, by decide, by decide, by decide, fun k h1 h2 => ?_⟩
  have a1 : 33 ≤ k := h1
  have a2 : k < 40 := h2
  interval_cases k <;> decide

/-- Eight bits left: a whole byte. -/
theorem witness_TailStep_long :
    let s := reading .lz80 .dTail 32 1 [0x41] (streamA .lz80)
    s.acts = [] ∧ s.phase = .dTail ∧ 5 ≤ s.n ∧ s.tBits = 8 * (s.n - 5) ∧ s.c ≤ s.tBits ∧
    (s.n - 5) - (s.c + 7) / 8 > 0 := by decide

/-- One padding bit, and it is 1. -/
theorem witness_TailStep_set :
    let s := reading .lz80 .dTail 7 0 [] [0x80, 0, 0, 0, 0, 0x01]
    s.acts = [] ∧ s.phase = .dTail ∧ 5 ≤ s.n ∧ s.tBits = 8 * (s.n - 5) ∧ s.c ≤ s.tBits ∧
    (s.n - 5) - (s.c + 7) / 8 = 0 ∧ ∃ k, s.c ≤ k ∧ k < s.tBits ∧ streamBit s.fmt s k = true :=
  ⟨rfl, rfl, by decide, rfl, by decide, rfl, 7, by decide, by decide, by decide⟩

/-- No padding at all. -/
theorem witness_TailStep_done :
    let s := reading .lz80 .dTail 0 0 [] [0x80, 0, 0, 0, 0]
    s.acts = [] ∧ s.phase = .dTail ∧ 5 ≤ s.n ∧ s.tBits = 8 * (s.n - 5) ∧ s.c ≤ s.tBits ∧
    (s.n - 5) - (s.c + 7) / 8 = 0 ∧ ∀ k, s.c ≤ k → k < s.tBits → streamBit s.fmt s k = false :=
  ⟨rfl, rfl, by decide, rfl, by decide, rfl, fun k _ h => absurd h (Nat.not_lt_zero k)⟩

/-- Every phase away from its own; another format; a PAD too short; another match than the one copied; another operation;
a compress command at `P_IDLE`; a decompress command past `P_CHECK`. -/
theorem witness_OutOfSequence :
    State.reset.phase ≠ .dHdr ∧ State.reset.phase ≠ .dToken ∧ State.reset.phase ≠ .dCopy ∧ State.reset.phase ≠ .dTail ∧
    State.reset.fmt ≠ .lz01 ∧ State.reset.op ≠ .decompress ∧
    (running .decompress .lz80 .dHdr []).phase = .dHdr ∧ (running .decompress .lz80 .dHdr []).fmt ≠ .lz03 ∧
    (reading .lz80 .dTail 33 1 [0x41] (streamA .lz80)).tBits - (reading .lz80 .dTail 33 1 [0x41] (streamA .lz80)).c ≠ 6 ∧
    (reading .lz80 .dCopy 33 10 [0x41] (streamA .lz80)).phase = .dCopy ∧
    (reading .lz80 .dCopy 33 10 [0x41] (streamA .lz80)).tOff ≠ 1 ∧
    Op.compress ≠ .decompress ∧ State.reset.phase ≠ .check ∧ encoding State.reset = false ∧
    (running .decompress .lz80 .dToken []).phase ≠ .check := by decide

/-- The last register there is, and START, in a running call. -/
theorem witness_BusyIgnores :
    let s := running .compress .lz80 .cToken [0x41]
    ({ s with acts := [.writeReg 5 7] } : State).acts = [.writeReg 5 7] ∧ (5 : Nat) ≤ 5 ∧
    ({ s with acts := [.writeReg 0 1] } : State).acts = [.writeReg 0 1] ∧ (0 : Nat) ≤ 5 ∧ s.callState = .busy := by decide

theorem witness_RegisterWrites (number : Nat) (value : Word) :
    ({ State.reset with acts := [.writeReg number value] } : State).acts = [.writeReg number value] ∧
    ({ State.reset with acts := [.writeReg number value] } : State).callState ≠ .busy := ⟨rfl, by simp [State.reset]⟩

theorem witness_RegisterWrites_clauses : (2 : Word) ≠ 0 ∧ (2 : Word) ≠ 1 ∧ 6 ≤ 6 := by decide

theorem witness_RegisterReads (number : Nat) :
    ({ State.reset with acts := [.readReg number] } : State).acts = [.readReg number] ∧ State.reset.callState = .idle ∧
    (raise .lengthMismatch State.reset).callState = .failed ∧ 6 ≤ 6 := ⟨rfl, rfl, rfl, le_refl _⟩

theorem witness_ReadOnly :
    ({ State.reset with acts := [.writeReg 4 7] } : State).acts = [.writeReg 4 7] ∧
    ({ State.reset with acts := [.writeReg 5 7] } : State).acts = [.writeReg 5 7] := by decide

/-- The first and the last index; a result of one byte and the byte after it; a running call, and one whose end the host
has not read. -/
theorem witness_HostBuffer :
    let s := { State.reset with acts := [.readObuf 0], callState := .done, outLen := 1 }
    (0xFFFFFFFE : Word).toNat < 4294967295 ∧ State.reset.callState ≠ .busy ∧ State.reset.awaitingEnd = false ∧
    ({ State.reset with acts := [.writeIbuf 0xFFFFFFFE 7] } : State).acts = [.writeIbuf 0xFFFFFFFE 7] ∧
    ({ State.reset with acts := [.readIbuf 0] } : State).acts = [.readIbuf 0] ∧
    s.acts = [.readObuf 0] ∧ s.callState = .done ∧ s.callState ≠ .busy ∧ s.awaitingEnd = false ∧
    (0 : Word).toNat < s.outLen.toNat ∧ s.outLen.toNat ≤ (1 : Word).toNat ∧
    State.reset.callState ≠ .done ∧ { s with callState := .busy }.callState = .busy ∧
    { s with awaitingEnd := true }.awaitingEnd = true := by decide

theorem witness_HostBufferStops :
    ({ State.reset with acts := [.readIbuf 0xFFFFFFFF] } : State).acts = [.readIbuf 0xFFFFFFFF] ∧
    ({ State.reset with acts := [.writeObuf 0 7] } : State).acts = [.writeObuf 0 7] ∧
    State.reset.callState ≠ .busy ∧ State.reset.awaitingEnd = false ∧
    (running .compress .lz80 .check []).callState = .busy := by decide

theorem witness_BufferReads : Mem.wf [(0, 0x41), (4294967294, 0x42)] = true ∧ (1 : Nat) ≠ 0 := by decide

/-- The state after START of an empty compress call meets the invariant. -/
theorem witness_inv_busy : EngineInv (beginCall .compress .lz80 (ready .compress .lz80 1 [])) where
  status := by constructor <;> simp [beginCall, encoding, decoding]
  latch := ⟨fun _ => by decide, fun _ => by decide, fun _ _ => by decide, fun _ => rfl, fun h => by cases h⟩
  form := by constructor <;> simp [beginCall, ready, State.reset, loadIbuf, Mem.wf, cellsWf]
  fit := by constructor <;> simp [beginCall, ready, State.reset]
  enc := by constructor <;> simp [beginCall, encoding]
  dec := by constructor <;> simp [beginCall, decoding]

theorem witness_StepKeeps :
    EngineInv (beginCall .compress .lz80 (ready .compress .lz80 1 [])) ∧
    step (beginCall .compress .lz80 (ready .compress .lz80 1 [])) =
      .next (checkWindow (beginCall .compress .lz80 (ready .compress .lz80 1 []))) := ⟨witness_inv_busy, rfl⟩

theorem witness_EngineNeverStops :
    EngineInv (beginCall .compress .lz80 (ready .compress .lz80 1 [])) ∧
    (beginCall .compress .lz80 (ready .compress .lz80 1 [])).acts = [] := ⟨witness_inv_busy, rfl⟩

theorem witness_EngineLeaves :
    (running .decompress .lz80 .check []).acts = [] ∧
    step (running .decompress .lz80 .check []) = .next (running .decompress .lz80 .dHdr []) := ⟨rfl, rfl⟩

theorem witness_EngineOnlyAppends :
    EngineInv (beginCall .compress .lz80 (ready .compress .lz80 1 [])) ∧
    (beginCall .compress .lz80 (ready .compress .lz80 1 [])).acts = [] ∧
    step (beginCall .compress .lz80 (ready .compress .lz80 1 [])) =
      .next (checkWindow (beginCall .compress .lz80 (ready .compress .lz80 1 []))) := ⟨witness_inv_busy, rfl, rfl⟩

theorem witness_FailedIsSticky :
    StatusInv (raise .malformedStream State.reset) ∧ (raise .malformedStream State.reset).callState = .failed ∧
    step (raise .malformedStream State.reset) = .next (raise .malformedStream State.reset) :=
  ⟨by constructor <;> simp [raise, encoding, decoding], rfl, rfl⟩

theorem witness_EveryCallEnds :
    EngineInv (beginCall .compress .lz80 (ready .compress .lz80 1 [])) ∧
    (beginCall .compress .lz80 (ready .compress .lz80 1 [])).callState = .busy := ⟨witness_inv_busy, rfl⟩

theorem witness_EnginesAreIndependent :
    (0 : Nat) ≠ 1 ∧ stepEngine 0 (engines 2) = .next (engines 2) ∧ stepEngine 1 (engines 2) = .next (engines 2) :=
  ⟨by decide, rfl, rfl⟩

/-- The bytes of a list, 0 past its end. -/
def dataOf (data : List Byte) : Nat → Byte := fun a => data.getD a 0

/-- A cursor at which the finder answers, one at which it does not (cursor 0), one with a tail too short. -/
theorem witness_Find :
    (1 < 10 ∧ mfFind Fmt.lz80.spec (dataOf (List.replicate 10 0x41)) 10 32768 1
      (indexOf (dataOf (List.replicate 10 0x41)) 10 1) = some (1, 9)) ∧
    (0 < 10 ∧ mfFind Fmt.lz80.spec (dataOf (List.replicate 10 0x41)) 10 32768 0
      (indexOf (dataOf (List.replicate 10 0x41)) 10 0) = none) ∧
    (8 < 10 ∧ mfFind Fmt.lz80.spec (dataOf (List.replicate 10 0x41)) 10 32768 8
      (indexOf (dataOf (List.replicate 10 0x41)) 10 8) = none) := by decide

theorem witness_FoundMatchFits :
    1 < 10 ∧ 1 ≤ 1 ∧ 1 ≤ Fmt.lz80.spec.winMax ∧ mfFind Fmt.lz80.spec (dataOf (List.replicate 10 0x41)) 10 1 1
      (indexOf (dataOf (List.replicate 10 0x41)) 10 1) = some (1, 9) := by decide

theorem witness_LargerWindow :
    1 < 10 ∧ 1 ≤ 32768 ∧ mfFind Fmt.lz80.spec (dataOf (List.replicate 10 0x41)) 10 1 1
      (indexOf (dataOf (List.replicate 10 0x41)) 10 1) = some (1, 9) := by decide

/-- A call's data in IBUF, for an empty call, one byte, and a stream. -/
theorem witness_Loaded :
    Loaded [] (ready .compress .lz80 1 []) ∧ Loaded [0x41] (ready .compress .lz03 1 [0x41]) ∧
    Loaded (streamA .lz80) (ready .decompress .lz80 0 (streamA .lz80)) := by
  refine ⟨⟨by decide, by decide⟩, ⟨by decide, by decide⟩, ⟨by decide, by decide⟩⟩

theorem witness_CompressComputes :
    Loaded [0x41] (ready .compress .lz03 1 [0x41]) ∧ ([0x41] : List Byte).length ≤ 3817748702 :=
  ⟨witness_Loaded.2.1, by decide⟩

/-- The largest window lz03 has; for COMPRESS_FAST a WINDOW_SIZE that COMPRESS would reject. -/
theorem witness_DecompressInverts :
    Loaded [0x41] (ready .compress .lz03 8192 [0x41]) ∧ ([0x41] : List Byte).length ≤ 3817748702 ∧
    1 ≤ (ready .compress .lz03 8192 [0x41]).windowSize.toNat ∧
    (ready .compress .lz03 8192 [0x41]).windowSize.toNat ≤ Fmt.lz03.spec.winMax ∧ Op.compress ≠ .decompress ∧
    Loaded [0x41] (ready .compressFast .lz03 0 [0x41]) ∧ Op.compressFast ≠ .decompress ∧ Op.compressFast ≠ .compress :=
  ⟨⟨by decide, by decide⟩, by decide, by decide, by decide, by decide, ⟨by decide, by decide⟩, by decide, by decide⟩

theorem witness_CompressCannotFail :
    Op.compress ≠ .decompress ∧ (ready .compress .lz80 32768 [0x41]).inLen.toNat ≤ 3817748702 ∧
    1 ≤ (ready .compress .lz80 32768 [0x41]).windowSize.toNat ∧
    (ready .compress .lz80 32768 [0x41]).windowSize.toNat ≤ Fmt.lz80.spec.winMax := by decide

/-- An empty compress call and its five bytes, from reset and from a state an earlier call left; for COMPRESS_FAST the
windows may differ. -/
theorem witness_EarlierCalls :
    let s := ready .compress .lz80 1 []
    let u := { ready .compress .lz80 1 [] with cur := 7, olen := 9, obuf := [(0, 7), (6, 7)], head := [(3, 3)] }
    s.inLen = u.inLen ∧ s.windowSize = u.windowSize ∧ s.inLen.toNat ≤ 3817748702 ∧
    (∀ a < s.inLen.toNat, ibufByte s a = ibufByte u a) ∧ CallComputes .compress .lz80 s (.ok [0x80, 0, 0, 0, 0]) ∧
    CallComputes .compressFast .lz80 { s with windowSize := 0 } (.ok [0x80, 0, 0, 0, 0]) := by
  refine ⟨rfl, rfl, by decide, fun a h => absurd h (Nat.not_lt_zero a),
    ⟨3, _, rfl, rfl, rfl, rfl, by decide, by decide⟩, ⟨3, _, rfl, rfl, rfl, rfl, by decide, by decide⟩⟩

/-- One byte 0x41 in lz80, its stream cut by one byte, and its declared length raised by one. -/
theorem witness_Damaged :
    let S := streamOf .lz80 1 (tokensOf Fmt.lz80.spec [0x41] 1)
    ([0x41] : List Byte).length ≤ 3817748702 ∧ 1 ≤ 1 ∧ 1 ≤ Fmt.lz80.spec.winMax ∧
    (6 < S.length ∧ Loaded (S.take 6) (ready .decompress .lz80 0 [0x80, 0x01, 0, 0, 0, 0x20])) ∧
    ((2 : Word).toNat ≠ 1 ∧
      Loaded (hdrBytes .lz80 2 ++ S.drop 5) (ready .decompress .lz80 0 [0x80, 0x02, 0, 0, 0, 0x20, 0x80])) := by
  refine ⟨by decide, by decide, by decide, ⟨by decide, ⟨by decide, by decide⟩⟩, by decide, ⟨by decide, by decide⟩⟩

end Sys2Proof.Tests
end

/-! SUPPORT. Every step keeps the invariant of the engine: the format table's bounds, what buffer writes list, the parts of
the invariant under the updates that steps are made of, then the encoder, the decoder and the host. -/

namespace Sys2Proof.Machine

/-! The bounds of the format table (30_encoding.md R72) that the widths of 10_state.md R20 rest on. -/

@[simp] theorem winMin_eq_one (f : Fmt) : f.spec.winMin = 1 := by cases f <;> rfl

theorem winMax_le (f : Fmt) : f.spec.winMax ≤ 32768 := by cases f <;> decide

theorem fastWindow_le_winMax (f : Fmt) : Config.fastWindow ≤ f.spec.winMax := by cases f <;> decide

theorem minLen_pos (f : Fmt) : 0 < f.spec.minLen := by cases f <;> decide

theorem maxLen_lt (f : Fmt) : f.spec.maxLen < 2 ^ 9 := by cases f <;> decide

theorem two_pow_offBits_lt (f : Fmt) : 2 ^ f.spec.offBits < 2 ^ 16 := by cases f <;> decide

theorem two_pow_lenBits_add_minLen_lt (f : Fmt) : 2 ^ f.spec.lenBits + f.spec.minLen < 2 ^ 9 := by cases f <;> decide

/-- A match is no longer than the literals it replaces (42_token_encoder.md R131). -/
theorem matchBits_le_nine_mul_minLen (f : Fmt) : f.spec.matchBits ≤ 9 * f.spec.minLen := by cases f <;> decide

/-! Which indices a buffer lists after a write. -/

theorem memWrite_below {m : Mem} {a : Nat} (v : Byte) (hm : ∀ b, (cellGet m b).isSome = true → b < Config.cap)
    (ha : a < Config.cap) (b : Nat) (hb : (cellGet (memWrite m a v) b).isSome = true) : b < Config.cap := by
  rw [cellGet_memWrite] at hb
  split at hb
  · next h => rwa [h]
  · exact hm b hb

theorem memWriteBytes_below {m : Mem} {a : Nat} {bytes : List Byte}
    (hm : ∀ b, (cellGet m b).isSome = true → b < Config.cap) (ha : a + bytes.length ≤ Config.cap) (b : Nat)
    (hb : (cellGet (memWriteBytes m a bytes) b).isSome = true) : b < Config.cap := by
  rw [cellGet_memWriteBytes] at hb
  split at hb
  · omega
  · exact hm b hb

theorem memWrite_written {m : Mem} {k : Nat} (v : Byte) (hm : ∀ a < k, (cellGet m a).isSome = true) (a : Nat)
    (ha : a < k + 1) : (cellGet (memWrite m k v) a).isSome = true := by
  rw [cellGet_memWrite]
  split
  · rfl
  · exact hm a (by omega)

theorem Packer.Grew.below {p q : Packer} {k : Nat} (h : p.Grew q k)
    (hp : ∀ b, (cellGet p.obuf b).isSome = true → b < Config.cap) (hq : q.olen ≤ Config.cap) (b : Nat)
    (hb : (cellGet q.obuf b).isSome = true) : b < Config.cap := by
  by_cases hlt : b < q.olen
  · omega
  · rw [h.outside b (by omega)] at hb
    exact hp b hb

/-! The parts of the invariant under the updates that steps are made of. -/

/-- `t` is in the same call as `s`: what START latched and what the host reads of a running call stay
(44_codec_commands.md R171, R178). -/
structure SameCall (s t : State) : Prop where
  cmd : t.cmd = s.cmd := by rfl
  inLen : t.inLen = s.inLen := by rfl
  outLen : t.outLen = s.outLen := by rfl
  callState : t.callState = s.callState := by rfl
  err : t.err = s.err := by rfl
  op : t.op = s.op := by rfl
  fmt : t.fmt = s.fmt := by rfl
  n : t.n = s.n := by rfl
  awaitingEnd : t.awaitingEnd = s.awaitingEnd := by rfl

theorem LatchInv.of_sameCall {s t : State} (h : LatchInv s) (hc : SameCall s t) : LatchInv t where
  latched_n := by simpa only [hc.callState, hc.n, hc.inLen] using h.latched_n
  latched_cmd := by simpa only [hc.callState, hc.cmd, hc.op, hc.fmt] using h.latched_cmd
  capacity := by simpa only [hc.callState, hc.op, hc.n] using h.capacity
  owner := by simpa only [hc.callState, hc.awaitingEnd] using h.owner
  free := by simpa only [hc.callState, hc.awaitingEnd] using h.free

theorem StatusInv.of_sameCall {s t : State} (h : StatusInv s) (hc : SameCall s t) (hs : s.phase ≠ .idle)
    (ht : t.phase ≠ .idle) (he : encoding t = true → s.op ≠ .decompress)
    (hd : decoding t = true ∨ t.phase = .dHdr → s.op = .decompress) : StatusInv t where
  idle_iff := by simp [ht, hc.callState, h.busy hs]
  err_iff := by simpa only [hc.callState, hc.err] using h.err_iff
  outLen_zero := by simpa only [hc.callState, hc.outLen] using h.outLen_zero
  encoding_op := by simpa only [hc.op] using he
  decoding_op := by simpa only [hc.op] using hd

/-- A step of a running call into a phase of the encoder. -/
theorem EngineInv.of_encoding {s t : State} (hi : EngineInv s) (hs : s.phase ≠ .idle) (hop : s.op ≠ .decompress)
    (hc : SameCall s t) (ht : encoding t = true) (hform : FormInv t) (hfit : RegsFit t) (henc : EncInv t) :
    EngineInv t := by
  have hp : t.phase = .cHdr ∨ t.phase = .cToken ∨ t.phase = .cFlush := by simpa [encoding] using ht
  refine ⟨hi.status.of_sameCall hc hs ?_ (fun _ => hop) ?_, hi.latch.of_sameCall hc, hform, hfit, henc,
    decInv_of_phase ?_⟩ <;> rcases hp with hp | hp | hp <;> simp [hp, decoding]

/-- A step of a running call into a phase of the decoder, its header's among them. -/
theorem EngineInv.of_decoding {s t : State} (hi : EngineInv s) (hs : s.phase ≠ .idle) (hop : s.op = .decompress)
    (hc : SameCall s t) (ht : decoding t = true ∨ t.phase = .dHdr) (hform : FormInv t) (hfit : RegsFit t)
    (hdec : DecInv t) : EngineInv t := by
  have hp : (t.phase = .dToken ∨ t.phase = .dCopy ∨ t.phase = .dTail) ∨ t.phase = .dHdr := by simpa [decoding] using ht
  refine ⟨hi.status.of_sameCall hc hs ?_ ?_ (fun _ => hop), hi.latch.of_sameCall hc, hform, hfit,
    encInv_of_phase ?_, hdec⟩ <;> rcases hp with (hp | hp | hp) | hp <;> simp [hp, encoding]

/-- Error entry (60_exceptions.md R196): only the forms and the widths are asked of the state before. -/
theorem engineInv_raise {s : State} (e : ErrKind) (hf : FormInv s) (hr : RegsFit s) : EngineInv (raise e s) := by
  refine .of_idle rfl (by simp) ?_ { hf with } { hr with }
  constructor <;> simp [encoding, decoding]

/-- Successful completion (44_codec_commands.md R175). -/
theorem engineInv_finish {s : State} (he : s.err = none) (hf : FormInv s) (hr : RegsFit s) : EngineInv (finish s) := by
  refine .of_idle rfl (by simp) ?_ { hf with } { hr with }
  constructor <;> simp [encoding, decoding, he]

theorem EngineInv.err_eq_none {s : State} (hi : EngineInv s) (hp : s.phase ≠ .idle) : s.err = none := by
  by_contra h
  have hfailed := hi.status.err_iff.1 h
  rw [hi.status.busy hp] at hfailed
  cases hfailed

theorem EngineInv.setActs {s : State} (hi : EngineInv s) (acts : List HostAct) : EngineInv { s with acts := acts } :=
  ⟨{ hi.status with }, { hi.latch with }, { hi.form with }, { hi.fit with }, { hi.enc with }, { hi.dec with }⟩

/-! The encoder's steps (42_token_encoder.md R128). -/

/-- The size bound keeps the output below `CAP` (42_token_encoder.md R131, 44_codec_commands.md R180). -/
theorem olen_lt_cap {olen nacc cur n : Nat} (hs : 8 * (olen - 5) + nacc ≤ 9 * cur) (hc : cur ≤ n)
    (hn : n ≤ Config.maxCompressLen) : olen < Config.cap := by
  unfold Config.maxCompressLen at hn
  unfold Config.cap
  omega

theorem EngineInv.n_le {s : State} (hi : EngineInv s) (hp : s.phase ≠ .idle) (hop : s.op ≠ .decompress) :
    s.n ≤ Config.maxCompressLen := hi.latch.capacity (hi.status.busy hp) hop

theorem engineInv_startEncode {s : State} {w : Nat} (hi : EngineInv s) (hp : s.phase = .check) (hop : s.op ≠ .decompress)
    (h1 : 1 ≤ w) (hw : w ≤ s.fmt.spec.winMax) : EngineInv (startEncode w s) := by
  have hmax := winMax_le s.fmt
  refine hi.of_encoding (by simp [hp]) hop {} (by simp [encoding]) { hi.form with }
    { hi.fit with w := show w < 2 ^ 32 by omega } ?_
  exact { window := fun _ => ⟨h1, hw⟩, index := by simp, size := by simp, header := fun _ => hi.enc.header (.inl hp)
          clean := by simp, more := by simp, last := by simp }

theorem engineInv_checkWindow {s : State} (hi : EngineInv s) (hp : s.phase = .check) (hop : s.op ≠ .decompress) :
    EngineInv (checkWindow s) := by
  unfold checkWindow
  split
  · exact engineInv_raise _ hi.form hi.fit
  · next hw =>
    rw [winMin_eq_one] at hw
    exact engineInv_startEncode hi hp hop (by omega) (by omega)

theorem engineInv_encodeHeader {s : State} (hi : EngineInv s) (hp : s.phase = .cHdr) (hop : s.op ≠ .decompress) :
    EngineInv (encodeHeader s) := by
  obtain ⟨hhead, hprev, -⟩ := hi.enc.header (.inr hp)
  have hphase := encodeHeader_phase s
  have henc : encoding (encodeHeader s) = true := by rcases hphase with ⟨h, -⟩ | ⟨h, -⟩ <;> simp [encoding, h]
  have hform : FormInv (encodeHeader s) :=
    { hi.form with
      obuf_wf := memWriteBytes_wf hi.form.obuf_wf _ _
      obuf_cap := memWriteBytes_below hi.form.obuf_cap (show 0 + 5 ≤ Config.cap by decide) }
  have hfit : RegsFit (encodeHeader s) :=
    { hi.fit with cur := Nat.two_pow_pos 32, olen := show 5 < 2 ^ 32 by decide, nacc := Nat.two_pow_pos 3 }
  refine hi.of_encoding (by simp [hp]) hop {} henc hform hfit ?_
  exact
    { window := fun _ => hi.enc.window (by simp [encoding, hp])
      index := fun _ => show Index.mk s.head s.prev = _ by rw [hhead, hprev]; rfl
      size := fun _ => ⟨le_refl 5, Nat.zero_le 7, le_refl 0⟩
      header := by rcases hphase with ⟨h, -⟩ | ⟨h, -⟩ <;> simp [h]
      clean := fun _ k _ _ => BitVec.getLsbD_zero
      more := by
        rcases hphase with ⟨h, hn⟩ | ⟨h, -⟩
        · exact fun _ => hn
        · simp [h]
      last := by
        rcases hphase with ⟨h, -⟩ | ⟨h, hn⟩
        · simp [h]
        · exact fun _ => hn.symm }

/-- In `C_TOKEN` the token registers are free within their widths: only the decoder's copy relies on them. -/
theorem EngineInv.setToken {s : State} (hi : EngineInv s) (hp : s.phase = .cToken) (kind : TokenKind) (byte : Byte)
    {off len : Nat} (ho : off < 2 ^ 16) (hl : len < 2 ^ 9) :
    EngineInv { s with tKind := kind, tByte := byte, tOff := off, tLen := len } :=
  ⟨{ hi.status with }, { hi.latch with }, { hi.form with }, { hi.fit with tOff := ho, tLen := hl }, { hi.enc with },
    decInv_of_phase (by simp [hp])⟩

/-- The index after the positions a token covers (41_match_finder.md R102, R107). -/
theorem mfInsertRange_indexOf (D : Nat → Byte) (n i count : Nat) :
    mfInsertRange D n i count (indexOf D n i) = indexOf D n (i + count) := by
  rw [indexOf, indexOf, mfInsertRange_add, Nat.zero_add]

/-- One token of the encoder: its bits are put, no more than 9 for each byte it covers. -/
theorem engineInv_encodeAdvance {s : State} {bits : List Bool} {adv : Nat} (hi : EngineInv s) (hp : s.phase = .cToken)
    (hop : s.op ≠ .decompress) (hbits : bits.length ≤ 9 * adv) (hadv : s.cur + adv ≤ s.n) :
    EngineInv (encodeAdvance (putBits s.fmt.spec.order bits s.packer) adv s) := by
  obtain ⟨h5, h7, hsize⟩ := hi.enc.size (.inl hp)
  have hindex := hi.enc.index (.inl hp)
  have hgrew := putBits_grew s.fmt.spec.order bits s.packer h7
  have hplaces := putBits_places s.fmt.spec.order (fun _ => 0) bits s.packer h7 h5 (hi.enc.clean (.inl hp))
  have hphase := encodeAdvance_phase (putBits s.fmt.spec.order bits s.packer) adv s
  generalize putBits s.fmt.spec.order bits s.packer = q at hgrew hplaces hphase ⊢
  have hcount : 8 * q.olen + q.nacc = 8 * s.olen + s.nacc + bits.length := hgrew.count
  have holen : s.olen ≤ q.olen := hgrew.olen
  have hsize' : 8 * (q.olen - 5) + q.nacc ≤ 9 * (s.cur + adv) := by omega
  have hcap := olen_lt_cap hsize' hadv (hi.n_le (by simp [hp]) hop)
  have hn := hi.fit.n
  obtain ⟨hhead, hprev⟩ := mfInsertRange_wf (ibufByte s) s.n s.cur adv (x := s.index) ⟨hi.form.head_wf, hi.form.prev_wf⟩
  have henc : encoding (encodeAdvance q adv s) = true := by rcases hphase with ⟨h, -⟩ | ⟨h, -⟩ <;> simp [encoding, h]
  have hform : FormInv (encodeAdvance q adv s) :=
    { hi.form with
      obuf_wf := hgrew.wf hi.form.obuf_wf
      obuf_cap := hgrew.below hi.form.obuf_cap hcap.le
      head_wf := hhead
      prev_wf := hprev }
  have hfit : RegsFit (encodeAdvance q adv s) :=
    { hi.fit with
      cur := show s.cur + adv < 2 ^ 32 by omega
      olen := show q.olen < 2 ^ 32 by unfold Config.cap at hcap; omega
      nacc := show q.nacc < 2 ^ 3 by have := hgrew.nacc; omega }
  refine hi.of_encoding (by simp [hp]) hop {} henc hform hfit ?_
  exact
    { window := fun _ => hi.enc.window (by simp [encoding, hp])
      index := fun _ =>
        show mfInsertRange (ibufByte s) s.n s.cur adv s.index = indexOf (ibufByte s) s.n (s.cur + adv) by
          rw [hindex, mfInsertRange_indexOf]
      size := fun _ => ⟨h5.trans holen, hgrew.nacc, hsize'⟩
      header := by rcases hphase with ⟨h, -⟩ | ⟨h, -⟩ <;> simp [h]
      clean := fun _ => hplaces.1
      more := by
        rcases hphase with ⟨-, hlt⟩ | ⟨h, -⟩
        · exact fun _ => hlt
        · simp [h]
      last := by
        rcases hphase with ⟨h, -⟩ | ⟨-, hge⟩
        · simp [h]
        · exact fun _ => le_antisymm hadv hge }

theorem engineInv_encodeToken {s : State} (hi : EngineInv s) (hp : s.phase = .cToken) (hop : s.op ≠ .decompress) :
    EngineInv (encodeToken s) := by
  have hcur := hi.enc.more hp
  unfold encodeToken
  split
  · next off len hfind =>
    obtain ⟨hmin, hmax, hlen, hoff⟩ := mfFind_bounds hfind
    have hw := (hi.enc.window (by simp [encoding, hp])).2
    have hwinMax := winMax_le s.fmt
    have hmaxLen := maxLen_lt s.fmt
    have hbits := matchBits_le_nine_mul_minLen s.fmt
    have hi' := hi.setToken hp .backRef s.tByte (off := off) (len := len) (by omega) (by omega)
    rw [teMatch_eq]
    exact engineInv_encodeAdvance hi' hp hop (by rw [matchBits_length]; omega) (show s.cur + len ≤ s.n by omega)
  · have hi' := hi.setToken hp .literal (ibufByte s s.cur) hi.fit.tOff hi.fit.tLen
    simp only [teLit_eq]
    exact engineInv_encodeAdvance hi' hp hop (by rw [litBits_length]) hcur

theorem engineInv_encodeFlush {s : State} (hi : EngineInv s) (hp : s.phase = .cFlush) (hop : s.op ≠ .decompress) :
    EngineInv (encodeFlush s) := by
  obtain ⟨-, -, hsize⟩ := hi.enc.size (.inr hp)
  have hcap := olen_lt_cap hsize (hi.enc.last hp).le (hi.n_le (by simp [hp]) hop)
  have herr : s.err = none := hi.err_eq_none (by simp [hp])
  rcases flush_cases s.packer with ⟨-, hflush⟩ | ⟨-, hflush⟩ <;> rw [encodeFlush, hflush]
  · exact engineInv_finish herr { hi.form with } { hi.fit with }
  · refine engineInv_finish herr
      { hi.form with
        obuf_wf := memWrite_wf hi.form.obuf_wf _ _
        obuf_cap := memWrite_below _ hi.form.obuf_cap hcap }
      { hi.fit with
        olen := show s.olen + 1 < 2 ^ 32 by unfold Config.cap at hcap; omega
        nacc := Nat.two_pow_pos 3 }

/-! The decoder's steps (43_token_decoder.md R143 to R148). -/

/-- The loop test (43_token_decoder.md R144) after a step that leaves the cursor in the stream, the output written and
within the declared length. -/
theorem engineInv_decodeLoop {s t : State} (hi : EngineInv s) (hs : s.phase ≠ .idle) (hop : s.op = .decompress)
    (hc : SameCall s t) (hform : FormInv t) (hfit : RegsFit t)
    (hbits : 5 ≤ t.n ∧ t.tBits = 8 * (t.n - 5) ∧ t.c ≤ t.tBits)
    (hwritten : ∀ a < t.olen, (cellGet t.obuf a).isSome = true) (hle : t.olen ≤ t.origLen) :
    EngineInv { t with phase := decodeLoop t } := by
  rcases decodeLoop_cases t with ⟨h, hlt⟩ | ⟨h, hge⟩ <;>
    refine hi.of_decoding hs hop { hc with } (by simp [decoding, h]) { hform with } { hfit with } ?_
  · exact { bits := fun _ => hbits, written := fun _ => hwritten, more := fun _ => hlt, last := by simp [h]
            copy := by simp [h] }
  · exact { bits := fun _ => hbits, written := fun _ => hwritten, more := by simp [h]
            last := fun _ => le_antisymm hle hge, copy := by simp [h] }

theorem EngineInv.op_of_decoding {s : State} (hi : EngineInv s) (hd : decoding s = true) : s.op = .decompress :=
  hi.status.decoding_op (.inl hd)

theorem engineInv_goodHeader {s t : State} (origLen : Word) (hi : EngineInv s) (hp : s.phase = .dHdr) (hn : 5 ≤ s.n)
    (ht : t = { s with origLen := origLen.toNat, tBits := 8 * (s.n - 5), c := 0, olen := 0 }) :
    EngineInv { t with phase := decodeLoop t } := by
  subst ht
  have hn' := hi.fit.n
  refine engineInv_decodeLoop hi (by simp [hp]) (hi.status.decoding_op (.inr hp)) {} { hi.form with } ?_
    ⟨hn, rfl, Nat.zero_le _⟩ (fun a ha => absurd ha (Nat.not_lt_zero a)) (Nat.zero_le _)
  exact { hi.fit with
    origLen := origLen.isLt
    tBits := show 8 * (s.n - 5) < 2 ^ 36 by omega
    c := Nat.two_pow_pos 36
    olen := Nat.two_pow_pos 32 }

theorem engineInv_literal {s t : State} (byte : Byte) (hi : EngineInv s) (hp : s.phase = .dToken) (hr : 9 ≤ s.tBits - s.c)
    (ht : t = appendByte byte { s with c := s.c + 1 + 8, tKind := .literal, tByte := byte }) :
    EngineInv { t with phase := decodeLoop t } := by
  subst ht
  have hd : decoding s = true := by simp [decoding, hp]
  obtain ⟨hn, hbits, -⟩ := hi.dec.bits hd
  have hmore := hi.dec.more hp
  have horig := hi.fit.origLen
  have htBits := hi.fit.tBits
  refine engineInv_decodeLoop hi (by simp [hp]) (hi.op_of_decoding hd) {} ?_ ?_
    ⟨hn, hbits, show s.c + 1 + 8 ≤ s.tBits by omega⟩ (memWrite_written byte (hi.dec.written hd)) hmore
  · exact { hi.form with
      obuf_wf := memWrite_wf hi.form.obuf_wf _ _
      obuf_cap := memWrite_below byte hi.form.obuf_cap (show s.olen < Config.cap by unfold Config.cap; omega) }
  · exact { hi.fit with
      c := show s.c + 1 + 8 < 2 ^ 36 by omega
      olen := show s.olen + 1 < 2 ^ 32 by omega }

/-- A match that is all there (43_token_decoder.md R146): rejected, or its copy starts with the cursors in step. -/
theorem engineInv_match {s t : State} {o l : Nat} (hi : EngineInv s) (hp : s.phase = .dToken)
    (ho : o < 2 ^ s.fmt.spec.offBits) (hl : l < 2 ^ s.fmt.spec.lenBits) (hr : s.fmt.spec.matchBits ≤ s.tBits - s.c)
    (ht : t = { s with c := s.c + 1 + s.fmt.spec.offBits + s.fmt.spec.lenBits, tKind := .backRef, tOff := o + 1,
                       tLen := l + s.fmt.spec.minLen }) :
    EngineInv
      (if o + 1 > s.olen then raise .malformedStream t
       else if s.olen + (l + s.fmt.spec.minLen) > s.origLen then raise .lengthMismatch t
       else { t with rd := s.olen - (o + 1), wr := s.olen, rem := l + s.fmt.spec.minLen, phase := .dCopy }) := by
  have hd : decoding s = true := by simp [decoding, hp]
  obtain ⟨hn, hbits, hc⟩ := hi.dec.bits hd
  have hoff := two_pow_offBits_lt s.fmt
  have hlen := two_pow_lenBits_add_minLen_lt s.fmt
  have hmin := minLen_pos s.fmt
  have htBits := hi.fit.tBits
  have holen := hi.fit.olen
  have hc' : s.c + 1 + s.fmt.spec.offBits + s.fmt.spec.lenBits ≤ s.tBits := by
    unfold FormatSpec.matchBits at hr
    omega
  have hform : FormInv t := by subst ht; exact { hi.form with }
  have hfit : RegsFit t := by
    subst ht
    exact { hi.fit with c := hc'.trans_lt htBits, tOff := show o + 1 < 2 ^ 16 by omega
                        tLen := show l + s.fmt.spec.minLen < 2 ^ 9 by omega }
  split
  · exact engineInv_raise _ hform hfit
  · next hback =>
    split
    · exact engineInv_raise _ hform hfit
    · next hroom =>
      subst ht
      refine hi.of_decoding (by simp [hp]) (hi.op_of_decoding hd) {} (by simp [decoding]) { hform with } ?_ ?_
      · exact { hfit with
          rd := show s.olen - (o + 1) < 2 ^ 32 by omega
          wr := holen
          rem := hfit.tLen }
      · exact
          { bits := fun _ => ⟨hn, hbits, hc'⟩
            written := fun _ => hi.dec.written hd
            more := by simp
            last := by simp
            copy := fun _ => ⟨show 0 < l + s.fmt.spec.minLen by omega, le_refl _, rfl,
              show s.olen - (o + 1) + (o + 1) = s.olen by omega, show 1 ≤ o + 1 by omega,
              show s.olen + (l + s.fmt.spec.minLen) ≤ s.origLen by omega⟩ }

/-- One byte of a copy (43_token_decoder.md R147): the cursors stay in step. -/
theorem engineInv_copyByte {s : State} (hi : EngineInv s) (hp : s.phase = .dCopy) : EngineInv (copyByte s) := by
  have hd : decoding s = true := by simp [decoding, hp]
  have hbits := hi.dec.bits hd
  obtain ⟨hrem, hremLe, hwr, hrd, hoff, hroom⟩ := hi.dec.copy hp
  have horig := hi.fit.origLen
  have hremFit := hi.fit.rem
  have hwritten : ∀ a < s.olen + 1, (cellGet (memWrite s.obuf s.wr (obufByte s s.rd)) a).isSome = true := by
    rw [hwr]
    exact memWrite_written _ (hi.dec.written hd)
  have hphase := copyByte_phase s
  have hform : FormInv (copyByte s) :=
    { hi.form with
      obuf_wf := memWrite_wf hi.form.obuf_wf _ _
      obuf_cap := memWrite_below _ hi.form.obuf_cap (show s.wr < Config.cap by unfold Config.cap; omega) }
  have hfit : RegsFit (copyByte s) :=
    { hi.fit with
      rd := show s.rd + 1 < 2 ^ 32 by omega
      wr := show s.wr + 1 < 2 ^ 32 by omega
      olen := show s.olen + 1 < 2 ^ 32 by omega
      rem := show s.rem - 1 < 2 ^ 9 by omega }
  refine hi.of_decoding (by simp [hp]) (hi.op_of_decoding hd) {} ?_ hform hfit ?_
  · rcases hphase with ⟨h, -⟩ | ⟨h, -⟩ | ⟨h, -⟩ <;> simp [decoding, h]
  · refine ⟨fun _ => hbits, fun _ => hwritten, ?_, ?_, ?_⟩
    · rcases hphase with ⟨-, -, hlt⟩ | ⟨h, -⟩ | ⟨h, -⟩
      · exact fun _ => hlt
      · simp [h]
      · simp [h]
    · rcases hphase with ⟨h, -⟩ | ⟨-, -, hge⟩ | ⟨h, -⟩
      · simp [h]
      · exact fun _ => show s.olen + 1 = s.origLen by omega
      · simp [h]
    · rcases hphase with ⟨h, -⟩ | ⟨h, -⟩ | ⟨-, hne⟩
      · simp [h]
      · simp [h]
      · exact fun _ => ⟨show 0 < s.rem - 1 by omega, show s.rem - 1 ≤ s.tLen by omega, show s.wr + 1 = s.olen + 1 by omega,
          show s.rd + 1 + s.tOff = s.wr + 1 by omega, hoff, show s.olen + 1 + (s.rem - 1) ≤ s.origLen by omega⟩

/-- A visit of any phase by the engine keeps the invariant. -/
theorem EngineStep.engineInv {s t : State} (h : EngineStep s t) (hi : EngineInv s) : EngineInv t := by
  have htBits := hi.fit.tBits
  cases h with
  | idle _ => exact hi
  | checkCompress hp hop => exact engineInv_checkWindow hi hp (by simp [hop])
  | checkFast hp hop =>
    exact engineInv_startEncode hi hp (by simp [hop]) (by decide) (fastWindow_le_winMax s.fmt)
  | checkDecompress hp hop =>
    exact hi.of_decoding (by simp [hp]) hop {} (.inr rfl) { hi.form with } { hi.fit with } (decInv_of_phase (by simp))
  | header hp hop => exact engineInv_encodeHeader hi hp hop
  | token hp hop => exact engineInv_encodeToken hi hp hop
  | flush hp hop => exact engineInv_encodeFlush hi hp hop
  | badHeader _ => exact engineInv_raise _ hi.form hi.fit
  | goodHeader origLen hp hn ht => exact engineInv_goodHeader origLen hi hp hn ht
  | exhausted _ _ => exact engineInv_raise _ hi.form hi.fit
  | litTruncated hp hr =>
    exact engineInv_raise _ { hi.form with } { hi.fit with c := show s.c + 1 < 2 ^ 36 by omega }
  | offTruncated hp hr =>
    exact engineInv_raise _ { hi.form with } { hi.fit with c := show s.c + 1 < 2 ^ 36 by omega }
  | lenTruncated o hp ho hr =>
    have hoff := two_pow_offBits_lt s.fmt
    exact engineInv_raise _ { hi.form with }
      { hi.fit with c := show s.c + 1 + s.fmt.spec.offBits < 2 ^ 36 by omega, tOff := show o + 1 < 2 ^ 16 by omega }
  | literal byte hp hr ht => exact engineInv_literal byte hi hp hr ht
  | copyOver hp hrem => exact absurd hrem (hi.dec.copy hp).1.ne'
  | copy hp _ => exact engineInv_copyByte hi hp
  | tailLong _ => exact engineInv_raise _ hi.form hi.fit
  | tailSet _ => exact engineInv_raise _ hi.form hi.fit
  | tailDone hp => exact engineInv_finish (hi.err_eq_none (by simp [hp])) hi.form hi.fit
  | _ =>
    -- `EngineStep.match`, the one constructor whose name is a keyword
    rename_i hp ho hl hr ht
    exact engineInv_match hi hp ho hl hr ht

/-! The host's moves (44_codec_commands.md R171, R177, R178; 70_reset_and_hazards.md R220). -/

/-- What a START that is answered does: nothing while BUSY, else it begins the call of `CMD` within the capacity bound. -/
theorem execStart_next {s t : State} (h : execStart s = .next t) :
    (s.callState = .busy ∧ t = s) ∨
    (∃ op f, s.callState ≠ .busy ∧ decodeCommand s.cmd = some (op, f) ∧
      (op ≠ .decompress → s.inLen.toNat ≤ Config.maxCompressLen) ∧ t = beginCall op f s) := by
  unfold execStart at h
  split at h
  · next hb => cases h; exact .inl ⟨hb, rfl⟩
  · next hb =>
    split at h
    · cases h
    · next op f hcmd =>
      split at h
      · cases h
      · next hcap =>
        cases h
        refine .inr ⟨op, f, hb, hcmd, fun hop => ?_, rfl⟩
        simpa [overCapacity, hop] using hcap

theorem engineInv_beginCall {s : State} {op : Op} {f : Fmt} (hi : EngineInv s) (hcmd : decodeCommand s.cmd = some (op, f))
    (hcap : op ≠ .decompress → s.inLen.toNat ≤ Config.maxCompressLen) : EngineInv (beginCall op f s) where
  status := by constructor <;> simp [encoding, decoding]
  latch := ⟨fun _ => rfl, fun _ => hcmd, fun _ => hcap, fun _ => rfl, by simp⟩
  form := { hi.form with head_wf := rfl, prev_wf := rfl }
  fit := { hi.fit with
    n := s.inLen.isLt, cur := Nat.two_pow_pos 32, olen := Nat.two_pow_pos 32, c := Nat.two_pow_pos 36
    nacc := Nat.two_pow_pos 3, rem := Nat.two_pow_pos 9 }
  enc := by constructor <;> simp [encoding]
  dec := decInv_of_phase (by simp)

theorem engineInv_execStart {s t : State} (hi : EngineInv s) (h : execStart s = .next t) : EngineInv t := by
  obtain ⟨-, rfl⟩ | ⟨op, f, -, hcmd, hcap, rfl⟩ := execStart_next h
  · exact hi
  · exact engineInv_beginCall hi hcmd hcap

/-- What a host move other than START can do. -/
inductive HostStep : State → State → Prop where
  | nothing {s} : HostStep s s
  | setCmd {s} (v : Word) : s.callState ≠ .busy → HostStep s { s with cmd := v }
  | setWindowSize {s} (v : Word) : s.callState ≠ .busy → HostStep s { s with windowSize := v }
  | setInLen {s} (v : Word) : s.callState ≠ .busy → HostStep s { s with inLen := v }
  | readReg {s} (number : Nat) (v : Word) :
      HostStep s { s with hostData := v, awaitingEnd := s.awaitingEnd && !showsEnd number s }
  | writeIbuf {s} (index : Word) (byte : Byte) : s.callState ≠ .busy → index.toNat < Config.cap →
      HostStep s { s with ibuf := memWrite s.ibuf index.toNat byte }
  | readBuffer {s} (v : Word) : HostStep s { s with hostData := v }
  | reset {s} : HostStep s (hardReset s)

theorem regWrite_next {s t : State} {number : Nat} {value : Word} (h : regWrite number value s = .next t) :
    HostStep s t := by
  unfold regWrite at h
  split at h
  · cases h
  · split at h
    · cases h; exact .nothing
    · next hb =>
      split at h
      · split at h <;> cases h
        exact .nothing
      all_goals cases h
      · exact .setCmd value hb
      · exact .setWindowSize value hb
      · exact .setInLen value hb
      · exact .nothing

theorem bufferAccess_next {s k t : State} {index : Word} (h : bufferAccess index s k = .next t) :
    s.callState ≠ .busy ∧ index.toNat < Config.cap ∧ t = k := by
  unfold bufferAccess at h
  split at h
  · cases h
  · next hown =>
    split at h
    · cases h
    · next hcap =>
      cases h
      exact ⟨fun hb => hown (by simp [buffersOwned, hb]), by omega, rfl⟩

theorem hostMove_next {s t : State} {a : HostAct} (h : hostMove a s = .next t) : HostStep s t := by
  cases a with
  | writeReg number value => exact regWrite_next h
  | readReg number =>
    simp only [hostMove] at h
    split at h
    · next v _ => cases h; exact .readReg number v
    · cases h
  | writeIbuf index byte =>
    obtain ⟨hb, hcap, rfl⟩ := bufferAccess_next h
    exact .writeIbuf index byte hb hcap
  | readIbuf index => obtain ⟨-, -, rfl⟩ := bufferAccess_next h; exact .readBuffer _
  | readObuf index => obtain ⟨-, -, rfl⟩ := bufferAccess_next h; exact .readBuffer _
  | writeObuf index byte => simp only [hostMove] at h; split at h <;> cases h
  | reset => cases h; exact .reset
  | engine => cases h; exact .nothing

/-- With no call running, host registers and IBUF are the host's to change. -/
theorem EngineInv.of_not_busy {s t : State} (hi : EngineInv s) (hb : s.callState ≠ .busy) (hs : StatusInv t)
    (hp : t.phase = s.phase) (hc : t.callState = s.callState) (ha : t.awaitingEnd = s.awaitingEnd) (hf : FormInv t)
    (hr : RegsFit t) : EngineInv t :=
  .of_idle (hp.trans (hi.status.idle_iff.2 hb)) (by rw [hc, ha]; exact hi.latch.free) hs hf hr

/-- Only a STATUS read that shows the call's end gives up the buffers (20_memory.md R63). -/
theorem showsEnd_of_busy {s : State} (number : Nat) (hb : s.callState = .busy) : showsEnd number s = false := by
  simp [showsEnd, hb]

theorem engineInv_reset : EngineInv State.reset := by
  refine .of_idle rfl (fun _ => rfl) ?_ ⟨rfl, rfl, rfl, rfl, ?_, ?_⟩ ?_
  · constructor <;> decide
  · simp [State.reset]
  · simp [State.reset]
  · constructor <;> decide

/-- RESET, whatever came before: the fields it keeps or counts are in no part of the invariant. -/
theorem engineInv_hardReset (s : State) : EngineInv (hardReset s) :=
  have h := engineInv_reset
  .of_idle rfl (fun _ => rfl) { h.status with } { h.form with } { h.fit with }

theorem HostStep.engineInv {s t : State} (h : HostStep s t) (hi : EngineInv s) : EngineInv t := by
  cases h with
  | nothing => exact hi
  | setCmd v hb => exact hi.of_not_busy hb { hi.status with } rfl rfl rfl { hi.form with } { hi.fit with }
  | setWindowSize v hb => exact hi.of_not_busy hb { hi.status with } rfl rfl rfl { hi.form with } { hi.fit with }
  | setInLen v hb => exact hi.of_not_busy hb { hi.status with } rfl rfl rfl { hi.form with } { hi.fit with }
  | readReg number v =>
    have hlatch : LatchInv { s with hostData := v, awaitingEnd := s.awaitingEnd && !showsEnd number s } :=
      { hi.latch with
        owner := fun hb => by
          have hshows := showsEnd_of_busy (s := s) number hb
          simp [hi.latch.owner hb, hshows]
        free := fun hidle => by simp [hi.latch.free hidle] }
    exact ⟨{ hi.status with }, hlatch, { hi.form with }, { hi.fit with }, { hi.enc with }, { hi.dec with }⟩
  | writeIbuf index byte hb hcap =>
    have hform : FormInv { s with ibuf := memWrite s.ibuf index.toNat byte } :=
      { hi.form with
        ibuf_wf := memWrite_wf hi.form.ibuf_wf _ _
        ibuf_cap := memWrite_below byte hi.form.ibuf_cap hcap }
    exact hi.of_not_busy hb { hi.status with } rfl rfl rfl hform { hi.fit with }
  | readBuffer v =>
    exact ⟨{ hi.status with }, { hi.latch with }, { hi.form with }, { hi.fit with }, { hi.enc with }, { hi.dec with }⟩
  | reset => exact engineInv_hardReset s

/-- Settles O43: the engine's visit, START and the host's other moves each keep every part of the invariant. -/
theorem stepKeepsTheInvariant : Obligations.StepKeepsTheInvariant := by
  intro s t hi h
  obtain ⟨-, he⟩ | ⟨rest, -, he⟩ | ⟨rest, -, hstart⟩ | ⟨a, rest, -, hmove⟩ := step_cases h
  · exact he.engineInv hi
  · exact he.engineInv (hi.setActs rest)
  · exact engineInv_execStart (hi.setActs rest) hstart
  · exact (hostMove_next hmove).engineInv (hi.setActs rest)

end Sys2Proof.Machine

/-! SUPPORT. The state of an engine (10_state.md): the chains of the index, what an engine step leaves to the host, several
engines, the command words, one rule per host move, and the small statements on single instructions. -/

namespace Sys2Proof.Machine

/-! The chains of the index (41_match_finder.md R102, R107). -/

/-- The inserted positions below `m` with key `h`, most recent first (41_match_finder.md R102). -/
def keyedBelow (D : Nat → Byte) (n h m : Nat) : List Nat :=
  ((List.range m).reverse).filter fun p => decide (p + 3 ≤ n ∧ keyAt D p = h)

@[simp] theorem keyedBelow_zero (D : Nat → Byte) (n h : Nat) : keyedBelow D n h 0 = [] := rfl

theorem keyedBelow_succ (D : Nat → Byte) (n h m : Nat) :
    keyedBelow D n h (m + 1) =
      if m + 3 ≤ n ∧ keyAt D m = h then m :: keyedBelow D n h m else keyedBelow D n h m := by
  simp [keyedBelow, List.range_succ, List.filter_cons]

theorem indexOf_succ (D : Nat → Byte) (n i : Nat) : indexOf D n (i + 1) = mfInsert D n i (indexOf D n i) :=
  (mfInsertRange_indexOf D n i 1).symm

theorem indexOf_prev_wf (D : Nat → Byte) (n i : Nat) : cellsWf (indexOf D n i).prev = true :=
  (mfInsertRange_wf D n 0 i (x := { head := [], prev := [] }) ⟨rfl, rfl⟩).2

theorem mfInsert_of_short {n p : Nat} (D : Nat → Byte) (x : Index) (h : ¬p + 3 ≤ n) : mfInsert D n p x = x := if_neg h

theorem mfInsert_of_room {n p : Nat} (D : Nat → Byte) (x : Index) (h : p + 3 ≤ n) :
    mfInsert D n p x =
      { prev := tableSet x.prev p (cellGet x.head (keyAt D p)), head := cellSet x.head (keyAt D p) p } := if_pos h

theorem cellGet_mfInsert_head {n p : Nat} (D : Nat → Byte) (x : Index) (h : p + 3 ≤ n) (k : Nat) :
    cellGet (mfInsert D n p x).head k = if k = keyAt D p then some p else cellGet x.head k := by
  rw [mfInsert_of_room D _ h]
  exact cellGet_cellSet x.head _ k p

theorem cellGet_mfInsert_prev {n p : Nat} (D : Nat → Byte) {x : Index} (hx : cellsWf x.prev = true) (h : p + 3 ≤ n)
    (j : Nat) :
    cellGet (mfInsert D n p x).prev j = if j = p then cellGet x.head (keyAt D p) else cellGet x.prev j := by
  rw [mfInsert_of_room D _ h]
  exact cellGet_tableSet hx p _ j

/-- `HEAD[h]` is the most recent inserted position with key `h` (10_state.md R31). -/
theorem indexOf_head (D : Nat → Byte) (n i h : Nat) :
    cellGet (indexOf D n i).head h = (keyedBelow D n h i).head? := by
  induction i with
  | zero => rfl
  | succ i ih =>
    rw [indexOf_succ, keyedBelow_succ]
    by_cases hn : i + 3 ≤ n
    · rw [cellGet_mfInsert_head D _ hn, ih]
      by_cases hk : keyAt D i = h
      · rw [if_pos hk.symm, if_pos ⟨hn, hk⟩, List.head?_cons]
      · rw [if_neg (Ne.symm hk), if_neg fun hc => hk hc.2]
    · rw [mfInsert_of_short D _ hn, if_neg fun hc => hn hc.1, ih]

/-- `PREV[j]` is the inserted position before `j` with `j`'s key (10_state.md R31). -/
theorem indexOf_prev (D : Nat → Byte) {n i j : Nat} (hj : j < i) (hn : j + 3 ≤ n) :
    cellGet (indexOf D n i).prev j = (keyedBelow D n (keyAt D j) j).head? := by
  induction i with
  | zero => omega
  | succ i ih =>
    rw [indexOf_succ]
    by_cases hi : i + 3 ≤ n
    · rw [cellGet_mfInsert_prev D (indexOf_prev_wf D n i) hi]
      by_cases hji : j = i
      · rw [if_pos hji, indexOf_head, hji]
      · rw [if_neg hji]
        exact ih (by omega)
    · rw [mfInsert_of_short D _ hi]
      exact ih (by omega)

@[simp] theorem chainFrom_none (prev : Table) (fuel : Nat) : chainFrom prev none fuel = [] := by
  cases fuel <;> rfl

/-- From the most recent position below `m` on, `PREV` leads through all of them. -/
theorem chainFrom_keyedBelow (D : Nat → Byte) (n h : Nat) {i m fuel : Nat} (hm : m ≤ i) (hf : m ≤ fuel) :
    chainFrom (indexOf D n i).prev (keyedBelow D n h m).head? fuel = keyedBelow D n h m := by
  induction m generalizing fuel with
  | zero => simp
  | succ m ih =>
    rw [keyedBelow_succ]
    split
    · next hc =>
      obtain ⟨hn, rfl⟩ := hc
      obtain ⟨fuel, rfl⟩ : ∃ k, fuel = k + 1 := ⟨fuel - 1, by omega⟩
      rw [List.head?_cons, chainFrom, indexOf_prev D (by omega) hn, ih (by omega) (by omega)]
    · exact ih (by omega) (by omega)

/-- Settles O50: `HEAD` and `PREV` each point at the most recent earlier position with the key, so the chain is the list of
them. -/
theorem indexHoldsTheChains : Obligations.IndexHoldsTheChains := by
  intro D n i h
  rw [indexOf_head]
  exact chainFrom_keyedBelow D n h le_rfl le_rfl

/-! What an engine step leaves to the host (20_memory.md R51, R64). -/

/-- `t` holds what the host has given the engine in `s` and what the model keeps of the host: IBUF, the registers it writes,
its moves, its last read, whose the buffers are, and what picks the free values. -/
structure SameHostSide (s t : State) : Prop where
  ibuf : t.ibuf = s.ibuf := by rfl
  cmd : t.cmd = s.cmd := by rfl
  windowSize : t.windowSize = s.windowSize := by rfl
  inLen : t.inLen = s.inLen := by rfl
  acts : t.acts = s.acts := by rfl
  hostData : t.hostData = s.hostData := by rfl
  awaitingEnd : t.awaitingEnd = s.awaitingEnd := by rfl
  engine : t.engine = s.engine := by rfl
  ibufEpoch : t.ibufEpoch = s.ibufEpoch := by rfl
  obufEpoch : t.obufEpoch = s.obufEpoch := by rfl

theorem sameHostSide_checkWindow (s : State) : SameHostSide s (checkWindow s) := by
  unfold checkWindow
  split <;> exact {}

theorem sameHostSide_encodeToken (s : State) : SameHostSide s (encodeToken s) := by
  unfold encodeToken
  split <;> exact {}

theorem EngineStep.sameHostSide {s t : State} (h : EngineStep s t) : SameHostSide s t := by
  cases h with
  | checkCompress _ _ => exact sameHostSide_checkWindow s
  | token _ _ => exact sameHostSide_encodeToken s
  | goodHeader _ _ _ ht => subst ht; exact {}
  | literal _ _ _ ht => subst ht; exact {}
  | idle | checkFast | checkDecompress | header | flush | badHeader | exhausted | litTruncated | offTruncated
  | lenTruncated | copyOver | copy | tailLong | tailSet | tailDone => exact {}
  | _ =>
    -- `EngineStep.match`, the one constructor whose name is a keyword
    rename_i ht
    subst ht
    split
    · exact {}
    · split <;> exact {}

/-- Settles O45: no visit of any phase writes a field of the host's side. -/
theorem engineLeavesTheHostsStateAlone : Obligations.EngineLeavesTheHostsStateAlone := by
  intro s t ha hstep
  have h : EngineStep s t := by simpa [ha] using step_cases hstep
  obtain ⟨hibuf, hcmd, hwindow, hinLen, hacts, hdata, howner, hengine, hibufEpoch, hobufEpoch⟩ := h.sameHostSide
  exact ⟨hibuf, hcmd, hwindow, hinLen, hacts.trans ha, hdata, howner, hengine, hibufEpoch, hobufEpoch⟩

/-! Several engines (10_state.md R38, 60_exceptions.md R204). -/

/-- An answered step of engine `k` sets entry `k`, and does the same to any list with that entry (past the end, setting an
entry changes nothing). -/
theorem stepEngine_next {k : Nat} {es a : List State} (h : stepEngine k es = .next a) :
    ∃ t, a = es.set k t ∧ ∀ es' : List State, es'[k]? = es[k]? → stepEngine k es' = .next (es'.set k t) := by
  unfold stepEngine at h
  split at h
  · next hk =>
    cases h
    refine ⟨State.reset, (List.set_eq_of_length_le (List.getElem?_eq_none_iff.1 hk)).symm, fun es' hes => ?_⟩
    rw [hk] at hes
    rw [stepEngine, hes, List.set_eq_of_length_le (List.getElem?_eq_none_iff.1 hes)]
  · next s hk =>
    split at h
    · next t ht =>
      cases h
      refine ⟨t, rfl, fun es' hes => ?_⟩
      rw [hk] at hes
      simp only [stepEngine, hes, ht]
    · cases h
    · cases h

/-- Settles O49: each step sets its own entry only, from that entry only, and settings of different entries commute. -/
theorem enginesAreIndependent : Obligations.EnginesAreIndependent := by
  intro es a b j k hjk hj hk
  obtain ⟨t, rfl, hstepj⟩ := stepEngine_next hj
  obtain ⟨u, rfl, hstepk⟩ := stepEngine_next hk
  have hkeepk : (es.set j t)[k]? = es[k]? := List.getElem?_set_ne hjk
  have hkeepj : (es.set k u)[j]? = es[j]? := List.getElem?_set_ne hjk.symm
  refine ⟨hkeepk, (es.set j t).set k u, hstepk _ hkeepk, ?_⟩
  rw [hstepj _ hkeepj, List.set_comm t u hjk]

/-! Reset and the host registers as words (10_state.md R24 to R29, R36). -/

/-- Settles O10: the six registers one by one; STATUS is the word of IDLE and NONE. -/
theorem resetValues : Obligations.ResetValues := by
  refine ⟨rfl, rfl, rfl, fun number h => ?_, fun _ => ⟨rfl, rfl⟩⟩
  interval_cases number <;> rfl

/-- Settles O42: it is the base case behind `engineInv_hardReset`. -/
theorem resetMeetsTheInvariant : Obligations.ResetMeetsTheInvariant := engineInv_reset

/-- Settles O12: the word depends on STATE and ERR only, sixteen cases. -/
theorem statusWordLayout : Obligations.StatusWordLayout := by
  intro s
  unfold statusWord
  cases s.callState <;> rcases s.err with _ | (_ | _ | _) <;> decide

/-! The command words (30_encoding.md R83). -/

theorem mem_commands (op : Op) (f : Fmt) : (op, f) ∈ commands := by
  cases op <;> cases f <;> decide

theorem decodeCommand_commandWord (op : Op) (f : Fmt) : decodeCommand (commandWord op f) = some (op, f) := by
  cases op <;> cases f <;> rfl

theorem decodeCommand_eq_some {w : Word} {op : Op} {f : Fmt} :
    decodeCommand w = some (op, f) ↔ commandWord op f = w := by
  constructor
  · intro h
    simpa using List.find?_some h
  · rintro rfl
    exact decodeCommand_commandWord op f

/-- The table of 30_encoding.md R83, row by row. -/
def commandTable : List (Word × Op × Fmt) := commands.map fun p => (commandWord p.1 p.2, p.1, p.2)

theorem mem_commandTable {w : Word} {op : Op} {f : Fmt} : (w, op, f) ∈ commandTable ↔ commandWord op f = w := by
  simp [commandTable, mem_commands]

/-- Settles O6: the decoder finds a command's own word, and R83's table lists these words. -/
theorem exactlyNineCommandWords : Obligations.ExactlyNineCommandWords := by
  intro w op f
  rw [decodeCommand_eq_some, ← mem_commandTable]
  exact Iff.rfl

/-! What a step runs, by whose turn it is (10_state.md R22, R34; 44_codec_commands.md R181). -/

theorem fetch_of_no_acts {s : State} (h : s.acts = []) : fetch s = fetchEngine s := by
  simp only [fetch, h]

theorem step_of_no_acts {s : State} (h : s.acts = []) : step s = engineOutcome s := by
  unfold step engineOutcome
  rewrite [fetch_of_no_acts h]
  rfl

theorem decodeControl_eq_start {v : Word} : decodeControl v = .ok .start ↔ v = 1 := by
  unfold decodeControl
  split
  · next h => exact iff_of_true rfl h
  · next h => exact iff_of_false nofun h

theorem step_of_start {s : State} {rest : List HostAct} (h : s.acts = .writeReg 0 1 :: rest) :
    step s = execStart { s with acts := rest } := by
  simp [step, fetch, h, decodeControl, exec]

theorem step_of_hostMove {s : State} {a : HostAct} {rest : List HostAct} (h : s.acts = a :: rest) (he : a ≠ .engine)
    (hs : a ≠ .writeReg 0 1) : step s = hostMove a { s with acts := rest } := by
  cases a with
  | engine => exact absurd rfl he
  | writeReg number value =>
    have hne : ¬(number = 0 ∧ value = 1) := fun hc => hs (by rw [hc.1, hc.2])
    simp only [step, fetch, h, decodeControl_eq_start, if_neg hne]
  | _ => simp only [step, fetch, h]

/-- Settles O7: the fetch of each phase, and START. -/
theorem stepRunsTheFetchedInstruction : Obligations.StepRunsTheFetchedInstruction := by
  refine ⟨fun s i ha hp hd => ?header, fun s i rest ha hp hd => ?token, fun s ha hp => ?copy, fun s i ha hp hd => ?tail,
    fun s ha hp => ?command, fun s rest ha => step_of_start ha⟩ <;> rw [step_of_no_acts ha]
  case header => simp only [engineOutcome, fetchEngine, hp, fetchDecoded, hd]
  case token => simp only [engineOutcome, fetchEngine, hp, fetchDecoded, tokenAt, maxTokenBits, hd]
  case copy => simp only [engineOutcome, fetchEngine, hp]
  case tail => simp only [engineOutcome, fetchEngine, hp, fetchDecoded, hd]
  case command =>
    have hphase : s.phase = .check ∨ s.phase = .cHdr ∨ s.phase = .cToken ∨ s.phase = .cFlush := by
      simpa [encoding] using hp
    rcases hphase with hp | hp | hp | hp <;> simp only [engineOutcome, fetchEngine, hp]

/-- Settles O9: in `P_IDLE` the engine fetches nothing. -/
theorem idleEngineDoesNothing : Obligations.IdleEngineDoesNothing := by
  intro s ha hp
  rw [step_of_no_acts ha]
  simp only [engineOutcome, fetchEngine, hp]

/-! START and the commands (44_codec_commands.md R171, R174). -/

/-- Settles O14: neither refusal of R179 and R180 applies, and `beginCall` is the state R171 writes out. -/
theorem startBeginsACall : Obligations.StartBeginsACall := by
  intro s op f hb hcmd hcap
  have hover : overCapacity op s = false := by
    by_cases hop : op = .decompress
    · simp [overCapacity, hop]
    · simp [overCapacity, hop, Config.maxCompressLen, hcap hop]
  show execStart s = .next (beginCall op f s)
  simp [execStart, hb, hcmd, hover]

/-- Settles O18: the guard of `execDecode` asks for no window. -/
theorem decompressGoesToItsHeader : Obligations.DecompressGoesToItsHeader := by
  intro f s hop hf hp
  rw [exec_decompress]
  exact if_neg (by simp [hop, hf, hp])

/-! One visit of `D_COPY` (43_token_decoder.md R147). -/

theorem execMatch_of_copying {f : Fmt} {s : State} (hp : s.phase = .dCopy) (hf : s.fmt = f) (hr : 0 < s.rem) :
    execMatch f s.tOff s.tLen s = .next (copyByte s) := by
  have hrem : s.rem ≠ 0 := by omega
  simp [execMatch, hf, hp, hrem]

/-- Settles O30: the copy ends with its last byte, and the loop test is taken on the state after it. -/
theorem copyMovesOneByte : Obligations.CopyMovesOneByte := by
  intro f s hp hf hr
  have hlast : s.rem - 1 = 0 ↔ s.rem = 1 := by omega
  rw [exec_matchOf, execMatch_of_copying hp hf hr]
  simp only [copyByte, decodeLoop, hlast]

/-! Out of sequence (log entry 16). -/

theorem execEncode_of_other {op : Op} {f : Fmt} {s : State} (check : State → State) (h : s.op ≠ op ∨ s.fmt ≠ f) :
    execEncode op f check s = .refused .outOfSequence := if_pos h

theorem execEncode_of_phase {op : Op} {f : Fmt} {s : State} (check : State → State) (hp : s.phase ≠ .check)
    (he : encoding s = false) : execEncode op f check s = .refused .outOfSequence := by
  have hphase : s.phase ≠ .cHdr ∧ s.phase ≠ .cToken ∧ s.phase ≠ .cFlush := by simpa [encoding] using he
  obtain ⟨hhdr, htoken, hflush⟩ := hphase
  unfold execEncode
  split
  · rfl
  · split
    · next h => exact absurd h hp
    · next h => exact absurd h hhdr
    · next h => exact absurd h htoken
    · next h => exact absurd h hflush
    · rfl

/-- The six compress commands are one meaning, their visit of `P_CHECK` apart. -/
theorem exec_commandOf_encode {op : Op} (hop : op ≠ .decompress) (f : Fmt) (s : State) :
    ∃ check, exec (commandOf op f) s = execEncode op f check s := by
  cases op with
  | compress => exact ⟨_, exec_compress f s⟩
  | compressFast => exact ⟨_, exec_compressFast f s⟩
  | decompress => exact absurd rfl hop

theorem execDecode_outOfSequence {f : Fmt} {s : State} (h : s.op ≠ .decompress ∨ s.fmt ≠ f ∨ s.phase ≠ .check) :
    execDecode f s = .refused .outOfSequence := if_pos h

theorem execMatch_of_otherPhase {f : Fmt} {offset length : Nat} {s : State} (ht : s.phase ≠ .dToken)
    (hc : s.phase ≠ .dCopy) : execMatch f offset length s = .refused .outOfSequence := by
  unfold execMatch
  split
  · rfl
  · split
    · next h => exact absurd h ht
    · next h => exact absurd h hc
    · rfl

theorem execMatch_of_otherFmt {f : Fmt} {s : State} (offset length : Nat) (h : s.fmt ≠ f) :
    execMatch f offset length s = .refused .outOfSequence := if_pos h

theorem execMatch_of_otherCopy {f : Fmt} {offset length : Nat} {s : State} (hp : s.phase = .dCopy)
    (h : s.tOff ≠ offset ∨ s.tLen ≠ length) : execMatch f offset length s = .refused .outOfSequence := by
  simp only [execMatch, hp, if_pos h, ite_self]

/-- No two formats share a tag (30_encoding.md R71). -/
theorem tag_injective {f g : Fmt} (h : f.spec.tag = g.spec.tag) : f = g := by
  revert h
  cases f <;> cases g <;> decide

theorem execHeader_of_otherFmt {f : Fmt} {s : State} (origLen : Word) (hp : s.phase = .dHdr) (hf : s.fmt ≠ f) :
    execHeader f origLen s = .next (raise .malformedStream s) := by
  have htag : f.spec.tag ≠ s.fmt.spec.tag := fun h => hf (tag_injective h).symm
  simp [execHeader, hp, htag]

/-- Settles O34: each meaning's own guard. -/
theorem outOfSequenceIsRefused : Obligations.OutOfSequenceIsRefused := by
  intro f s
  refine ⟨fun origLen hp => ?_, fun origLen hp hf => ?_, fun byte h => ?_, fun offset length h => ?_,
    fun offset length hp h => ?_, fun bits h => ?_, fun op h => ?_, fun op hop hp he => ?_, fun hp => ?_⟩
  · rw [exec_hdrOf]
    exact if_pos hp
  · rw [exec_hdrOf, execHeader_of_otherFmt origLen hp hf]
  · rw [exec_litOf]
    exact if_pos h
  · rw [exec_matchOf]
    rcases h with ⟨ht, hc⟩ | hf
    · exact execMatch_of_otherPhase ht hc
    · exact execMatch_of_otherFmt offset length hf
  · rw [exec_matchOf, execMatch_of_otherCopy hp h]
  · rw [exec_padOf]
    exact if_pos h
  · by_cases hop : op = .decompress
    · subst hop
      rw [exec_decompress, execDecode_outOfSequence (or_assoc.1 (.inl h))]
    · obtain ⟨check, he⟩ := exec_commandOf_encode hop f s
      rw [he, execEncode_of_other check h]
  · obtain ⟨check, hexec⟩ := exec_commandOf_encode hop f s
    rw [hexec, execEncode_of_phase check hp he]
  · rw [exec_decompress, execDecode_outOfSequence (.inr (.inr hp))]

/-! The host's register moves (10_state.md R24 to R29). -/

theorem step_of_writeReg {s : State} {number : Nat} {value : Word} {rest : List HostAct}
    (h : s.acts = .writeReg number value :: rest) (hs : number ≠ 0 ∨ value ≠ 1) :
    step s = regWrite number value { s with acts := rest } := by
  have hne : HostAct.writeReg number value ≠ .writeReg 0 1 := fun hc => by
    obtain ⟨h0, h1⟩ := HostAct.writeReg.inj hc
    exact hs.elim (· h0) (· h1)
  exact step_of_hostMove h (by simp) hne

theorem regWrite_noSuchRegister {number : Nat} (value : Word) (s : State) (h : 6 ≤ number) :
    regWrite number value s = .refused .noSuchRegister := if_pos h

theorem regWrite_of_busy {s : State} {number : Nat} (value : Word) (hn : number ≤ 5) (hb : s.callState = .busy) :
    regWrite number value s = .next s := by
  unfold regWrite
  rw [if_neg (by omega), if_pos hb]

theorem regWrite_reservedControlBits {s : State} {value : Word} (hb : s.callState ≠ .busy) (hv : value ≠ 0) :
    regWrite 0 value s = .refused .reservedControlBits := by
  unfold regWrite
  rw [if_neg (by decide), if_neg hb]
  exact if_neg hv

theorem execStart_of_busy {s : State} (hb : s.callState = .busy) : execStart s = .next s := if_pos hb

/-- Settles O35: START and the other register writes each look at BUSY first. -/
theorem busyIgnoresRegisterWrites : Obligations.BusyIgnoresRegisterWrites := by
  intro s number value rest ha hn hb
  by_cases hstart : number = 0 ∧ value = 1
  · obtain ⟨rfl, rfl⟩ := hstart
    rw [step_of_start ha, execStart_of_busy (by exact hb)]
  · rw [step_of_writeReg ha (not_and_or.1 hstart), regWrite_of_busy value hn (by exact hb)]

/-- Settles O36: no such write is START, so each is its arm of `regWrite`. -/
theorem registerWritesReachTheirRegister : Obligations.RegisterWritesReachTheirRegister := by
  intro s number value rest ha
  refine ⟨fun hn => ?_, fun hb => ⟨?_, ?_, ?_, ?_, ?_⟩⟩
  · rw [step_of_writeReg ha (.inl (by omega)), regWrite_noSuchRegister value _ hn]
  · rintro rfl rfl
    rw [step_of_writeReg ha (.inr (by decide))]
    simp [regWrite, hb]
  · rintro rfl h0 h1
    rw [step_of_writeReg ha (.inr h1), regWrite_reservedControlBits (by exact hb) h0]
  all_goals
    rintro rfl
    rw [step_of_writeReg ha (.inl (by decide))]
    simp [regWrite, hb]

/-- Settles O38: BUSY or not, `regWrite` has nothing to do. -/
theorem readOnlyRegistersKeepTheirValue : Obligations.ReadOnlyRegistersKeepTheirValue := by
  intro s number value rest ha hn
  rw [step_of_writeReg ha (.inl (by omega))]
  by_cases hb : s.callState = .busy
  · exact regWrite_of_busy value (by omega) hb
  · rcases hn with rfl | rfl <;> simp [regWrite, hb]

theorem step_of_readReg {s : State} {number : Nat} {v : Word} {rest : List HostAct}
    (h : s.acts = .readReg number :: rest) (hv : regRead number { s with acts := rest } = some v) :
    step s = .next { s with acts := rest, hostData := v, awaitingEnd := s.awaitingEnd && !showsEnd number s } := by
  rw [step_of_hostMove h (by simp) (by simp)]
  simp only [hostMove, hv]
  rfl

/-- A register read that does not show the end of a call leaves the buffers with whom they are. -/
theorem step_of_readReg_noEnd {s : State} {number : Nat} {v : Word} {rest : List HostAct}
    (h : s.acts = .readReg number :: rest) (hv : regRead number { s with acts := rest } = some v)
    (he : showsEnd number s = false) : step s = .next { s with acts := rest, hostData := v } := by
  rw [step_of_readReg h hv, he, Bool.not_false, Bool.and_true]

theorem step_of_readReg_none {s : State} {number : Nat} {rest : List HostAct} (h : s.acts = .readReg number :: rest)
    (hn : 6 ≤ number) : step s = .refused .noSuchRegister := by
  obtain ⟨k, rfl⟩ := Nat.exists_eq_add_of_le' hn
  rw [step_of_hostMove h (by simp) (by simp)]
  rfl

/-- Settles O37: only a STATUS read in DONE or FAILED shows an end. -/
theorem registerReadsHaveNoSideEffect : Obligations.RegisterReadsHaveNoSideEffect := by
  intro s number rest ha
  refine ⟨?_, ?_, ?_, ?_, ?_, ?_, ?_, step_of_readReg_none ha⟩
  case refine_5 =>
    rintro rfl hc
    exact step_of_readReg_noEnd ha rfl (by rcases hc with hc | hc <;> simp [showsEnd, hc])
  case refine_6 =>
    rintro rfl hc
    have hend : showsEnd 4 s = true := by simp [showsEnd, hc]
    rw [step_of_readReg ha rfl, hend, Bool.not_true, Bool.and_false]
    rfl
  all_goals
    rintro rfl
    exact step_of_readReg_noEnd ha rfl rfl

/-! The host's buffer moves (10_state.md R30, 20_memory.md R63). -/

theorem buffersOwned_iff {s : State} : buffersOwned s = true ↔ s.callState = .busy ∨ s.awaitingEnd = true := by
  simp [buffersOwned]

theorem buffersOwned_of_free {s : State} (hb : s.callState ≠ .busy) (hw : s.awaitingEnd = false) :
    buffersOwned s = false := by
  simp [buffersOwned, hb, hw]

theorem bufferAccess_of_owned {s : State} (index : Word) (k : State) (h : buffersOwned s = true) :
    bufferAccess index s k = .refused .bufferOwnedByCall := if_pos h

theorem bufferAccess_of_free {s : State} {index : Word} (k : State) (h : buffersOwned s = false)
    (hi : index.toNat < Config.cap) : bufferAccess index s k = .next k := by
  rw [bufferAccess, h, if_neg Bool.false_ne_true, if_neg (by omega)]

theorem bufferAccess_at_cap {s : State} (k : State) (h : buffersOwned s = false) :
    bufferAccess 0xFFFFFFFF s k = .fault .noSuchIndex := by
  rw [bufferAccess, h, if_neg Bool.false_ne_true, if_pos (by decide)]

theorem step_of_writeIbuf {s : State} {index : Word} {byte : Byte} {rest : List HostAct}
    (h : s.acts = .writeIbuf index byte :: rest) :
    step s = bufferAccess index s { s with acts := rest, ibuf := memWrite s.ibuf index.toNat byte } :=
  step_of_hostMove h (by simp) (by simp)

theorem step_of_readIbuf {s : State} {index : Word} {rest : List HostAct} (h : s.acts = .readIbuf index :: rest) :
    step s = bufferAccess index s { s with acts := rest, hostData := (ibufByte s index.toNat).setWidth 32 } :=
  step_of_hostMove h (by simp) (by simp)

theorem step_of_readObuf {s : State} {index : Word} {rest : List HostAct} (h : s.acts = .readObuf index :: rest) :
    step s = bufferAccess index s { s with acts := rest, hostData := (obufResult s index.toNat).setWidth 32 } :=
  step_of_hostMove h (by simp) (by simp)

theorem step_of_writeObuf {s : State} {index : Word} {byte : Byte} {rest : List HostAct}
    (h : s.acts = .writeObuf index byte :: rest) :
    step s = if buffersOwned s then .refused .bufferOwnedByCall else .refused .obufReadOnly :=
  step_of_hostMove h (by simp) (by simp)

theorem ibufByte_memWrite (s : State) (acts : List HostAct) (k a : Nat) (byte : Byte) :
    ibufByte { s with acts := acts, ibuf := memWrite s.ibuf k byte } a = if a = k then byte else ibufByte s a := by
  simp only [ibufByte, cellGet_memWrite]
  split <;> rfl

theorem obufResult_of_done {s : State} {a : Nat} (hd : s.callState = .done) (ha : a < s.outLen.toNat) :
    obufResult s a = obufByte s a := if_pos ⟨hd, ha⟩

theorem obufResult_of_none {s : State} {a : Nat} (h : s.callState ≠ .done ∨ s.outLen.toNat ≤ a) :
    obufResult s a = Config.unspecifiedObuf s.engine s.obufEpoch a := if_neg fun hc => by
  rcases h with h | h
  · exact h hc.1
  · omega

/-- Settles O39: ownership decides first; IBUF is read after the write, OBUF by `obufResult`. -/
theorem hostBufferAccess : Obligations.HostBufferAccess := by
  intro s rest index hi
  constructor
  · intro hb hw
    have hfree := buffersOwned_of_free hb hw
    refine ⟨fun byte ha => ?_, fun ha => ?_, fun ha hd hlt => ?_, fun ha hnone => ?_⟩
    · rw [step_of_writeIbuf ha, bufferAccess_of_free _ hfree hi]
      refine ⟨_, rfl, rfl, ?_, fun a hne => ?_⟩
      · rw [ibufByte_memWrite, if_pos rfl]
      · rw [ibufByte_memWrite, if_neg hne]
    · rw [step_of_readIbuf ha, bufferAccess_of_free _ hfree hi]
    · rw [step_of_readObuf ha, bufferAccess_of_free _ hfree hi, obufResult_of_done hd hlt]
    · rw [step_of_readObuf ha, bufferAccess_of_free _ hfree hi, obufResult_of_none hnone]
  · intro hown
    have howned := buffersOwned_iff.2 hown
    refine ⟨fun byte ha => ?_, fun ha => ?_, fun ha => ?_⟩
    · rw [step_of_writeIbuf ha, bufferAccess_of_owned _ _ howned]
    · rw [step_of_readIbuf ha, bufferAccess_of_owned _ _ howned]
    · rw [step_of_readObuf ha, bufferAccess_of_owned _ _ howned]

/-- Settles O40: an access to a free buffer ends at `CAP`; OBUF is refused by ownership or else as read-only. -/
theorem hostBufferStops : Obligations.HostBufferStops := by
  intro s rest
  constructor
  · intro hb hw
    have hfree := buffersOwned_of_free hb hw
    refine ⟨fun byte ha => ?_, fun ha => ?_, fun ha => ?_, fun index byte ha => ?_⟩
    · rw [step_of_writeIbuf ha, bufferAccess_at_cap _ hfree]
    · rw [step_of_readIbuf ha, bufferAccess_at_cap _ hfree]
    · rw [step_of_readObuf ha, bufferAccess_at_cap _ hfree]
    · rw [step_of_writeObuf ha, hfree, if_neg Bool.false_ne_true]
  · intro hown index byte ha
    rw [step_of_writeObuf ha, if_pos (buffersOwned_iff.2 hown)]

end Sys2Proof.Machine

/-! SUPPORT. The buffers (20_memory.md): a byte written, a copy inside OBUF, and that no visit of a phase stops. -/

namespace Sys2Proof.Machine

/-! A copy byte by byte (43_token_decoder.md R147). -/

/-- An engine that is copying, or has just copied the last byte and taken the loop test: the cursors are in step, and
the phase is `D_COPY` until no byte remains. -/
structure Copying (s : State) : Prop where
  acts : s.acts = []
  phase : s.phase = if s.rem = 0 then decodeLoop s else .dCopy
  wr : s.wr = s.olen
  rd : s.rd + s.tOff = s.wr
  tOff : 1 ≤ s.tOff

/-- `t` is `s` after the `s.rem` bytes still to copy: each is the byte that `t` holds `t_off` below it, and no other byte
of OBUF has changed. -/
structure CopiedAll (s t : State) : Prop where
  olen : t.olen = s.olen + s.rem
  rd : t.rd = s.rd + s.rem
  wr : t.wr = s.wr + s.rem
  rem : t.rem = 0
  c : t.c = s.c
  phase : t.phase = if s.olen + s.rem < s.origLen then .dToken else .dTail
  copied : ∀ k < s.rem, obufByte t (s.olen + k) = obufByte t (s.olen + k - s.tOff)
  frame : ∀ a, a < s.olen ∨ s.olen + s.rem ≤ a → obufByte t a = obufByte s a

theorem obufByte_copyByte (s : State) (a : Nat) :
    obufByte (copyByte s) a = if a = s.wr then obufByte s s.rd else obufByte s a := by
  simp only [obufByte, copyByte, cellGet_memWrite]
  split <;> rfl

theorem runSteps_of_step {s t : State} (k : Nat) (h : step s = .next t) : runSteps (k + 1) s = runSteps k t := by
  simp only [runSteps, h]

theorem Copying.step_eq {s : State} (h : Copying s) (hr : 0 < s.rem) : step s = .next (copyByte s) := by
  have hp : s.phase = .dCopy := h.phase.trans (if_neg hr.ne')
  obtain ⟨-, -, hcopy, -⟩ := stepRunsTheFetchedInstruction
  rw [hcopy s h.acts hp, exec_matchOf, execMatch_of_copying hp rfl hr]

theorem copying_copyByte {s : State} (h : Copying s) : Copying (copyByte s) where
  acts := h.acts
  phase := rfl
  wr := congrArg (· + 1) h.wr
  rd := show s.rd + 1 + s.tOff = s.wr + 1 by rw [← h.rd]; omega
  tOff := h.tOff

theorem Copying.copiedAll_of_rem_eq_zero {s : State} (h : Copying s) (hr : s.rem = 0) : CopiedAll s s where
  olen := by rw [hr]; rfl
  rd := by rw [hr]; rfl
  wr := by rw [hr]; rfl
  rem := hr
  c := rfl
  phase := by rw [h.phase, if_pos hr, hr]; rfl
  copied := fun k hk => by omega
  frame := fun _ _ => rfl

/-- The byte copied first stands where it was written, and the byte it was read from is below the copy. -/
theorem Copying.copiedAll_of_copyByte {s t : State} (h : Copying s) (hr : 0 < s.rem)
    (ht : CopiedAll (copyByte s) t) : CopiedAll s t := by
  have hwr := h.wr
  have hrd := h.rd
  have htOff := h.tOff
  have hend : s.olen + 1 + (s.rem - 1) = s.olen + s.rem := by omega
  have hframe : ∀ a, a < s.olen + 1 ∨ s.olen + s.rem ≤ a →
      obufByte t a = if a = s.olen then obufByte s s.rd else obufByte s a := fun a ha => by
    rw [ht.frame a (ha.imp_right hend.trans_le), obufByte_copyByte, hwr]
  exact
    { olen := ht.olen.trans hend
      rd := ht.rd.trans (show s.rd + 1 + (s.rem - 1) = s.rd + s.rem by omega)
      wr := ht.wr.trans (show s.wr + 1 + (s.rem - 1) = s.wr + s.rem by omega)
      rem := ht.rem
      c := ht.c
      phase := by rw [ht.phase, ← hend]; rfl
      copied := fun k hk => by
        cases k with
        | zero =>
          have hfrom : s.olen + 0 - s.tOff = s.rd := by omega
          rw [hfrom, hframe _ (by omega), hframe _ (by omega), if_pos (Nat.add_zero _),
            if_neg (by omega)]
        | succ k =>
          have hnext : s.olen + (k + 1) = s.olen + 1 + k := by omega
          rw [hnext]
          exact ht.copied k (show k < s.rem - 1 by omega)
      frame := fun a ha => by rw [hframe a (by omega), if_neg (by omega)] }

theorem Copying.runSteps_rem {s : State} (h : Copying s) : ∃ t, runSteps s.rem s = .next t ∧ CopiedAll s t := by
  induction hn : s.rem generalizing s with
  | zero => exact ⟨s, rfl, h.copiedAll_of_rem_eq_zero hn⟩
  | succ n ih =>
    have hr : 0 < s.rem := by omega
    obtain ⟨t, hrun, ht⟩ := ih (copying_copyByte h) (show s.rem - 1 = n by omega)
    exact ⟨t, (runSteps_of_step n (h.step_eq hr)).trans hrun, h.copiedAll_of_copyByte hr ht⟩

/-- Where every byte from `o` on equals the byte `off` below it, the last `off` bytes before `o` repeat. -/
theorem eq_mod_of_periodic {D : Nat → Byte} {o off len : Nat} (h1 : 1 ≤ off) (hle : off ≤ o)
    (h : ∀ k < len, D (o + k) = D (o + k - off)) {k : Nat} (hk : k < len) : D (o + k) = D (o - off + k % off) := by
  induction k using Nat.strong_induction_on with
  | _ k ih =>
    rw [h k hk]
    by_cases hlt : k < off
    · rw [Nat.mod_eq_of_lt hlt, Nat.sub_add_comm hle]
    · rw [Nat.mod_eq_sub_mod (by omega), ← ih (k - off) (by omega) (by omega), Nat.add_sub_assoc (by omega)]

/-- Settles O31, by induction on the bytes still to copy: after the copy each byte equals the one `t_off` below it, and
the `t_off` bytes below the copy stood there before. -/
theorem copyRepeatsTheLastBytes : Obligations.CopyRepeatsTheLastBytes := by
  intro s ha hp hr htOff hwr hrd
  have hcopying : Copying s := ⟨ha, hp.trans (if_neg hr.ne').symm, hwr, hrd, htOff⟩
  obtain ⟨t, hrun, ht⟩ := hcopying.runSteps_rem
  refine ⟨t, hrun, ht.olen, ht.rd, ht.wr, ht.rem, ht.c, ht.phase, fun k hk => ?_, ht.frame⟩
  have hmod : k % s.tOff < s.tOff := Nat.mod_lt k htOff
  rw [eq_mod_of_periodic htOff (by omega) ht.copied hk, ht.frame _ (by omega)]

/-! No visit of a phase stops (20_memory.md R56, 60_exceptions.md R190). -/

theorem step_of_decodeError {s : State} {e : DecodeError} (ha : s.acts = [])
    (hf : fetchEngine s = fetchDecoded (.error e) s) : step s = decodeFault e s := by
  rw [step_of_no_acts ha]
  simp only [engineOutcome, hf, fetchDecoded]

theorem execHeader_answers {s : State} (f : Fmt) (origLen : Word) (hp : s.phase = .dHdr) :
    ∃ t, execHeader f origLen s = .next t := by
  unfold execHeader
  rw [if_neg (not_not.2 hp)]
  split
  · exact ⟨_, rfl⟩
  · split <;> exact ⟨_, rfl⟩

theorem execPad_answers {s : State} {bits : Nat} (hp : s.phase = .dTail) (hb : s.tBits - s.c = bits) :
    ∃ t, execPad s.fmt bits s = .next t := by
  unfold execPad
  rw [if_neg (by simp [hp, hb])]
  split
  · exact ⟨_, rfl⟩
  · split <;> exact ⟨_, rfl⟩

theorem execEncode_answers {s : State} (check : State → State) (hp : s.phase = .check ∨ encoding s = true) :
    ∃ t, execEncode s.op s.fmt check s = .next t := by
  have hphase : s.phase = .check ∨ s.phase = .cHdr ∨ s.phase = .cToken ∨ s.phase = .cFlush := by
    simpa [encoding] using hp
  unfold execEncode
  rw [if_neg (by simp)]
  rcases hphase with hp | hp | hp | hp <;> rw [hp] <;> exact ⟨_, rfl⟩

theorem exec_commandOf_answers {s : State} (hp : s.phase = .check ∨ encoding s = true)
    (hop : encoding s = true → s.op ≠ .decompress) : ∃ t, exec (commandOf s.op s.fmt) s = .next t := by
  by_cases hdec : s.op = .decompress
  · have hcheck : s.phase = .check := hp.resolve_right fun he => hop he hdec
    rw [hdec, decompressGoesToItsHeader s.fmt s hdec rfl hcheck]
    exact ⟨_, rfl⟩
  · obtain ⟨check, hexec⟩ := exec_commandOf_encode hdec s.fmt s
    rw [hexec]
    exact execEncode_answers check hp

theorem step_answers_of_dHdr {s : State} (ha : s.acts = []) (hp : s.phase = .dHdr) : ∃ t, step s = .next t := by
  cases hd : decodeHeader (headerBytes s) with
  | error e =>
    have hf : fetchEngine s = fetchDecoded (.error e) s := by simp only [fetchEngine, hp, hd]
    rw [step_of_decodeError ha hf]
    rcases decodeHeader_error (by simp) hd with rfl | rfl <;> exact ⟨_, rfl⟩
  | ok i =>
    obtain ⟨hrun, -⟩ := stepRunsTheFetchedInstruction
    obtain ⟨f, _, b0, b1, b2, b3, -, -, rfl⟩ := decodeHeader_ok hd
    rw [hrun s _ ha hp hd, exec_hdrOf]
    exact execHeader_answers f _ hp

theorem step_answers_of_dToken {s : State} (ha : s.acts = []) (hp : s.phase = .dToken) : ∃ t, step s = .next t := by
  cases hd : decodeToken s.fmt (streamBits 24 s) with
  | error e =>
    have hf : fetchEngine s = fetchDecoded (.error e) s := by simp only [fetchEngine, hp, tokenAt, maxTokenBits, hd]
    rw [step_of_decodeError ha hf]
    rcases decodeToken_error hd with ⟨rfl, -⟩ | ⟨rfl, -⟩ | ⟨rfl, -⟩ | ⟨o, rfl, -⟩ <;> exact ⟨_, rfl⟩
  | ok p =>
    obtain ⟨i, rest⟩ := p
    obtain ⟨-, hrun, -⟩ := stepRunsTheFetchedInstruction
    rw [hrun s i rest ha hp hd]
    rcases decodeToken_ok hd with ⟨byte, rfl, hlen⟩ | ⟨o, l, rfl, -, -, hlen⟩ <;> rw [streamBits_length] at hlen
    · rw [exec_litOf, execLit_of_room hp rfl (by omega)]
      exact ⟨_, rfl⟩
    · rw [exec_matchOf, execMatch, if_neg (not_not.2 rfl), hp]
      exact ⟨_, matchStart_of_room (by omega)⟩

theorem step_answers_of_dTail {s : State} (ha : s.acts = []) (hp : s.phase = .dTail) : ∃ t, step s = .next t := by
  cases hd : decodeTail s.fmt (streamBits 8 s) with
  | error e =>
    have hf : fetchEngine s = fetchDecoded (.error e) s := by simp only [fetchEngine, hp, hd]
    rw [step_of_decodeError ha hf]
    rcases decodeTail_error hd with ⟨rfl, -⟩ | ⟨rfl, -⟩ <;> exact ⟨_, rfl⟩
  | ok i =>
    obtain ⟨-, -, -, hrun, -⟩ := stepRunsTheFetchedInstruction
    obtain ⟨rfl, hlen, -⟩ := decodeTail_ok hd
    rw [hrun s _ ha hp hd, exec_padOf]
    rw [streamBits_length] at hlen ⊢
    exact execPad_answers hp (by omega)

/-- Settles O44: each phase's visit answers; the invariant gives a command its operation and a copy its byte. -/
theorem engineNeverStops : Obligations.EngineNeverStops := by
  intro s hi ha
  obtain ⟨-, -, hcopy, -, hcommand, -⟩ := stepRunsTheFetchedInstruction
  have command : s.phase = .check ∨ encoding s = true → ∃ t, step s = .next t := fun hp => by
    rw [hcommand s ha hp]
    exact exec_commandOf_answers hp hi.status.encoding_op
  cases hp : s.phase with
  | idle => exact ⟨s, idleEngineDoesNothing s ha hp⟩
  | check => exact command (.inl hp)
  | cHdr | cToken | cFlush => exact command (.inr (by simp [encoding, hp]))
  | dHdr => exact step_answers_of_dHdr ha hp
  | dToken => exact step_answers_of_dToken ha hp
  | dCopy =>
    obtain ⟨hrem, -⟩ := hi.dec.copy hp
    rw [hcopy s ha hp, exec_matchOf, execMatch_of_copying hp rfl hrem]
    exact ⟨_, rfl⟩
  | dTail => exact step_answers_of_dTail ha hp

/-! One byte (20_memory.md R59). -/

/-- Settles O41: the laws of `memWrite`. -/
theorem bufferReadsWhatWasWritten : Obligations.BufferReadsWhatWasWritten := by
  intro m a v hm
  exact ⟨memWrite_wf hm a v, cellGet_cellSet_same m a v, fun b hne => cellGet_cellSet_other m v hne⟩

end Sys2Proof.Machine

/-! SUPPORT. The encodings (30_encoding.md): a field and its bits, tokens, the header, the tail, and that `decode` and
`encode` are inverse to each other on well-formed instructions. -/

namespace Sys2Proof.Machine

/-! A field and its bits (30_encoding.md R75). The most significant bit first is the least significant bit first,
reversed, so each law is proved by induction for one order only. -/

theorem fieldBits_lsbFirst_succ (W v : Nat) :
    fieldBits .lsbFirst (W + 1) v = decide (v % 2 = 1) :: fieldBits .lsbFirst W (v / 2) := by
  simp [fieldBits, List.range_succ_eq_map, Nat.testBit_succ, Nat.testBit_zero]

theorem fieldBits_msbFirst (W v : Nat) : fieldBits .msbFirst W v = (fieldBits .lsbFirst W v).reverse := by
  refine List.ext_getElem (by simp) fun k _ _ => ?_
  simp [fieldBits]

theorem fieldValue_msbFirst (bits : List Bool) : fieldValue .msbFirst bits = fieldValue .lsbFirst bits.reverse := by
  simp [fieldValue, Nat.add_comm]

theorem fieldValue_fieldBits_lsbFirst (W v : Nat) : fieldValue .lsbFirst (fieldBits .lsbFirst W v) = v % 2 ^ W := by
  induction W generalizing v with
  | zero => simp [fieldBits, fieldValue, Nat.mod_one]
  | succ W ih =>
    have hcons : fieldValue .lsbFirst (fieldBits .lsbFirst (W + 1) v) =
        (decide (v % 2 = 1)).toNat + 2 * fieldValue .lsbFirst (fieldBits .lsbFirst W (v / 2)) := by
      rw [fieldBits_lsbFirst_succ]
      rfl
    have hbit : (decide (v % 2 = 1)).toNat = v % 2 := by
      rcases Nat.mod_two_eq_zero_or_one v with h | h <;> simp [h]
    rw [hcons, hbit, ih, pow_succ', Nat.mod_mul]

theorem fieldBits_fieldValue_lsbFirst (bits : List Bool) :
    fieldBits .lsbFirst bits.length (fieldValue .lsbFirst bits) = bits := by
  induction bits with
  | nil => rfl
  | cons b rest ih =>
    have hval : fieldValue .lsbFirst (b :: rest) = b.toNat + 2 * fieldValue .lsbFirst rest := rfl
    have hbit : decide ((b.toNat + 2 * fieldValue .lsbFirst rest) % 2 = 1) = b := by cases b <;> simp
    have hrest : (b.toNat + 2 * fieldValue .lsbFirst rest) / 2 = fieldValue .lsbFirst rest := by
      have := b.toNat_lt
      omega
    rw [List.length_cons, fieldBits_lsbFirst_succ, hval, hbit, hrest, ih]

theorem fieldValue_fieldBits (o : BitOrder) {W v : Nat} (h : v < 2 ^ W) : fieldValue o (fieldBits o W v) = v := by
  have hlsb : fieldValue .lsbFirst (fieldBits .lsbFirst W v) = v := by
    rw [fieldValue_fieldBits_lsbFirst, Nat.mod_eq_of_lt h]
  cases o with
  | lsbFirst => exact hlsb
  | msbFirst => rw [fieldValue_msbFirst, fieldBits_msbFirst, List.reverse_reverse, hlsb]

theorem fieldBits_fieldValue (o : BitOrder) (bits : List Bool) :
    fieldBits o bits.length (fieldValue o bits) = bits := by
  cases o with
  | lsbFirst => exact fieldBits_fieldValue_lsbFirst bits
  | msbFirst =>
    rw [fieldBits_msbFirst, fieldValue_msbFirst, ← List.length_reverse, fieldBits_fieldValue_lsbFirst,
      List.reverse_reverse]

theorem takeField_fieldBits_append (o : BitOrder) {W v : Nat} (h : v < 2 ^ W) (rest : List Bool) :
    takeField o W (fieldBits o W v ++ rest) = some (v, rest) := by
  have hlen : W ≤ (fieldBits o W v ++ rest).length := by simp
  rw [takeField, if_neg hlen.not_gt, List.take_left' (fieldBits_length o W v),
    List.drop_left' (fieldBits_length o W v), fieldValue_fieldBits o h]

/-- What a field read off the front was: its own bits, then what is left. -/
theorem eq_fieldBits_append_of_takeField {o : BitOrder} {W v : Nat} {bits rest : List Bool}
    (h : takeField o W bits = some (v, rest)) : bits = fieldBits o W v ++ rest := by
  obtain ⟨hlen, rfl, rfl, -⟩ := takeField_some h
  have hbits := fieldBits_fieldValue o (bits.take W)
  rw [List.length_take_of_le hlen] at hbits
  rw [hbits, List.take_append_drop]

/-- Any long enough run of bits begins with the bits of a field. -/
theorem exists_eq_fieldBits_append (o : BitOrder) {W : Nat} {bits : List Bool} (h : W ≤ bits.length) :
    ∃ v rest, bits = fieldBits o W v ++ rest ∧ v < 2 ^ W := by
  cases ht : takeField o W bits with
  | none => exact absurd (takeField_none.mp ht) h.not_gt
  | some p =>
    obtain ⟨-, -, -, hv⟩ := takeField_some ht
    exact ⟨p.1, p.2, eq_fieldBits_append_of_takeField ht, hv⟩

/-! Tokens (30_encoding.md R76 to R78, R80). -/

theorem flagMatch_ne_flagLit (f : Fmt) : f.spec.flagMatch ≠ f.spec.flagLit := by
  simp [FormatSpec.flagMatch]

/-- The offsets and lengths a format admits are those its biased fields reach, the widths of R72 included. -/
theorem matchWellFormed_iff {f : Fmt} {offset length : Nat} : matchWellFormed f.spec offset length = true ↔
    (1 ≤ offset ∧ offset - 1 < 2 ^ f.spec.offBits) ∧ f.spec.minLen ≤ length ∧
      length - f.spec.minLen < 2 ^ f.spec.lenBits := by
  have hwin : 2 ^ f.spec.offBits = f.spec.winMax := by cases f <;> rfl
  have hmax : 2 ^ f.spec.lenBits + f.spec.minLen = f.spec.maxLen + 1 := by cases f <;> rfl
  simp only [matchWellFormed, Bool.and_eq_true, decide_eq_true_eq]
  omega

theorem matchWellFormed_operands {f : Fmt} {o l : Nat} (ho : o < 2 ^ f.spec.offBits) (hl : l < 2 ^ f.spec.lenBits) :
    matchWellFormed f.spec (offsetOperand o) (lengthOperand f.spec l) = true := by
  simp [matchWellFormed_iff, offsetOperand, lengthOperand, ho, hl]

theorem matchBits_operands (f : Fmt) (o l : Nat) : matchBits f (offsetOperand o) (lengthOperand f.spec l) =
    f.spec.flagMatch :: (fieldBits f.spec.order f.spec.offBits o ++ fieldBits f.spec.order f.spec.lenBits l) := by
  simp [matchBits, offsetOperand, lengthOperand]

theorem decodeToken_litBits_append (f : Fmt) (byte : Byte) (rest : List Bool) :
    decodeToken f (litBits f byte ++ rest) = .ok (litOf f byte, rest) := by
  have hbyte : litOperand byte.toNat = byte := (BitVec.ofNat_toNat 8 byte).trans (BitVec.setWidth_eq byte)
  simp [litBits, decodeToken, takeField_fieldBits_append _ byte.isLt, hbyte]

theorem decodeToken_matchBits_append {f : Fmt} {offset length : Nat} (h : matchWellFormed f.spec offset length = true)
    (rest : List Bool) : decodeToken f (matchBits f offset length ++ rest) = .ok (matchOf f offset length, rest) := by
  obtain ⟨⟨hoff, ho⟩, hlen, hl⟩ := matchWellFormed_iff.mp h
  have hoperands : offsetOperand (offset - 1) = offset ∧ lengthOperand f.spec (length - f.spec.minLen) = length :=
    ⟨Nat.sub_add_cancel hoff, Nat.sub_add_cancel hlen⟩
  simp [matchBits, decodeToken, flagMatch_ne_flagLit, takeField_fieldBits_append _ ho, takeField_fieldBits_append _ hl,
    hoperands]

/-- Settles O4: the flag chooses the fields, and each field is taken off the front. -/
theorem tokensDecodeWhateverFollows : Obligations.TokensDecodeWhateverFollows := fun f rest =>
  ⟨fun byte => decodeToken_litBits_append f byte rest, fun _ _ h => decodeToken_matchBits_append h rest⟩

/-- The bits `bits` begin with a token of format `f`, the instruction `i`, and `rest` follows it. -/
inductive TokenAtFront (f : Fmt) : List Bool → Instr → List Bool → Prop where
  | lit (byte : Byte) (rest : List Bool) : TokenAtFront f (litBits f byte ++ rest) (litOf f byte) rest
  | backRef {offset length : Nat} (h : matchWellFormed f.spec offset length = true) (rest : List Bool) :
      TokenAtFront f (matchBits f offset length ++ rest) (matchOf f offset length) rest

theorem TokenAtFront.of_litField (f : Fmt) {v : Nat} (h : v < 2 ^ 8) (rest : List Bool) :
    TokenAtFront f (f.spec.flagLit :: (fieldBits f.spec.order 8 v ++ rest)) (litOf f (litOperand v)) rest := by
  have hv : (litOperand v).toNat = v := (BitVec.toNat_ofNat v 8).trans (Nat.mod_eq_of_lt h)
  have hbits := TokenAtFront.lit (f := f) (litOperand v) rest
  rwa [litBits, hv] at hbits

theorem TokenAtFront.of_matchFields (f : Fmt) {o l : Nat} (ho : o < 2 ^ f.spec.offBits) (hl : l < 2 ^ f.spec.lenBits)
    (rest : List Bool) :
    TokenAtFront f
      (f.spec.flagMatch ::
        (fieldBits f.spec.order f.spec.offBits o ++ (fieldBits f.spec.order f.spec.lenBits l ++ rest)))
      (matchOf f (offsetOperand o) (lengthOperand f.spec l)) rest := by
  have hbits := TokenAtFront.backRef (matchWellFormed_operands ho hl) rest
  rwa [matchBits_operands, List.cons_append, List.append_assoc] at hbits

theorem TokenAtFront.decodeToken_eq {f : Fmt} {bits rest : List Bool} {i : Instr} (h : TokenAtFront f bits i rest) :
    decodeToken f bits = .ok (i, rest) := by
  cases h with
  | lit byte => exact decodeToken_litBits_append f byte rest
  | backRef hwf => exact decodeToken_matchBits_append hwf rest

/-- The token decoder reads exactly the token at the front. -/
theorem tokenAtFront_of_decodeToken {f : Fmt} {bits rest : List Bool} {i : Instr}
    (h : decodeToken f bits = .ok (i, rest)) : TokenAtFront f bits i rest := by
  unfold decodeToken at h
  split at h
  · cases h
  next flag bs =>
  split at h
  · next hflag =>
    split at h
    · cases h
    next v r hv =>
    cases h
    obtain ⟨-, -, -, hlt⟩ := takeField_some hv
    rw [hflag, eq_fieldBits_append_of_takeField hv]
    exact .of_litField f hlt rest
  · next hflag =>
    split at h
    · cases h
    next o r ho =>
    split at h
    · cases h
    next l r' hl =>
    cases h
    obtain ⟨-, -, -, hoLt⟩ := takeField_some ho
    obtain ⟨-, -, -, hlLt⟩ := takeField_some hl
    rw [Bool.eq_not.mpr hflag, eq_fieldBits_append_of_takeField ho, eq_fieldBits_append_of_takeField hl]
    exact .of_matchFields f hoLt hlLt rest

theorem exists_tokenAtFront {f : Fmt} {bits : List Bool} (h : f.spec.matchBits ≤ bits.length) :
    ∃ i rest, TokenAtFront f bits i rest := by
  cases bits with
  | nil => simp [FormatSpec.matchBits] at h
  | cons flag bs =>
    have hroom : f.spec.offBits + f.spec.lenBits ≤ bs.length := by
      simp only [FormatSpec.matchBits, List.length_cons] at h
      omega
    by_cases hflag : flag = f.spec.flagLit
    · have hlit : 8 ≤ f.spec.offBits + f.spec.lenBits := by cases f <;> decide
      obtain ⟨v, rest, rfl, hv⟩ := exists_eq_fieldBits_append f.spec.order (hlit.trans hroom)
      rw [hflag]
      exact ⟨_, _, .of_litField f hv rest⟩
    · obtain ⟨o, r, rfl, ho⟩ := exists_eq_fieldBits_append f.spec.order (Nat.le_of_add_right_le hroom)
      have hlen : f.spec.lenBits ≤ r.length := by simpa using hroom
      obtain ⟨l, rest, rfl, hl⟩ := exists_eq_fieldBits_append f.spec.order hlen
      rw [Bool.eq_not.mpr hflag]
      exact ⟨_, _, .of_matchFields f ho hl rest⟩

/-! The instructions by kind of record, each in its format (30_encoding.md R88). -/

/-- A property of every record and command, in every format, and of START is a property of every instruction. -/
theorem instr_cases {P : Instr → Prop} (hdr : ∀ f origLen, P (hdrOf f origLen)) (lit : ∀ f byte, P (litOf f byte))
    (backRef : ∀ f offset length, P (matchOf f offset length)) (pad : ∀ f bits, P (padOf f bits))
    (command : ∀ op f, P (commandOf op f)) (start : P .start) : ∀ i, P i
  | .hdrLz80 n => hdr .lz80 n
  | .hdrLz01 n => hdr .lz01 n
  | .hdrLz03 n => hdr .lz03 n
  | .litLz80 b => lit .lz80 b
  | .litLz01 b => lit .lz01 b
  | .litLz03 b => lit .lz03 b
  | .matchLz80 o l => backRef .lz80 o l
  | .matchLz01 o l => backRef .lz01 o l
  | .matchLz03 o l => backRef .lz03 o l
  | .padLz80 k => pad .lz80 k
  | .padLz01 k => pad .lz01 k
  | .padLz03 k => pad .lz03 k
  | .compressLz80 => command .compress .lz80
  | .decompressLz80 => command .decompress .lz80
  | .compressLz80Fast => command .compressFast .lz80
  | .compressLz01 => command .compress .lz01
  | .decompressLz01 => command .decompress .lz01
  | .compressLz01Fast => command .compressFast .lz01
  | .compressLz03 => command .compress .lz03
  | .decompressLz03 => command .decompress .lz03
  | .compressLz03Fast => command .compressFast .lz03
  | .start => start

@[simp] theorem encode_hdrOf (f : Fmt) (origLen : Word) : encode (hdrOf f origLen) = .header (hdrBytes f origLen) := by
  cases f <;> rfl

@[simp] theorem encode_litOf (f : Fmt) (byte : Byte) : encode (litOf f byte) = .token f (litBits f byte) := by
  cases f <;> rfl

@[simp] theorem encode_matchOf (f : Fmt) (offset length : Nat) :
    encode (matchOf f offset length) = .token f (matchBits f offset length) := by
  cases f <;> rfl

@[simp] theorem encode_padOf (f : Fmt) (bits : Nat) : encode (padOf f bits) = .tail f (List.replicate bits false) := by
  cases f <;> rfl

@[simp] theorem encode_commandOf (op : Op) (f : Fmt) : encode (commandOf op f) = .cmd (commandWord op f) := by
  cases op <;> cases f <;> rfl

@[simp] theorem wellFormed_hdrOf (f : Fmt) (origLen : Word) : (hdrOf f origLen).wellFormed = true := by
  cases f <;> rfl

@[simp] theorem wellFormed_litOf (f : Fmt) (byte : Byte) : (litOf f byte).wellFormed = true := by
  cases f <;> rfl

@[simp] theorem wellFormed_matchOf (f : Fmt) (offset length : Nat) :
    (matchOf f offset length).wellFormed = matchWellFormed f.spec offset length := by
  cases f <;> rfl

@[simp] theorem wellFormed_padOf (f : Fmt) (bits : Nat) : (padOf f bits).wellFormed = decide (bits ≤ 7) := by
  cases f <;> rfl

@[simp] theorem wellFormed_commandOf (op : Op) (f : Fmt) : (commandOf op f).wellFormed = true := by
  cases op <;> cases f <;> rfl

theorem TokenAtFront.wellFormed {f : Fmt} {bits rest : List Bool} {i : Instr} (h : TokenAtFront f bits i rest) :
    i.wellFormed = true := by
  cases h with
  | lit byte => exact wellFormed_litOf f byte
  | backRef hwf => rwa [wellFormed_matchOf]

theorem TokenAtFront.encode_eq {f : Fmt} {bits : List Bool} {i : Instr} (h : TokenAtFront f bits i []) :
    encode i = .token f bits := by
  cases h <;> simp

/-- Settles O5: a literal needs no more bits than a match, and the fields of either hold any bits. -/
theorem noTokenPatternIsReserved : Obligations.NoTokenPatternIsReserved := by
  intro f bits h
  obtain ⟨i, rest, htoken⟩ := exists_tokenAtFront h
  exact ⟨i, rest, htoken.decodeToken_eq, htoken.wellFormed⟩

theorem decode_token_eq_ok {f : Fmt} {bits : List Bool} {i : Instr} :
    decode (.token f bits) = .ok i ↔ decodeToken f bits = .ok (i, []) := by
  cases hd : decodeToken f bits with
  | error e => simp [decode, hd]
  | ok p =>
    obtain ⟨j, rest⟩ := p
    cases rest <;> simp [decode, hd]

theorem decode_litBits (f : Fmt) (byte : Byte) : decode (.token f (litBits f byte)) = .ok (litOf f byte) := by
  have htoken := decodeToken_litBits_append f byte []
  rwa [List.append_nil, ← decode_token_eq_ok] at htoken

theorem decode_matchBits {f : Fmt} {offset length : Nat} (h : matchWellFormed f.spec offset length = true) :
    decode (.token f (matchBits f offset length)) = .ok (matchOf f offset length) := by
  have htoken := decodeToken_matchBits_append h []
  rwa [List.append_nil, ← decode_token_eq_ok] at htoken

/-! The header (30_encoding.md R71). -/

theorem fmtOfTag_eq_some {t : Byte} {f : Fmt} : fmtOfTag t = some f ↔ t = f.spec.tag := by
  constructor
  · intro h
    unfold fmtOfTag at h
    split_ifs at h with h80 h01 h03 <;> cases h <;> assumption
  · rintro rfl
    cases f <;> rfl

theorem extractLsb'_append_byte {w : Nat} (hi : BitVec w) (lo : Byte) (k : Nat) :
    (hi ++ lo).extractLsb' (k + 8) 8 = hi.extractLsb' k 8 :=
  BitVec.extractLsb'_append_eq_of_le (Nat.le_add_left 8 k)

theorem le32Bytes_le32 (b0 b1 b2 b3 : Byte) : le32Bytes (le32 b0 b1 b2 b3) = [b0, b1, b2, b3] := by
  have h0 : (le32 b0 b1 b2 b3).extractLsb' 0 8 = b0 := BitVec.extractLsb'_append_eq_right
  have h1 : (le32 b0 b1 b2 b3).extractLsb' 8 8 = b1 :=
    (extractLsb'_append_byte (b3 ++ b2 ++ b1) b0 0).trans BitVec.extractLsb'_append_eq_right
  have h2 : (le32 b0 b1 b2 b3).extractLsb' 16 8 = b2 :=
    (extractLsb'_append_byte (b3 ++ b2 ++ b1) b0 8).trans <|
      (extractLsb'_append_byte (b3 ++ b2) b1 0).trans BitVec.extractLsb'_append_eq_right
  have h3 : (le32 b0 b1 b2 b3).extractLsb' 24 8 = b3 :=
    (extractLsb'_append_byte (b3 ++ b2 ++ b1) b0 16).trans <|
      (extractLsb'_append_byte (b3 ++ b2) b1 8).trans <|
        (extractLsb'_append_byte b3 b2 0).trans BitVec.extractLsb'_eq_self
  rw [le32Bytes, h0, h1, h2, h3]

/-- The four bytes of a length, put together again. -/
theorem le32_extractLsb' (n : Word) :
    le32 (n.extractLsb' 0 8) (n.extractLsb' 8 8) (n.extractLsb' 16 8) (n.extractLsb' 24 8) = n := by
  rw [le32, BitVec.extractLsb'_append_extractLsb'_eq_extractLsb' (by rfl),
    BitVec.extractLsb'_append_extractLsb'_eq_extractLsb' (by rfl),
    BitVec.extractLsb'_append_extractLsb'_eq_extractLsb' (by rfl)]
  exact BitVec.extractLsb'_eq_self

theorem decodeHeader_hdrBytes (f : Fmt) (origLen : Word) :
    decodeHeader (hdrBytes f origLen) = .ok (hdrOf f origLen) := by
  simp only [hdrBytes, le32Bytes, decodeHeader, fmtOfTag_eq_some.mpr rfl, le32_extractLsb']

/-! The tail (30_encoding.md R79). -/

theorem decodeTail_replicate (f : Fmt) {bits : Nat} (h : bits ≤ 7) :
    decodeTail f (List.replicate bits false) = .ok (padOf f bits) := by
  have hroom : ¬8 ≤ bits := by omega
  simp [decodeTail, hroom]

theorem eq_replicate_of_any_eq_false {bits : List Bool} (h : bits.any id = false) :
    bits = List.replicate bits.length false :=
  List.eq_replicate_of_mem (by simpa using h)

/-! START (10_state.md R25). -/

theorem decodeControl_ok {w : Word} {i : Instr} (h : decodeControl w = .ok i) : w = 1 ∧ i = .start := by
  unfold decodeControl at h
  split at h
  · next hw =>
    cases h
    exact ⟨hw, rfl⟩
  · cases h

/-! The round trips, kind by kind. -/

/-- Settles O2: kind by kind, the round trip of its record. -/
theorem decodeInvertsEncode : Obligations.DecodeInvertsEncode := by
  intro i
  cases i using instr_cases with
  | hdr f origLen => exact fun _ => by rw [encode_hdrOf]; exact decodeHeader_hdrBytes f origLen
  | lit f byte => exact fun _ => by rw [encode_litOf, decode_litBits]
  | backRef f offset length =>
    intro h
    rw [wellFormed_matchOf] at h
    rw [encode_matchOf, decode_matchBits h]
  | pad f bits =>
    intro h
    rw [wellFormed_padOf, decide_eq_true_eq] at h
    rw [encode_padOf]
    exact decodeTail_replicate f h
  | command op f => exact fun _ => by simp [decode, decodeCommand_commandWord]
  | start => exact fun _ => rfl

/-- Settles O3: what each decoder answers says what it was given. -/
theorem encodeInvertsDecode : Obligations.EncodeInvertsDecode := by
  intro code i h
  cases code with
  | header bytes =>
    obtain ⟨f, t, b0, b1, b2, b3, rfl, htag, rfl⟩ := decodeHeader_ok h
    rw [fmtOfTag_eq_some] at htag
    simp [hdrBytes, le32Bytes_le32, htag]
  | token f bits =>
    have htoken := tokenAtFront_of_decodeToken (decode_token_eq_ok.mp h)
    exact ⟨htoken.wellFormed, htoken.encode_eq⟩
  | tail f bits =>
    obtain ⟨rfl, hlen, hzero⟩ := decodeTail_ok h
    rw [wellFormed_padOf, encode_padOf, ← eq_replicate_of_any_eq_false hzero]
    exact ⟨decide_eq_true (Nat.le_of_lt_succ hlen), rfl⟩
  | cmd w =>
    cases hc : decodeCommand w with
    | none => simp [decode, hc] at h
    | some p =>
      obtain rfl : commandOf p.1 p.2 = i := by simpa [decode, hc] using h
      rw [wellFormed_commandOf, encode_commandOf, decodeCommand_eq_some.mp hc]
      exact ⟨rfl, rfl⟩
  | ctrl w =>
    obtain ⟨rfl, rfl⟩ := decodeControl_ok h
    exact ⟨rfl, rfl⟩

/-- Settles O1: each word is decoded. -/
theorem specWordsDecode : Obligations.SpecWordsDecode := by
  unfold Obligations.SpecWordsDecode
  decide

end Sys2Proof.Machine

/-! SUPPORT. The Match Finder (41_match_finder.md): the chain walk is a search of R110's hash-free candidate list, what the
best of a list is, and the visit of `C_TOKEN` that puts the answer's token. -/

namespace Sys2Proof.Machine

/-! The candidates without an index (41_match_finder.md R103, R110). -/

theorem hash_inj {a b c a' b' c' : Byte} : hash a b c = hash a' b' c' ↔ a = a' ∧ b = b' ∧ c = c' := by
  have := a.isLt; have := b.isLt; have := c.isLt
  have := a'.isLt; have := b'.isLt; have := c'.isLt
  simp only [hash, BitVec.toNat_eq]
  omega

theorem keyAt_eq_iff {D : Nat → Byte} {p q : Nat} :
    keyAt D p = keyAt D q ↔ D p = D q ∧ D (p + 1) = D (q + 1) ∧ D (p + 2) = D (q + 2) := hash_inj

/-- The positions in the window with the cursor's first three bytes, nearest first: `candidates` before its cut. -/
def prefixedInWindow (D : Nat → Byte) (w i : Nat) : List Nat :=
  ((List.range (min w i)).map fun d => i - 1 - d).filter fun j =>
    decide (D j = D i ∧ D (j + 1) = D (i + 1) ∧ D (j + 2) = D (i + 2))

theorem candidates_eq_take (D : Nat → Byte) (w i : Nat) :
    candidates D w i = (prefixedInWindow D w i).take Config.maxProbes := rfl

theorem mem_prefixedInWindow {D : Nat → Byte} {w i j : Nat} :
    j ∈ prefixedInWindow D w i ↔ (j < i ∧ i - j ≤ w) ∧ keyAt D j = keyAt D i := by
  have hwindow : (∃ d < min w i, i - 1 - d = j) ↔ j < i ∧ i - j ≤ w :=
    ⟨fun ⟨d, hd, he⟩ => by omega, fun h => ⟨i - 1 - j, by omega, by omega⟩⟩
  simp only [prefixedInWindow, List.mem_filter, List.mem_map, List.mem_range, decide_eq_true_eq, hwindow, keyAt_eq_iff]

theorem prefixedInWindow_descending (D : Nat → Byte) (w i : Nat) : (prefixedInWindow D w i).Pairwise (· > ·) := by
  refine List.Pairwise.filter _ (List.pairwise_map.mpr ?_)
  refine List.pairwise_lt_range.imp_of_mem fun {a b} _ hb hab => ?_
  have := List.mem_range.mp hb
  omega

theorem prefixedInWindow_prefix (D : Nat → Byte) {w w' : Nat} (i : Nat) (h : w ≤ w') :
    prefixedInWindow D w i <+: prefixedInWindow D w' i := by
  obtain ⟨k, hk⟩ : ∃ k, min w' i = min w i + k := ⟨min w' i - min w i, by omega⟩
  have hrange : List.range (min w i) <+: List.range (min w' i) := by
    rw [hk, List.range_add]
    exact List.prefix_append _ _
  exact (hrange.map _).filter _

theorem candidates_prefix (D : Nat → Byte) {w w' : Nat} (i : Nat) (h : w ≤ w') :
    candidates D w i <+: candidates D w' i := (prefixedInWindow_prefix D i h).take _

theorem candidates_descending (D : Nat → Byte) (w i : Nat) : (candidates D w i).Pairwise (· > ·) :=
  (prefixedInWindow_descending D w i).take

theorem candidates_inWindow {D : Nat → Byte} {w i j : Nat} (h : j ∈ candidates D w i) : j < i ∧ i - j ≤ w :=
  (mem_prefixedInWindow.mp (List.mem_of_mem_take h)).1

/-! The chain walk as a search of those candidates (41_match_finder.md R106, R110). -/

/-- One probe: the better of the best so far and candidate `j` (41_match_finder.md R106). -/
def probe (D : Nat → Byte) (i limit : Nat) (best : Best) (j : Nat) : Best :=
  if matchLen D j i limit > best.len then { len := matchLen D j i limit, off := i - j } else best

theorem longest_append_singleton (D : Nat → Byte) (i limit : Nat) (js : List Nat) (j : Nat) :
    longest D i limit (js ++ [j]) = probe D i limit (longest D i limit js) j := List.foldl_append

theorem walkChain_some (D : Nat → Byte) (prev : Table) (w i limit j : Nat) (best : Best) (probes : Nat) :
    walkChain D prev w i limit (some j) best (probes + 1) =
      if i - j ≤ w then walkChain D prev w i limit (cellGet prev j) (probe D i limit best j) probes else best := rfl

/-- The walk probes the chain up to the window's edge, at most `probes` positions of it. -/
theorem walkChain_eq_foldl (D : Nat → Byte) (prev : Table) (w i limit : Nat) (j : Option Nat) (best : Best)
    (probes : Nat) : walkChain D prev w i limit j best probes =
      ((chainFrom prev j probes).takeWhile fun j => decide (i - j ≤ w)).foldl (probe D i limit) best := by
  induction probes generalizing j best with
  | zero => rfl
  | succ probes ih =>
    cases j with
    | none => rfl
    | some j =>
      by_cases hw : i - j ≤ w
      · rw [walkChain_some, if_pos hw, chainFrom, List.takeWhile_cons_of_pos (by simpa using hw), List.foldl_cons, ih]
      · rw [walkChain_some, if_neg hw, chainFrom, List.takeWhile_cons_of_neg (by simpa using hw), List.foldl_nil]

theorem chainFrom_eq_take (prev : Table) (j : Option Nat) (k m : Nat) :
    chainFrom prev j k = (chainFrom prev j (k + m)).take k := by
  induction k generalizing j with
  | zero => rfl
  | succ k ih =>
    cases j with
    | none => simp
    | some j => rw [Nat.succ_add, chainFrom, chainFrom, List.take_succ_cons, ← ih]

theorem mem_keyedBelow {D : Nat → Byte} {n h m j : Nat} :
    j ∈ keyedBelow D n h m ↔ j < m ∧ j + 3 ≤ n ∧ keyAt D j = h := by
  simp [keyedBelow]

theorem keyedBelow_descending (D : Nat → Byte) (n h m : Nat) : (keyedBelow D n h m).Pairwise (· > ·) :=
  (List.pairwise_reverse.mpr List.pairwise_lt_range).filter _

/-- A property that once lost stays lost along a list picks a first part of it. -/
theorem takeWhile_eq_filter {p : Nat → Bool} {l : List Nat} (h : l.Pairwise fun a b => p b → p a) :
    l.takeWhile p = l.filter p := by
  induction h with
  | nil => rfl
  | @cons a l ha _ ih =>
    by_cases hp : p a
    · rw [List.takeWhile_cons_of_pos hp, List.filter_cons_of_pos hp, ih]
    · rw [List.takeWhile_cons_of_neg hp, List.filter_cons_of_neg hp, eq_comm, List.filter_eq_nil_iff]
      exact fun b hb hpb => hp (ha b hb hpb)

/-- With three bytes left at the cursor, its chain in the window is the list of positions with the same three bytes. -/
theorem keyedBelow_takeWhile (D : Nat → Byte) {n i : Nat} (w : Nat) (h : i + 3 ≤ n) :
    ((keyedBelow D n (keyAt D i) i).takeWhile fun j => decide (i - j ≤ w)) = prefixedInWindow D w i := by
  have hdescending := keyedBelow_descending D n (keyAt D i) i
  rw [takeWhile_eq_filter (hdescending.imp fun hab => by simp only [decide_eq_true_eq]; omega)]
  refine (hdescending.filter _).eq_of_mem_iff (prefixedInWindow_descending D w i) fun j => ?_
  simp only [List.mem_filter, mem_keyedBelow, mem_prefixedInWindow, decide_eq_true_eq]
  constructor
  · rintro ⟨⟨hj, -, hk⟩, hw⟩
    exact ⟨⟨hj, hw⟩, hk⟩
  · rintro ⟨⟨hj, hw⟩, hk⟩
    exact ⟨⟨hj, by omega, hk⟩, hw⟩

theorem walkChain_indexOf (D : Nat → Byte) {n i : Nat} (w limit : Nat) (h : i + 3 ≤ n) :
    walkChain D (indexOf D n i).prev w i limit (cellGet (indexOf D n i).head (keyAt D i)) { len := 0, off := 0 }
      Config.maxProbes = longest D i limit (candidates D w i) := by
  rw [walkChain_eq_foldl, chainFrom_eq_take _ _ _ i, indexOf_head, chainFrom_keyedBelow D n _ le_rfl (by omega),
    ← List.take_takeWhile, keyedBelow_takeWhile D w h]
  rfl

theorem three_le_minLen (f : Fmt) : 3 ≤ f.spec.minLen := by cases f <;> decide

/-- The Match Finder with the index of the positions before the cursor answers as the one without (41_match_finder.md
R110). -/
theorem mfFind_eq_findSpec (f : Fmt) (D : Nat → Byte) (n w i : Nat) :
    mfFind f.spec D n w i (indexOf D n i) = findSpec f.spec D n w i := by
  have hmin := three_le_minLen f
  unfold mfFind mfFindWith findSpec
  by_cases h : n - i < f.spec.minLen
  · rw [if_pos h, if_pos h]
  · rw [if_neg h, if_neg h, walkChain_indexOf D w _ (by omega)]

/-! The longest of a list, and the answer made of it (41_match_finder.md R105, R108). -/

/-- `best` is the longest measure over `js`, with the offset of the nearest position that reaches it. -/
structure IsLongest (D : Nat → Byte) (i limit : Nat) (js : List Nat) (best : Best) : Prop where
  bound : ∀ j ∈ js, matchLen D j i limit ≤ best.len
  reached : 0 < best.len → ∃ j ∈ js, best = { len := matchLen D j i limit, off := i - j } ∧
    ∀ j' ∈ js, matchLen D j' i limit = best.len → j' ≤ j

theorem IsLongest.append_probe {D : Nat → Byte} {i limit j : Nat} {js : List Nat} {best : Best}
    (h : IsLongest D i limit js best) (hj : ∀ j' ∈ js, j < j') :
    IsLongest D i limit (js ++ [j]) (probe D i limit best j) := by
  unfold probe
  split
  · next hgt =>
    refine ⟨fun j' hj' => ?_, fun _ => ⟨j, by simp, rfl, fun j' hj' he => ?_⟩⟩
    · rcases List.mem_append.mp hj' with hj' | hj'
      · exact (h.bound j' hj').trans hgt.le
      · rw [List.mem_singleton.mp hj']
    · rcases List.mem_append.mp hj' with hj' | hj'
      · exact absurd (h.bound j' hj') (by simp only at he; omega)
      · exact (List.mem_singleton.mp hj').le
  · next hle =>
    refine ⟨fun j' hj' => ?_, fun hpos => ?_⟩
    · rcases List.mem_append.mp hj' with hj' | hj'
      · exact h.bound j' hj'
      · rw [List.mem_singleton.mp hj']
        omega
    · obtain ⟨j₀, hj₀, heq, hnear⟩ := h.reached hpos
      refine ⟨j₀, by simp [hj₀], heq, fun j' hj' he => ?_⟩
      rcases List.mem_append.mp hj' with hj' | hj'
      · exact hnear j' hj' he
      · rw [List.mem_singleton.mp hj']
        exact (hj j₀ hj₀).le

/-- The first of equals is the nearest where the list names the nearest first. -/
theorem longest_isLongest (D : Nat → Byte) (i limit : Nat) {js : List Nat} (h : js.Pairwise (· > ·)) :
    IsLongest D i limit js (longest D i limit js) := by
  induction js using List.reverseRecOn with
  | nil => exact ⟨by simp, by simp [longest]⟩
  | append_singleton js j ih =>
    obtain ⟨hjs, -, hj⟩ := List.pairwise_append.mp h
    rw [longest_append_singleton]
    exact (ih hjs).append_probe fun j' hj' => hj j' hj' j (by simp)

/-- The measure's limit at cursor `i` (41_match_finder.md R104). -/
abbrev lenLimit (f : Fmt) (n i : Nat) : Nat := min f.spec.maxLen (n - i)

theorem longest_candidates (f : Fmt) (D : Nat → Byte) (n w i : Nat) :
    IsLongest D i (lenLimit f n i) (candidates D w i) (longest D i (lenLimit f n i) (candidates D w i)) :=
  longest_isLongest D i _ (candidates_descending D w i)

theorem findSpec_eq_some_iff {f : Fmt} {D : Nat → Byte} {n w i off len : Nat} :
    findSpec f.spec D n w i = some (off, len) ↔ f.spec.minLen ≤ n - i ∧ f.spec.minLen ≤ len ∧
      longest D i (lenLimit f n i) (candidates D w i) = { len := len, off := off } := by
  unfold findSpec
  generalize longest D i (lenLimit f n i) (candidates D w i) = best
  obtain ⟨blen, boff⟩ := best
  by_cases hn : n - i < f.spec.minLen
  · simp [hn]
  · by_cases hb : f.spec.minLen ≤ blen <;> simp [hn, hb] <;> omega

theorem findSpec_eq_none_iff {f : Fmt} {D : Nat → Byte} {n w i : Nat} :
    findSpec f.spec D n w i = none ↔ n - i < f.spec.minLen ∨
      (longest D i (lenLimit f n i) (candidates D w i)).len < f.spec.minLen := by
  unfold findSpec
  by_cases hn : n - i < f.spec.minLen <;> simp [hn]

/-- The answer is a candidate, as long as any other and the nearest of its length. -/
theorem findSpec_reached {f : Fmt} {D : Nat → Byte} {n w i off len : Nat}
    (h : findSpec f.spec D n w i = some (off, len)) :
    ∃ j ∈ candidates D w i, off = i - j ∧ IsMatchLen D j i (lenLimit f n i) len ∧
      ∀ j' ∈ candidates D w i, ∀ k, IsMatchLen D j' i (lenLimit f n i) k → k < len ∨ (k = len ∧ j' ≤ j) := by
  obtain ⟨-, hlen, hbest⟩ := findSpec_eq_some_iff.mp h
  obtain ⟨hbound, hreached⟩ := hbest ▸ longest_candidates f D n w i
  obtain ⟨j, hj, heq, hnear⟩ := hreached ((minLen_pos f).trans_le hlen)
  obtain ⟨rfl, rfl⟩ := Best.mk.inj heq
  refine ⟨j, hj, rfl, matchLen_spec D j i _, fun j' hj' k hk => ?_⟩
  obtain rfl := matchLen_unique hk (matchLen_spec D j' i _)
  exact (hbound j' hj').lt_or_eq.imp_right fun he => ⟨he, hnear j' hj' he⟩

/-- Settles O51: the walk is a search of the candidates, which keeps the longest and the first of equals. -/
theorem findGivesTheBestCandidate : Obligations.FindGivesTheBestCandidate := by
  intro f D n w i _
  rw [mfFind_eq_findSpec]
  split
  · next off len h =>
    obtain ⟨hn, hlen, -⟩ := findSpec_eq_some_iff.mp h
    exact ⟨hn, hlen, findSpec_reached h⟩
  · next h =>
    refine (findSpec_eq_none_iff.mp h).imp_right fun hshort j hj k hk => ?_
    rw [matchLen_unique hk (matchLen_spec D j i _)]
    exact ((longest_candidates f D n w i).bound j hj).trans_lt hshort

/-- Settles O52: the answer is a candidate's offset and measure, and the format's bounds are those of its fields. -/
theorem foundMatchFitsItsToken : Obligations.FoundMatchFitsItsToken := by
  intro f D n w i off len _ _ hw h
  obtain ⟨hmin, hmax, -, hoff⟩ := mfFind_bounds h
  rw [mfFind_eq_findSpec] at h
  obtain ⟨j, hj, rfl, ⟨hlimit, hequal, -⟩, -⟩ := findSpec_reached h
  obtain ⟨hji, -⟩ := candidates_inWindow hj
  have hpos : 1 ≤ i - j := by omega
  refine ⟨hpos, hoff, Nat.sub_le i j, hmin, hlimit, ?_, ?_⟩
  · rwa [Nat.sub_sub_self hji.le]
  · rw [wellFormed_matchOf]
    simp [matchWellFormed, hpos, hoff.trans hw, hmin, hmax]

theorem IsLongest.len_le_of_subset {D : Nat → Byte} {i limit : Nat} {js js' : List Nat} {best best' : Best}
    (h : IsLongest D i limit js best) (h' : IsLongest D i limit js' best') (hsub : js ⊆ js') : best.len ≤ best'.len := by
  rcases Nat.eq_zero_or_pos best.len with hz | hpos
  · omega
  · obtain ⟨j, hj, rfl, -⟩ := h.reached hpos
    exact h'.bound j (hsub hj)

/-- Settles O53: the larger window's candidates go on where the smaller's end. -/
theorem largerWindowFindsNoShorter : Obligations.LargerWindowFindsNoShorter := by
  intro f D n w w' i _ hw
  have hprefix := candidates_prefix D i hw
  refine ⟨hprefix, fun off len h => ?_⟩
  rw [mfFind_eq_findSpec] at h
  obtain ⟨hn, hlen, hbest⟩ := findSpec_eq_some_iff.mp h
  have hle := (longest_candidates f D n w i).len_le_of_subset (longest_candidates f D n w' i) hprefix.subset
  rw [hbest] at hle
  have h' := findSpec_eq_some_iff.mpr ⟨hn, hlen.trans hle, rfl⟩
  exact ⟨_, _, (mfFind_eq_findSpec f D n w' i).trans h', hle⟩

/-! The visit of `C_TOKEN` (42_token_encoder.md R121, R128, 41_match_finder.md R107). -/

/-- `t` is `s` with a token of `adv` bytes put and inserted: what the packer, the index and OBUF hold after it. -/
structure TokenPut (s t : State) (bits : List Bool) (adv : Nat) : Prop where
  count : emittedCount t = emittedCount s + bits.length
  new : ∀ k (h : k < bits.length), emittedBit t (emittedCount s + k) = bits[k]
  old : ∀ k < emittedCount s, emittedBit t k = emittedBit s k
  index : t.index = indexOf (ibufByte s) s.n (s.cur + adv)
  ready : PackerReady t
  outside : ∀ a, a < s.olen ∨ t.olen ≤ a → cellGet t.obuf a = cellGet s.obuf a

theorem encodeAdvance_tokenPut {s : State} (bits : List Bool) (adv : Nat) (hready : PackerReady s)
    (hindex : s.index = indexOf (ibufByte s) s.n s.cur) :
    TokenPut s (encodeAdvance (putBits s.fmt.spec.order bits s.packer) adv s) bits adv := by
  obtain ⟨h5, h7, hclean⟩ := hready
  have hgrew := putBits_grew s.fmt.spec.order bits s.packer h7
  obtain ⟨hclean', hold, hnew⟩ :=
    putBits_places s.fmt.spec.order (Config.unspecifiedObuf s.engine s.obufEpoch) bits s.packer h7 h5 hclean
  generalize putBits s.fmt.spec.order bits s.packer = q at hgrew hclean' hold hnew ⊢
  have hcount : 8 * q.olen + q.nacc = 8 * s.olen + s.nacc + bits.length := hgrew.count
  have holen : s.olen ≤ q.olen := hgrew.olen
  exact
    { count := show 8 * (q.olen - 5) + q.nacc = 8 * (s.olen - 5) + s.nacc + bits.length by omega
      new := hnew
      old := hold
      index := show mfInsertRange (ibufByte s) s.n s.cur adv s.index = indexOf (ibufByte s) s.n (s.cur + adv) by
        rw [hindex, mfInsertRange_indexOf]
      ready := ⟨h5.trans holen, hgrew.nacc, hclean'⟩
      outside := hgrew.outside }

theorem encodeToken_of_match {s : State} {off len : Nat} (hindex : s.index = indexOf (ibufByte s) s.n s.cur)
    (h : findSpec s.fmt.spec (ibufByte s) s.n s.w s.cur = some (off, len)) :
    encodeToken s = encodeAdvance (putBits s.fmt.spec.order (matchBits s.fmt off len) s.packer) len
      { s with tKind := .backRef, tOff := off, tLen := len } := by
  rw [encodeToken, hindex, mfFind_eq_findSpec, h, ← teMatch_eq]

theorem encodeToken_of_noMatch {s : State} (hindex : s.index = indexOf (ibufByte s) s.n s.cur)
    (h : findSpec s.fmt.spec (ibufByte s) s.n s.w s.cur = none) :
    encodeToken s = encodeAdvance (putBits s.fmt.spec.order (litBits s.fmt (ibufByte s s.cur)) s.packer) 1
      { s with tKind := .literal, tByte := ibufByte s s.cur } := by
  rw [encodeToken, hindex, mfFind_eq_findSpec, h, ← teLit_eq]

theorem exec_commandOf_cToken {s : State} (hop : s.op ≠ .decompress) (hp : s.phase = .cToken) :
    exec (commandOf s.op s.fmt) s = .next (encodeToken s) := by
  obtain ⟨check, he⟩ := exec_commandOf_encode hop s.fmt s
  rw [he, execEncode, if_neg (by simp), hp]

/-- Settles O20: the Match Finder's answer chooses the token, and its bits go behind those already put. -/
theorem encoderEmitsOneToken : Obligations.EncoderEmitsOneToken := by
  rintro op f s hop rfl rfl hp - hready hindex
  refine ⟨encodeToken s, exec_commandOf_cToken hop hp, ?_⟩
  cases h : findSpec s.fmt.spec (ibufByte s) s.n s.w s.cur with
  | some answer =>
    obtain ⟨off, len⟩ := answer
    have hput := encodeAdvance_tokenPut (s := { s with tKind := .backRef, tOff := off, tLen := len })
      (matchBits s.fmt off len) len hready hindex
    rw [encodeToken_of_match hindex h]
    exact ⟨⟨rfl, matchBits_length s.fmt off len ▸ hput.count, hput.new⟩, hput.index, hput.ready, hput.old, hput.outside⟩
  | none =>
    have hput := encodeAdvance_tokenPut (s := { s with tKind := .literal, tByte := ibufByte s s.cur })
      (litBits s.fmt (ibufByte s s.cur)) 1 hready hindex
    rw [encodeToken_of_noMatch hindex h]
    exact ⟨⟨rfl, litBits_length s.fmt (ibufByte s s.cur) ▸ hput.count, hput.new⟩, hput.index, hput.ready, hput.old,
      hput.outside⟩

end Sys2Proof.Machine

/-! SUPPORT. The token encoder's header and flush (42_token_encoder.md R123, R124, R127), and that an engine step only
appends to OBUF. -/

namespace Sys2Proof.Machine

/-! The visit of `C_HDR` (42_token_encoder.md R124, R128). -/

theorem exec_commandOf_cHdr {s : State} (hop : s.op ≠ .decompress) (hp : s.phase = .cHdr) :
    exec (commandOf s.op s.fmt) s = .next (encodeHeader s) := by
  obtain ⟨check, he⟩ := exec_commandOf_encode hop s.fmt s
  rw [he, execEncode, if_neg (by simp), hp]

/-- Byte `k` of a header's length is digit `k` of the length in base 256 (30_encoding.md R71). -/
theorem le32Bytes_getElem? {n k : Nat} (hn : n < 2 ^ 32) (hk : k < 4) :
    (le32Bytes (BitVec.ofNat 32 n))[k]? = some (BitVec.ofNat 8 (n / 256 ^ k)) := by
  have hbyte : ∀ start, (BitVec.ofNat 32 n).extractLsb' start 8 = BitVec.ofNat 8 (n / 2 ^ start) := fun start => by
    rw [BitVec.extractLsb', BitVec.toNat_ofNat, Nat.mod_eq_of_lt hn, Nat.shiftRight_eq_div_pow]
  interval_cases k <;> simp [le32Bytes, hbyte]

theorem cellGet_teHeader (f : Fmt) (n : Nat) (p : Packer) (a : Nat) :
    cellGet (teHeader f n p).obuf a =
      if a < 5 then (f.spec.tag :: le32Bytes (BitVec.ofNat 32 n))[a]? else cellGet p.obuf a := by
  simp [teHeader, cellGet_memWriteBytes, le32Bytes]

/-- Settles O19: the five bytes of the header stand at OBUF 0 to 4, and the loop test is taken with `cur` at 0. -/
theorem encoderWritesTheHeader : Obligations.EncoderWritesTheHeader := by
  rintro op f s hop rfl rfl hp hn
  refine ⟨(teHeader s.fmt s.n s.packer).obuf, exec_commandOf_cHdr hop hp, ?_, fun k hk => ?_, fun a ha => ?_⟩
  · rw [cellGet_teHeader, if_pos (by decide)]
    rfl
  · rw [cellGet_teHeader, if_pos (by omega), Nat.add_comm, List.getElem?_cons_succ, le32Bytes_getElem? hn hk]
  · rw [cellGet_teHeader, if_neg (by omega), packer_obuf]

/-! The visit of `C_FLUSH` (42_token_encoder.md R123, R127). -/

theorem exec_commandOf_cFlush {s : State} (hop : s.op ≠ .decompress) (hp : s.phase = .cFlush) :
    exec (commandOf s.op s.fmt) s = .next (encodeFlush s) := by
  obtain ⟨check, he⟩ := exec_commandOf_encode hop s.fmt s
  rw [he, execEncode, if_neg (by simp), hp]

/-- The flush puts nothing on a byte boundary, else what is missing to the next one. -/
theorem flush_grew {p : Packer} (h : p.nacc ≤ 7) : p.Grew (flush p) ((8 - p.nacc) % 8) := by
  rcases flush_cases p with ⟨h0, hflush⟩ | ⟨hpos, hflush⟩ <;> rw [hflush]
  · rw [h0]
    exact .refl h
  · exact
      { nacc := Nat.zero_le 7
        count := show 8 * (p.olen + 1) + 0 = 8 * p.olen + p.nacc + (8 - p.nacc) % 8 by omega
        olen := Nat.le_succ p.olen
        wf := fun hw => memWrite_wf hw _ _
        outside := fun a (ha : a < p.olen ∨ p.olen + 1 ≤ a) =>
          (cellGet_memWrite p.obuf p.olen a p.acc).trans (if_neg (by omega))
        written := fun a h1 (h2 : a < p.olen + 1) => by
          rw [emitAcc, cellGet_memWrite, if_pos (by omega)]
          rfl }

theorem flush_nacc (p : Packer) : (flush p).nacc = 0 := by
  rcases flush_cases p with ⟨h0, hflush⟩ | ⟨-, hflush⟩ <;> rw [hflush]
  · exact h0
  · rfl

/-- Every place of `acc` is the place of a stream bit of its byte (30_encoding.md R74). -/
theorem bitPlace_bitPlace (o : BitOrder) {t : Nat} (ht : t < 8) : bitPlace o (bitPlace o t) = t := by
  cases o <;> simp only [bitPlace] <;> omega

theorem Packer.Clean.acc_eq_zero {o : BitOrder} {p : Packer} (hc : p.Clean o) (h0 : p.nacc = 0) : p.acc = 0 := by
  refine BitVec.eq_of_getLsbD_eq fun t ht => ?_
  rw [← bitPlace_bitPlace o ht, hc _ (by omega) (bitPlace_lt o t)]
  simp

theorem flush_acc {o : BitOrder} {p : Packer} (hc : p.Clean o) : (flush p).acc = 0 := by
  rcases flush_cases p with ⟨h0, hflush⟩ | ⟨-, hflush⟩ <;> rw [hflush]
  · exact hc.acc_eq_zero h0
  · rfl

theorem flush_olen {p : Packer} (h : p.nacc ≤ 7) (h5 : 5 ≤ p.olen) :
    (flush p).olen = 5 + (8 * (p.olen - 5) + p.nacc + 7) / 8 := by
  have hcount := (flush_grew h).count
  rw [flush_nacc] at hcount
  omega

/-- The flush moves bits from `acc` to OBUF and changes none. -/
theorem flush_bit (o : BitOrder) (d : Nat → Byte) (p : Packer) {k : Nat} (hk : 5 + k / 8 < (flush p).olen) :
    (flush p).bit o d k = p.bit o d k := by
  rcases flush_cases p with ⟨-, hflush⟩ | ⟨-, hflush⟩ <;> rw [hflush] at hk ⊢
  simp only [emitAcc] at hk
  simp only [Packer.bit, emitAcc, if_pos hk, cellGet_memWrite]
  by_cases hold : 5 + k / 8 < p.olen
  · rw [if_pos hold, if_neg hold.ne]
  · rw [if_neg hold, if_pos (by omega), Option.getD_some, bitOfByte]

/-- Past the bits put, the byte under way holds 0 bits (42_token_encoder.md R121). -/
theorem Packer.Clean.bit_eq_false {o : BitOrder} {p : Packer} (hc : p.Clean o) (d : Nat → Byte) {k : Nat}
    (h5 : 5 ≤ p.olen) (hk : 8 * (p.olen - 5) + p.nacc ≤ k) (hk' : k < 8 * (p.olen - 5) + 8) :
    p.bit o d k = false := by
  rw [Packer.bit, if_neg (by omega), ← bitPlace_mod]
  exact hc (k % 8) (by omega) (by omega)

/-- Settles O21: what is left in `acc` goes to OBUF with the 0 bits above it, and `olen` fits OUT_LEN. -/
theorem encoderFlushesAndIsDone : Obligations.EncoderFlushesAndIsDone := by
  rintro op f s hop rfl rfl hp ⟨h5, h7, hclean⟩ hcap
  have hcleanPacker : s.packer.Clean s.fmt.spec.order := hclean
  have holen : (flush s.packer).olen = 5 + (emittedCount s + 7) / 8 := flush_olen h7 h5
  have hcount : emittedCount s = 8 * (s.olen - 5) + s.nacc := rfl
  have hbit : ∀ k, k < 8 * ((flush s.packer).olen - 5) →
      bitOfByte s.fmt.spec.order (obufByte (encodeFlush s) (5 + k / 8)) k = emittedBit s k := fun k hk => by
    have hlt : 5 + k / 8 < (flush s.packer).olen := by omega
    have hmoved := flush_bit s.fmt.spec.order (Config.unspecifiedObuf s.engine s.obufEpoch) s.packer hlt
    exact (if_pos hlt).symm.trans hmoved
  refine ⟨encodeFlush s, exec_commandOf_cFlush hop hp, ?_, ?_, fun k hk => hbit k (by omega),
    fun k hk (hk' : k < 8 * ((flush s.packer).olen - 5)) => ?_, (flush_grew (p := s.packer) h7).outside⟩
  · rw [← holen, ← flush_acc hcleanPacker, ← flush_nacc s.packer]
    rfl
  · exact Nat.mod_eq_of_lt (show (flush s.packer).olen < 2 ^ 32 by omega)
  · rw [hbit k hk']
    exact hcleanPacker.bit_eq_false _ h5 hk (show k < 8 * (s.olen - 5) + 8 by omega)

/-! An engine step only appends to OBUF (43_token_decoder.md R151, 42_token_encoder.md R121, R124). -/

/-- OBUF of `t` is that of `s` except where `olen` has passed. -/
def OnlyAppends (s t : State) : Prop := ∀ a, a < s.olen ∨ t.olen ≤ a → cellGet t.obuf a = cellGet s.obuf a

theorem onlyAppends_of_obuf_eq {s t : State} (h : t.obuf = s.obuf) : OnlyAppends s t := fun _ _ => by rw [h]

theorem onlyAppends_of_memWrite {s t : State} (v : Byte) (hobuf : t.obuf = memWrite s.obuf s.olen v)
    (holen : t.olen = s.olen + 1) : OnlyAppends s t := fun a ha => by
  rw [hobuf, cellGet_memWrite, if_neg (by omega)]

theorem checkWindow_obuf (s : State) : (checkWindow s).obuf = s.obuf := by
  unfold checkWindow
  split <;> rfl

/-- The header goes to OBUF 0 to 4, and before it `olen` is 0. -/
theorem onlyAppends_encodeHeader {s : State} (h0 : s.olen = 0) : OnlyAppends s (encodeHeader s) :=
  fun a (ha : a < s.olen ∨ 5 ≤ a) => (cellGet_teHeader s.fmt s.n s.packer a).trans (if_neg (by omega))

theorem encodeToken_grew {s : State} (h : s.nacc ≤ 7) : ∃ k, s.packer.Grew (encodeToken s).packer k := by
  unfold encodeToken
  split
  · next off len _ =>
    rw [teMatch_eq]
    exact ⟨_, putBits_grew s.fmt.spec.order (matchBits s.fmt off len) s.packer h⟩
  · simp only [teLit_eq]
    exact ⟨_, putBits_grew s.fmt.spec.order (litBits s.fmt (ibufByte s s.cur)) s.packer h⟩

theorem EngineStep.onlyAppends {s t : State} (h : EngineStep s t) (hi : EngineInv s) : OnlyAppends s t := by
  cases h with
  | checkCompress _ _ => exact onlyAppends_of_obuf_eq (checkWindow_obuf s)
  | header hp _ =>
    obtain ⟨-, -, h0⟩ := hi.enc.header (.inr hp)
    exact onlyAppends_encodeHeader h0
  | token hp _ =>
    obtain ⟨-, h7, -⟩ := hi.enc.size (.inl hp)
    obtain ⟨k, hgrew⟩ := encodeToken_grew h7
    exact hgrew.outside
  | flush hp _ =>
    obtain ⟨-, h7, -⟩ := hi.enc.size (.inr hp)
    exact (flush_grew (p := s.packer) h7).outside
  | literal byte _ _ ht => subst ht; exact onlyAppends_of_memWrite byte rfl rfl
  | copy hp _ =>
    obtain ⟨-, -, hwr, -⟩ := hi.dec.copy hp
    exact onlyAppends_of_memWrite (obufByte s s.rd) (by rw [← hwr]; rfl) rfl
  | goodHeader _ _ _ ht => subst ht; exact onlyAppends_of_obuf_eq rfl
  | idle | checkFast | checkDecompress | badHeader | exhausted | litTruncated | offTruncated | lenTruncated | copyOver
  | tailLong | tailSet | tailDone => exact onlyAppends_of_obuf_eq rfl
  | _ =>
    -- `EngineStep.match`, the one constructor whose name is a keyword
    rename_i ht
    subst ht
    refine onlyAppends_of_obuf_eq ?_
    split
    · rfl
    · split <;> rfl

/-- Settles O46: each visit writes at `olen` or not at all; the header's five bytes are written at `olen` 0. -/
theorem engineOnlyAppendsToTheOutput : Obligations.EngineOnlyAppendsToTheOutput := by
  intro s t hi ha hstep
  have h : EngineStep s t := by simpa [ha] using step_cases hstep
  exact h.onlyAppends hi

end Sys2Proof.Machine

/-! SUPPORT. The token decoder (43_token_decoder.md): a run of the stream's bits read in fields, what each record does
in its phase, and the visits of `D_HDR`, `D_TOKEN` and `D_TAIL` from the bytes and bits of IBUF. -/

namespace Sys2Proof.Machine

/-! A run of stream bits (43_token_decoder.md R141, R142). -/

/-- The `len` stream bits from bit `pos` on. -/
def bitsFrom (s : State) (pos len : Nat) : List Bool := (List.range len).map fun t => streamBit s.fmt s (pos + t)

theorem streamBits_eq_bitsFrom (k : Nat) (s : State) : streamBits k s = bitsFrom s s.c (min k (s.tBits - s.c)) := rfl

theorem fieldAt_eq (s : State) (pos W : Nat) : fieldAt s pos W = fieldValue s.fmt.spec.order (bitsFrom s pos W) := rfl

@[simp] theorem bitsFrom_length (s : State) (pos len : Nat) : (bitsFrom s pos len).length = len := by simp [bitsFrom]

theorem bitsFrom_add (s : State) (pos W len : Nat) :
    bitsFrom s pos (W + len) = bitsFrom s pos W ++ bitsFrom s (pos + W) len := by
  simp [bitsFrom, List.range_add, Nat.add_assoc]

/-- A run that is not empty begins with its flag. -/
theorem bitsFrom_eq_cons (s : State) (pos : Nat) {len : Nat} (h : 0 < len) :
    bitsFrom s pos len = streamBit s.fmt s pos :: bitsFrom s (pos + 1) (len - 1) := by
  obtain ⟨k, rfl⟩ := Nat.exists_eq_add_of_lt h
  rw [Nat.zero_add, Nat.add_comm, bitsFrom_add, Nat.add_sub_cancel_left]
  rfl

theorem bitsFrom_take (s : State) (pos : Nat) {W len : Nat} (h : W ≤ len) :
    (bitsFrom s pos len).take W = bitsFrom s pos W := by
  obtain ⟨k, rfl⟩ := Nat.exists_eq_add_of_le h
  rw [bitsFrom_add, List.take_left' (bitsFrom_length s pos W)]

theorem bitsFrom_drop (s : State) (pos : Nat) {W len : Nat} (h : W ≤ len) :
    (bitsFrom s pos len).drop W = bitsFrom s (pos + W) (len - W) := by
  obtain ⟨k, rfl⟩ := Nat.exists_eq_add_of_le h
  rw [bitsFrom_add, List.drop_left' (bitsFrom_length s pos W), Nat.add_sub_cancel_left]

theorem takeField_bitsFrom (s : State) (pos : Nat) {W len : Nat} (h : W ≤ len) :
    takeField s.fmt.spec.order W (bitsFrom s pos len) = some (fieldAt s pos W, bitsFrom s (pos + W) (len - W)) := by
  rw [takeField, if_neg (by simpa using h), bitsFrom_take s pos h, bitsFrom_drop s pos h, fieldAt_eq]

theorem takeField_bitsFrom_none (o : BitOrder) (s : State) (pos : Nat) {W len : Nat} (h : len < W) :
    takeField o W (bitsFrom s pos len) = none := takeField_none.2 (by simpa using h)

theorem bitsFrom_any (s : State) (pos len : Nat) :
    (bitsFrom s pos len).any id = true ↔ ∃ k, pos ≤ k ∧ k < pos + len ∧ streamBit s.fmt s k = true := by
  simp only [bitsFrom, List.any_map, List.any_eq_true, List.mem_range, Function.comp_apply, id_eq]
  constructor
  · rintro ⟨t, ht, hbit⟩
    exact ⟨pos + t, Nat.le_add_right pos t, Nat.add_lt_add_left ht pos, hbit⟩
  · rintro ⟨k, hle, hlt, hbit⟩
    exact ⟨k - pos, by omega, by rwa [Nat.add_sub_cancel' hle]⟩

theorem bitsFrom_any_eq_false (s : State) (pos len : Nat) :
    (bitsFrom s pos len).any id = false ↔ ∀ k, pos ≤ k → k < pos + len → streamBit s.fmt s k = false := by
  rw [← Bool.not_eq_true, bitsFrom_any]
  simp

/-! `HDR` (43_token_decoder.md R143). -/

/-- Settles O22: the length and the tag are good, and the loop test is taken with `olen` at 0. -/
theorem headerRecordCompletes : Obligations.HeaderRecordCompletes := by
  rintro f origLen s hp rfl hn
  have hlen : ¬s.n < Config.hdrLen := Nat.not_lt.2 hn
  rw [exec_hdrOf, execHeader, if_neg (not_not.2 hp), if_neg hlen, if_neg (not_not.2 rfl)]
  rfl

theorem append_byte_toNat {w : Nat} (hi : BitVec w) (lo : Byte) : (hi ++ lo).toNat = lo.toNat + 256 * hi.toNat := by
  rw [BitVec.toNat_append, ← Nat.shiftLeft_add_eq_or_of_lt lo.isLt, Nat.shiftLeft_eq]
  omega

/-- `LE32` as a sum (20_memory.md R57). -/
theorem le32_toNat (b0 b1 b2 b3 : Byte) :
    (le32 b0 b1 b2 b3).toNat = b0.toNat + 256 * b1.toNat + 65536 * b2.toNat + 16777216 * b3.toNat := by
  rw [le32, append_byte_toNat, append_byte_toNat, append_byte_toNat]
  omega

theorem decodeHeader_of_short {bytes : List Byte} (h : bytes.length < 5) :
    decodeHeader bytes = .error .headerTruncated := by
  unfold decodeHeader
  split
  · simp at h
  · simp at h
    omega
  · rfl

theorem headerBytes_of_room {s : State} (h : 5 ≤ s.n) :
    headerBytes s = [ibufByte s 0, ibufByte s 1, ibufByte s 2, ibufByte s 3, ibufByte s 4] := by
  rw [headerBytes, Config.hdrLen, Nat.min_eq_left h]
  rfl

theorem step_of_headerError {s : State} {e : DecodeError} (ha : s.acts = []) (hp : s.phase = .dHdr)
    (hd : decodeHeader (headerBytes s) = .error e) : step s = decodeFault e s :=
  step_of_decodeError ha (by simp only [fetchEngine, hp, hd])

theorem step_of_header {s : State} {f : Fmt} {origLen : Word} (ha : s.acts = []) (hp : s.phase = .dHdr)
    (hd : decodeHeader (headerBytes s) = .ok (hdrOf f origLen)) : step s = execHeader f origLen s := by
  obtain ⟨hrun, -⟩ := stepRunsTheFetchedInstruction
  rw [hrun s _ ha hp hd, exec_hdrOf]

/-- A tag that is not the commanded format's is no format's or another's; the answer is the same. -/
theorem step_of_wrongTag {s : State} (ha : s.acts = []) (hp : s.phase = .dHdr) (hn : 5 ≤ s.n)
    (ht : ibufByte s 0 ≠ s.fmt.spec.tag) : step s = .next (raise .malformedStream s) := by
  have hbytes := headerBytes_of_room hn
  cases hf : fmtOfTag (ibufByte s 0) with
  | none => rw [step_of_headerError (e := .unknownTag) ha hp (by simp only [hbytes, decodeHeader, hf])]; rfl
  | some f =>
    have hne : s.fmt ≠ f := fun h => ht (by rw [h]; exact fmtOfTag_eq_some.1 hf)
    rw [step_of_header ha hp (by simp only [hbytes, decodeHeader, hf]; rfl), execHeader_of_otherFmt _ hp hne]

/-- Settles O23: too few bytes are no header; five bytes are one if their tag is a format's, and
`headerRecordCompletes` has the rest. -/
theorem headerStepChecksThenReads : Obligations.HeaderStepChecksThenReads := by
  intro s ha hp
  split
  · next hn => rw [step_of_headerError ha hp (decodeHeader_of_short (by simp [hn]))]; rfl
  next hn =>
  split
  · next ht => exact step_of_wrongTag ha hp (by omega) ht
  next ht =>
  have hd : decodeHeader (headerBytes s) =
      .ok (hdrOf s.fmt (le32 (ibufByte s 1) (ibufByte s 2) (ibufByte s 3) (ibufByte s 4))) := by
    simp only [headerBytes_of_room (Nat.not_lt.1 hn), decodeHeader, fmtOfTag_eq_some.2 (not_not.1 ht)]
  rw [step_of_header ha hp hd, ← exec_hdrOf, headerRecordCompletes s.fmt _ s hp rfl (by omega), le32_toNat]

/-! The token at the cursor (43_token_decoder.md R144). -/

theorem matchBits_le_maxTokenBits (f : Fmt) : f.spec.matchBits ≤ maxTokenBits := by cases f <;> decide

/-- What the decoder sees behind the flag at the cursor. -/
theorem streamBits_eq_cons {s : State} (h : s.c < s.tBits) : ∃ k, k + 1 = min 24 (s.tBits - s.c) ∧
    streamBits 24 s = streamBit s.fmt s s.c :: bitsFrom s (s.c + 1) k :=
  ⟨min 24 (s.tBits - s.c) - 1, by omega, bitsFrom_eq_cons s s.c (by omega)⟩

theorem step_of_tokenError {s : State} {e : DecodeError} (ha : s.acts = []) (hp : s.phase = .dToken)
    (hd : decodeToken s.fmt (streamBits 24 s) = .error e) : step s = decodeFault e s :=
  step_of_decodeError ha (by simp only [fetchEngine, hp, tokenAt, maxTokenBits, hd])

theorem step_of_token {s : State} {i : Instr} {rest : List Bool} (ha : s.acts = []) (hp : s.phase = .dToken)
    (hd : decodeToken s.fmt (streamBits 24 s) = .ok (i, rest)) : step s = exec i s := by
  obtain ⟨-, hrun, -⟩ := stepRunsTheFetchedInstruction
  exact hrun s i rest ha hp hd

/-- Settles O26: with no bit there is no flag. -/
theorem exhaustedStreamIsLengthMismatch : Obligations.ExhaustedStreamIsLengthMismatch := by
  intro s ha hp hroom
  rw [step_of_tokenError (e := .exhausted) ha hp (by rw [streamBits_eq_bitsFrom, hroom]; rfl)]
  rfl

/-! `LIT` (43_token_decoder.md R145). -/

/-- Settles O24: flag and byte field are there, so neither read fails. -/
theorem literalRecordCompletes : Obligations.LiteralRecordCompletes := by
  intro f byte s hp hf hroom
  rw [exec_litOf, execLit_of_room hp hf hroom]
  rfl

/-- Settles O25: the decoder sees at most 24 bits, which hold any byte field that the stream holds. -/
theorem literalStepFollowsTheStream : Obligations.LiteralStepFollowsTheStream := by
  intro s ha hp hc hflag
  obtain ⟨k, hk, hbits⟩ := streamBits_eq_cons hc
  split
  · next hroom =>
    have hd : decodeToken s.fmt (streamBits 24 s) = .error .litTruncated := by
      simp only [hbits, decodeToken, if_pos hflag, takeField_bitsFrom_none _ s _ (show k < 8 by omega)]
    rw [step_of_tokenError ha hp hd]
    rfl
  · next hroom =>
    have hd : decodeToken s.fmt (streamBits 24 s) =
        .ok (litOf s.fmt (litOperand (fieldAt s (s.c + 1) 8)), bitsFrom s (s.c + 1 + 8) (k - 8)) := by
      simp only [hbits, decodeToken, if_pos hflag, takeField_bitsFrom s _ (show 8 ≤ k by omega)]
    rw [step_of_token ha hp hd, literalRecordCompletes s.fmt _ s hp rfl (by omega)]
    rfl

/-! `MATCH` (43_token_decoder.md R146). -/

theorem execMatch_of_reading {f : Fmt} {s : State} (offset length : Nat) (hp : s.phase = .dToken) (hf : s.fmt = f) :
    execMatch f offset length s = matchStart offset length s := by
  rw [execMatch, if_neg (not_not.2 hf), hp]

theorem exec_matchOf_of_room {f : Fmt} {s : State} (offset length : Nat) (hp : s.phase = .dToken) (hf : s.fmt = f)
    (hr : f.spec.matchBits ≤ s.tBits - s.c) :
    exec (matchOf f offset length) s =
      if offset > s.olen then .next (raise .malformedStream
        { s with c := s.c + f.spec.matchBits, tKind := .backRef, tOff := offset, tLen := length })
      else if s.olen + length > s.origLen then .next (raise .lengthMismatch
        { s with c := s.c + f.spec.matchBits, tKind := .backRef, tOff := offset, tLen := length })
      else .next { s with c := s.c + f.spec.matchBits, tKind := .backRef, tOff := offset, tLen := length,
                          rd := s.olen - offset, wr := s.olen, rem := length, phase := .dCopy } := by
  subst hf
  have hc : s.c + s.fmt.spec.matchBits = s.c + 1 + s.fmt.spec.offBits + s.fmt.spec.lenBits := by
    simp only [FormatSpec.matchBits, Nat.add_assoc]
  rw [exec_matchOf, execMatch_of_reading offset length hp rfl, matchStart_of_room hr, hc]
  simp only [apply_ite Host.Outcome.next]

/-- Settles O27: both checks pass. -/
theorem matchRecordStartsItsCopy : Obligations.MatchRecordStartsItsCopy := by
  intro f offset length s hp hf hr hoff hlen
  rw [exec_matchOf_of_room offset length hp hf hr, if_neg (Nat.not_lt.2 hoff), if_neg (Nat.not_lt.2 hlen)]

/-- Settles O28: the first check fails, or the second after it. -/
theorem matchChecksInOrder : Obligations.MatchChecksInOrder := by
  intro f offset length s hp hf hr
  rw [exec_matchOf_of_room offset length hp hf hr]
  exact ⟨fun hoff => if_pos hoff, fun hoff hlen => (if_neg (Nat.not_lt.2 hoff)).trans (if_pos hlen)⟩

/-- Settles O29: each field is taken off the bits seen, or fails where the stream ends; with both read, the two checks are
those of `exec_matchOf_of_room`. -/
theorem matchStepFollowsTheStream : Obligations.MatchStepFollowsTheStream := by
  rintro s F rfl ha hp hc hflag
  obtain ⟨k, hk, hbits⟩ := streamBits_eq_cons hc
  have hmatch : ¬streamBit s.fmt s s.c = s.fmt.spec.flagLit := hflag ▸ flagMatch_ne_flagLit s.fmt
  have hwidth : s.fmt.spec.matchBits = 1 + s.fmt.spec.offBits + s.fmt.spec.lenBits := rfl
  have hseen : s.fmt.spec.matchBits ≤ 24 := matchBits_le_maxTokenBits s.fmt
  split
  · next hroom =>
    have hd : decodeToken s.fmt (streamBits 24 s) = .error .offTruncated := by
      simp only [hbits, decodeToken, if_neg hmatch,
        takeField_bitsFrom_none _ s _ (show k < s.fmt.spec.offBits by omega)]
    rw [step_of_tokenError ha hp hd]
    rfl
  next hroomOff =>
  have hoff := takeField_bitsFrom s (s.c + 1) (show s.fmt.spec.offBits ≤ k by omega)
  split
  · next hroom =>
    have hd : decodeToken s.fmt (streamBits 24 s) =
        .error (.lenTruncated (fieldAt s (s.c + 1) s.fmt.spec.offBits)) := by
      simp only [hbits, decodeToken, if_neg hmatch, hoff,
        takeField_bitsFrom_none _ s _ (show k - s.fmt.spec.offBits < s.fmt.spec.lenBits by omega)]
    rw [step_of_tokenError ha hp hd]
    rfl
  next hroom =>
  have hd : decodeToken s.fmt (streamBits 24 s) =
      .ok (matchOf s.fmt (offsetOperand (fieldAt s (s.c + 1) s.fmt.spec.offBits))
        (lengthOperand s.fmt.spec (fieldAt s (s.c + 1 + s.fmt.spec.offBits) s.fmt.spec.lenBits)),
        bitsFrom s (s.c + 1 + s.fmt.spec.offBits + s.fmt.spec.lenBits)
          (k - s.fmt.spec.offBits - s.fmt.spec.lenBits)) := by
    simp only [hbits, decodeToken, if_neg hmatch, hoff,
      takeField_bitsFrom s _ (show s.fmt.spec.lenBits ≤ k - s.fmt.spec.offBits by omega)]
  rw [step_of_token ha hp hd, exec_matchOf_of_room _ _ hp rfl (by omega)]
  rfl

/-! `PAD` (43_token_decoder.md R148). -/

theorem wholeBytesLeft_eq (s : State) : wholeBytesLeft s = s.n - 5 - (s.c + 7) / 8 := rfl

/-- Settles O32: no whole byte is left, and the bits seen are the padding. -/
theorem padRecordEndsTheCall : Obligations.PadRecordEndsTheCall := by
  rintro f bits s hp rfl hn htBits hbits hle hzero
  have hpad : paddingSet s = false :=
    (bitsFrom_any_eq_false s s.c (min 8 (s.tBits - s.c))).2 fun k hk hlt => hzero k hk (by omega)
  have hwhole : ¬wholeBytesLeft s > 0 := by rw [wholeBytesLeft_eq]; omega
  have hleft : s.tBits - s.c = bits := by omega
  rw [exec_padOf, execPad, if_neg (by simp [hp, hleft]), if_neg hwhole, hpad]
  rfl

theorem step_of_tailError {s : State} {e : DecodeError} (ha : s.acts = []) (hp : s.phase = .dTail)
    (hd : decodeTail s.fmt (streamBits 8 s) = .error e) : step s = decodeFault e s :=
  step_of_decodeError ha (by simp only [fetchEngine, hp, hd])

theorem step_of_tail {s : State} {i : Instr} (ha : s.acts = []) (hp : s.phase = .dTail)
    (hd : decodeTail s.fmt (streamBits 8 s) = .ok i) : step s = exec i s := by
  obtain ⟨-, -, -, hrun, -⟩ := stepRunsTheFetchedInstruction
  exact hrun s i ha hp hd

/-- Settles O33: a whole byte left is eight bits left; fewer bits are all seen, and
`padRecordEndsTheCall` has the good end. -/
theorem tailStepChecksThenEnds : Obligations.TailStepChecksThenEnds := by
  intro s ha hp hn htBits hc
  refine ⟨fun hwhole => ?_, fun hwhole hset => ?_, fun hwhole hzero => ?_⟩
  · have hd : decodeTail s.fmt (streamBits 8 s) = .error .wholeByteLeft := if_pos (by simp; omega)
    rw [step_of_tailError ha hp hd]
    rfl
  all_goals
    have hleft : streamBits 8 s = bitsFrom s s.c (s.tBits - s.c) := by
      rw [streamBits_eq_bitsFrom, Nat.min_eq_right (by omega)]
    have hfew : ¬8 ≤ (streamBits 8 s).length := by rw [hleft, bitsFrom_length]; omega
  · have hany : (streamBits 8 s).any id = true := by
      rw [hleft, bitsFrom_any, Nat.add_sub_cancel' hc]
      exact hset
    rw [step_of_tailError (e := .nonZeroPadding) ha hp (by rw [decodeTail, if_neg hfew, if_pos hany])]
    rfl
  · have hany : (streamBits 8 s).any id = false := by
      rw [hleft, bitsFrom_any_eq_false, Nat.add_sub_cancel' hc]
      exact hzero
    have hd : decodeTail s.fmt (streamBits 8 s) = .ok (padOf s.fmt (s.tBits - s.c)) := by
      rw [decodeTail, if_neg hfew, hany, hleft, bitsFrom_length]
      rfl
    rw [step_of_tail ha hp hd, padRecordEndsTheCall s.fmt _ s hp rfl hn htBits (by omega) (by omega) hzero]

end Sys2Proof.Machine

/-! SUPPORT. A decompress call computes its function (44_codec_commands.md R176, 43_token_decoder.md R143 to R149): the
machine's token loop against `decodeSpec`, by induction on the tokens still allowed. -/

namespace Sys2Proof.Machine

/-! The reference's own steps (43_token_decoder.md R144 to R148). -/

theorem decodeSpec_of_error {f : Fmt} {origLen : Nat} {bits : List Bool} {out : List Byte} {e : ErrKind} (fuel : Nat)
    (hmore : out.length < origLen) (hr : readToken f bits = .error e) :
    decodeSpec f origLen (fuel + 1) bits out = .error e := by
  simp only [decodeSpec, if_pos hmore, hr]

theorem decodeSpec_of_lit {f : Fmt} {origLen : Nat} {bits rest : List Bool} {out : List Byte} {byte : Byte} (fuel : Nat)
    (hmore : out.length < origLen) (hr : readToken f bits = .ok (.lit byte, rest)) :
    decodeSpec f origLen (fuel + 1) bits out = decodeSpec f origLen fuel rest (out ++ [byte]) := by
  simp only [decodeSpec, if_pos hmore, hr]

theorem decodeSpec_of_back {f : Fmt} {origLen off len : Nat} {bits rest : List Bool} {out : List Byte} (fuel : Nat)
    (hmore : out.length < origLen) (hr : readToken f bits = .ok (.back off len, rest)) :
    decodeSpec f origLen (fuel + 1) bits out =
      if off > out.length then .error .malformedStream
      else if out.length + len > origLen then .error .lengthMismatch
      else decodeSpec f origLen fuel rest (copySpec off len out) := by
  simp only [decodeSpec, if_pos hmore, hr]

theorem decodeSpec_of_full {f : Fmt} {origLen : Nat} (fuel : Nat) (bits : List Bool) {out : List Byte}
    (h : origLen ≤ out.length) : decodeSpec f origLen fuel bits out = tailSpec bits out := by
  cases fuel with
  | zero => rfl
  | succ fuel => exact if_neg (Nat.not_lt.2 h)

/-- The stream bits that no token has taken yet. -/
def unreadBits (s : State) : List Bool := bitsFrom s s.c (s.tBits - s.c)

theorem readToken_of_exhausted {s : State} (h : s.tBits - s.c = 0) :
    readToken s.fmt (unreadBits s) = .error .lengthMismatch := by
  rw [unreadBits, h]
  rfl

theorem readToken_of_litFlag {s : State} (hc : s.c < s.tBits) (hflag : streamBit s.fmt s s.c = s.fmt.spec.flagLit) :
    readToken s.fmt (unreadBits s) =
      if s.tBits - s.c < 9 then .error .malformedStream
      else .ok (.lit (BitVec.ofNat 8 (fieldAt s (s.c + 1) 8)), bitsFrom s (s.c + 9) (s.tBits - (s.c + 9))) := by
  rw [unreadBits, bitsFrom_eq_cons s s.c (by omega), readToken, if_pos hflag, bitsFrom_length]
  by_cases hroom : s.tBits - s.c < 9
  · rw [if_pos hroom, if_pos (by omega)]
  · have hrest : s.tBits - s.c - 1 - 8 = s.tBits - (s.c + 9) := by omega
    rw [if_neg hroom, if_neg (by omega), bitsFrom_take s _ (by omega), bitsFrom_drop s _ (by omega), hrest, fieldAt_eq]

theorem readToken_of_matchFlag {s : State} {F : FormatSpec} (hF : F = s.fmt.spec) (hc : s.c < s.tBits)
    (hflag : streamBit s.fmt s s.c = F.flagMatch) :
    readToken s.fmt (unreadBits s) =
      if s.tBits - s.c < F.matchBits then .error .malformedStream
      else .ok (.back (fieldAt s (s.c + 1) F.offBits + 1) (fieldAt s (s.c + 1 + F.offBits) F.lenBits + F.minLen),
        bitsFrom s (s.c + F.matchBits) (s.tBits - (s.c + F.matchBits))) := by
  subst hF
  have hmatch : ¬streamBit s.fmt s s.c = s.fmt.spec.flagLit := hflag ▸ flagMatch_ne_flagLit s.fmt
  have hwidth : s.fmt.spec.matchBits = 1 + s.fmt.spec.offBits + s.fmt.spec.lenBits := rfl
  rw [unreadBits, bitsFrom_eq_cons s s.c (by omega), readToken, if_neg hmatch, bitsFrom_length]
  by_cases hroom : s.tBits - s.c < s.fmt.spec.matchBits
  · rw [if_pos hroom, if_pos (by omega)]
  · have hrest : s.tBits - s.c - 1 - (s.fmt.spec.offBits + s.fmt.spec.lenBits) =
        s.tBits - (s.c + s.fmt.spec.matchBits) := by omega
    have hpos : s.c + 1 + (s.fmt.spec.offBits + s.fmt.spec.lenBits) = s.c + s.fmt.spec.matchBits := by omega
    rw [if_neg hroom, if_neg (by omega), bitsFrom_take s _ (by omega), bitsFrom_drop s _ (by omega),
      bitsFrom_drop s _ (by omega), bitsFrom_take s _ (by omega), hrest, hpos, fieldAt_eq, fieldAt_eq]

/-! How a run ends (10_state.md R39). -/

/-- The engine, from `s` on, ends as `result` says. -/
def EndsAs (s : State) (result : Except ErrKind (List Byte)) : Prop :=
  ∃ k t, runSteps k s = .next t ∧ EndsWith result t

theorem callComputes_iff {op : Op} {f : Fmt} {s : State} {result : Except ErrKind (List Byte)} :
    CallComputes op f s result ↔ EndsAs (beginCall op f { s with acts := [] }) result := Iff.rfl

theorem EndsAs.of_step {s t : State} {result : Except ErrKind (List Byte)} (ht : EndsAs t result)
    (h : step s = .next t) : EndsAs s result := by
  obtain ⟨k, u, hrun, hu⟩ := ht
  exact ⟨k + 1, u, (runSteps_of_step k h).trans hrun, hu⟩

theorem endsAs_of_raise {s t : State} {e : ErrKind} (h : step s = .next (raise e t)) : EndsAs s (.error e) :=
  ⟨1, _, runSteps_of_step 0 h, rfl, rfl, rfl, rfl⟩

/-! The output so far (43_token_decoder.md R145, R147). -/

/-- OBUF holds `out` and nothing beyond it counts. -/
structure Produced (s : State) (out : List Byte) : Prop where
  olen : s.olen = out.length
  bytes : ∀ a (h : a < out.length), obufByte s a = out[a]

theorem Produced.append {s t : State} {out : List Byte} {byte : Byte} (h : Produced s out)
    (hobuf : t.obuf = memWrite s.obuf s.olen byte) (holen : t.olen = s.olen + 1) (hengine : t.engine = s.engine)
    (hepoch : t.obufEpoch = s.obufEpoch) : Produced t (out ++ [byte]) where
  olen := by rw [holen, h.olen, List.length_append, List.length_singleton]
  bytes := fun a ha => by
    rw [List.length_append, List.length_singleton] at ha
    simp only [obufByte, hobuf, hengine, hepoch, cellGet_memWrite]
    by_cases hlt : a < out.length
    · rw [if_neg (by rw [h.olen]; omega), List.getElem_append_left hlt]
      exact h.bytes a hlt
    · have hend : a = out.length := by omega
      subst hend
      simp [h.olen]

/-- An engine past its header with nothing wrong so far: the whole stream is before it, `out` behind it. -/
structure Decoding (s : State) (out : List Byte) : Prop where
  acts : s.acts = []
  err : s.err = none
  n : 5 ≤ s.n
  tBits : s.tBits = 8 * (s.n - 5)
  c : s.c ≤ s.tBits
  origLen : s.origLen < 2 ^ 32
  produced : Produced s out
  room : out.length ≤ s.origLen

/-- The reference's answer for the rest of the stream. -/
def loopResult (fuel : Nat) (s : State) (out : List Byte) : Except ErrKind (List Byte) :=
  decodeSpec s.fmt s.origLen fuel (unreadBits s) out

/-- From the loop test on, with fewer bits unread than tokens allowed, the engine ends as the reference says. -/
def LoopEnds (fuel : Nat) : Prop :=
  ∀ s out, Decoding s out → s.phase = decodeLoop s → s.tBits - s.c < fuel → EndsAs s (loopResult fuel s out)

/-- Where the machine raises the error with which the reference reads its next token, both end. -/
theorem Decoding.endsAs_of_readError {s t : State} {out : List Byte} {e : ErrKind} (fuel : Nat) (hd : Decoding s out)
    (hmore : s.olen < s.origLen) (hread : readToken s.fmt (unreadBits s) = .error e)
    (hstep : step s = .next (raise e t)) : EndsAs s (loopResult (fuel + 1) s out) := by
  rw [loopResult, decodeSpec_of_error fuel (hd.produced.olen ▸ hmore) hread]
  exact endsAs_of_raise hstep

/-! The tail (43_token_decoder.md R148). -/

theorem Decoding.endsAs_of_tail {s : State} {out : List Byte} (hd : Decoding s out) (hp : s.phase = .dTail) :
    EndsAs s (tailSpec (unreadBits s) out) := by
  have htBits := hd.tBits
  have hc := hd.c
  have hwhole : s.n - 5 - (s.c + 7) / 8 > 0 ↔ 8 ≤ s.tBits - s.c := by omega
  have hany : (unreadBits s).any id = true ↔ ∃ k, s.c ≤ k ∧ k < s.tBits ∧ streamBit s.fmt s k = true := by
    rw [unreadBits, bitsFrom_any, Nat.add_sub_cancel' hc]
  have hlen : (unreadBits s).length = s.tBits - s.c := bitsFrom_length ..
  obtain ⟨hlong, hset, hzero⟩ := tailStepChecksThenEnds s hd.acts hp hd.n htBits hc
  rw [tailSpec, hlen]
  split
  · next h => exact endsAs_of_raise (hlong (hwhole.2 h))
  next h =>
  have hnone := Nat.eq_zero_of_not_pos (mt hwhole.1 h)
  split
  · next h => exact endsAs_of_raise (hset hnone (hany.1 h))
  · next h =>
    have holen : (BitVec.ofNat 32 s.olen).toNat = out.length := by
      rw [hd.produced.olen]
      exact Nat.mod_eq_of_lt (hd.room.trans_lt hd.origLen)
    have hstep := hzero hnone fun k hk hlt => by
      by_contra hbit
      exact h (hany.2 ⟨k, hk, hlt, by simpa using hbit⟩)
    refine ⟨1, finish s, runSteps_of_step 0 hstep, rfl, rfl, hd.err, holen, fun a ha => ?_⟩
    rw [obufResult_of_done rfl (holen.symm ▸ ha)]
    exact hd.produced.bytes a ha

/-! One literal (43_token_decoder.md R145). -/

theorem Decoding.endsAs_of_litFlag {s : State} {out : List Byte} {fuel : Nat} (hd : Decoding s out)
    (hloop : LoopEnds fuel) (hp : s.phase = .dToken) (hmore : s.olen < s.origLen) (hc : s.c < s.tBits)
    (hflag : streamBit s.fmt s s.c = s.fmt.spec.flagLit) (hfuel : s.tBits - s.c < fuel + 1) :
    EndsAs s (loopResult (fuel + 1) s out) := by
  have hstep := literalStepFollowsTheStream s hd.acts hp hc hflag
  have hread := readToken_of_litFlag hc hflag
  have holen := hd.produced.olen
  by_cases hroom : s.tBits - s.c < 9
  · rw [if_pos hroom] at hstep hread
    exact hd.endsAs_of_readError fuel hmore hread hstep
  · rw [if_neg hroom] at hstep hread
    rw [loopResult, decodeSpec_of_lit fuel (holen ▸ hmore) hread]
    refine EndsAs.of_step (hloop _ _ ?_ rfl (show s.tBits - (s.c + 9) < fuel by omega)) hstep
    exact
      { hd with
        c := show s.c + 9 ≤ s.tBits by omega
        produced := hd.produced.append rfl rfl rfl rfl
        room := by rw [List.length_append, List.length_singleton, ← holen]; exact hmore }

/-! One match (43_token_decoder.md R146, R147). -/

theorem decoding_copyByte {s : State} {out : List Byte} (hd : Decoding s out) (hcopy : Copying s)
    (hroom : s.olen < s.origLen) : Decoding (copyByte s) (out ++ [out.getD (out.length - s.tOff) 0]) := by
  have holen := hd.produced.olen
  have hwr := hcopy.wr
  have hrd := hcopy.rd
  have htOff := hcopy.tOff
  have hlt : out.length - s.tOff < out.length := by omega
  have hbyte : obufByte s s.rd = out.getD (out.length - s.tOff) 0 := by
    rw [List.getD_eq_getElem _ _ hlt, ← hd.produced.bytes _ hlt]
    congr 1
    omega
  exact
    { hd with
      produced := hd.produced.append (by rw [← hbyte, ← hwr]; rfl) rfl rfl rfl
      room := by rw [List.length_append, List.length_singleton, ← holen]; exact hroom }

/-- The copy under way, then the rest of the stream: the machine's copy goes byte by byte as the reference's does. -/
theorem Decoding.endsAs_of_copying {s : State} {out : List Byte} {fuel : Nat} (hd : Decoding s out)
    (hloop : LoopEnds fuel) (hcopy : Copying s) (hroom : s.olen + s.rem ≤ s.origLen) (hfuel : s.tBits - s.c < fuel) :
    EndsAs s (loopResult fuel s (copySpec s.tOff s.rem out)) := by
  induction hn : s.rem generalizing s out with
  | zero => exact hloop s out hd (hcopy.phase.trans (if_pos hn)) hfuel
  | succ n ih =>
    have hnext := ih (decoding_copyByte hd hcopy (by omega)) (copying_copyByte hcopy)
      (show s.olen + 1 + (s.rem - 1) ≤ s.origLen by omega) hfuel (show s.rem - 1 = n by omega)
    exact hnext.of_step (hcopy.step_eq (by omega))

theorem Decoding.endsAs_of_matchFlag {s : State} {out : List Byte} {fuel : Nat} (hd : Decoding s out)
    (hloop : LoopEnds fuel) (hp : s.phase = .dToken) (hmore : s.olen < s.origLen) (hc : s.c < s.tBits)
    (hflag : streamBit s.fmt s s.c = s.fmt.spec.flagMatch) (hfuel : s.tBits - s.c < fuel + 1) :
    EndsAs s (loopResult (fuel + 1) s out) := by
  have hstep := matchStepFollowsTheStream s _ rfl hd.acts hp hc hflag
  have hread := readToken_of_matchFlag rfl hc hflag
  have holen := hd.produced.olen
  have hwidth : s.fmt.spec.matchBits = 1 + s.fmt.spec.offBits + s.fmt.spec.lenBits := rfl
  by_cases hroom : s.tBits - s.c < s.fmt.spec.matchBits
  · rw [if_pos hroom] at hread
    by_cases hoff : s.tBits - s.c < 1 + s.fmt.spec.offBits
    · rw [if_pos hoff] at hstep
      exact hd.endsAs_of_readError fuel hmore hread hstep
    · rw [if_neg hoff, if_pos hroom] at hstep
      exact hd.endsAs_of_readError fuel hmore hread hstep
  rw [if_neg (by omega), if_neg hroom] at hstep
  rw [if_neg hroom] at hread
  rw [loopResult, decodeSpec_of_back fuel (holen ▸ hmore) hread, ← holen]
  split
  · next hback =>
    rw [if_pos hback] at hstep
    exact endsAs_of_raise hstep
  next hback =>
  rw [if_neg hback] at hstep
  split
  · next hover =>
    rw [if_pos hover] at hstep
    exact endsAs_of_raise hstep
  next hover =>
  rw [if_neg hover] at hstep
  have hmin := minLen_pos s.fmt
  refine EndsAs.of_step (Decoding.endsAs_of_copying ?_ hloop ?_ (Nat.not_lt.1 hover)
    (show s.tBits - (s.c + s.fmt.spec.matchBits) < fuel by omega)) hstep
  · exact { hd with c := show s.c + s.fmt.spec.matchBits ≤ s.tBits by omega, produced := { hd.produced with } }
  · exact
      { acts := hd.acts
        phase := (if_neg (Nat.ne_of_gt (Nat.add_pos_right _ hmin))).symm
        wr := rfl
        rd := Nat.sub_add_cancel (Nat.not_lt.1 hback)
        tOff := Nat.le_add_left 1 _ }

/-! The token loop (43_token_decoder.md R144). -/

/-- By induction on the tokens still allowed; what the next one is, the stream's bits tell. -/
theorem loopEnds (fuel : Nat) : LoopEnds fuel := by
  induction fuel with
  | zero => exact fun s out _ _ hfuel => absurd hfuel (Nat.not_lt_zero _)
  | succ fuel ih =>
    intro s out hd hp hfuel
    by_cases hmore : s.olen < s.origLen
    · rw [decodeLoop, if_pos hmore] at hp
      by_cases hc : s.c < s.tBits
      · by_cases hflag : streamBit s.fmt s s.c = s.fmt.spec.flagLit
        · exact hd.endsAs_of_litFlag ih hp hmore hc hflag hfuel
        · exact hd.endsAs_of_matchFlag ih hp hmore hc (Bool.eq_not.2 hflag) hfuel
      · have hnone : s.tBits - s.c = 0 := by omega
        exact hd.endsAs_of_readError fuel hmore (readToken_of_exhausted hnone)
          (exhaustedStreamIsLengthMismatch s hd.acts hp hnone)
    · rw [decodeLoop, if_neg hmore] at hp
      rw [loopResult, decodeSpec_of_full _ _ (hd.produced.olen ▸ Nat.not_lt.1 hmore)]
      exact hd.endsAs_of_tail hp

/-! The header (43_token_decoder.md R143). -/

theorem decompressSpec_of_short {stream : List Byte} (f : Fmt) (h : stream.length < 5) :
    decompressSpec f stream = .error .malformedStream := by
  unfold decompressSpec
  split
  · simp at h
    omega
  · rfl

theorem exists_header_of_five_le {stream : List Byte} (h : 5 ≤ stream.length) :
    ∃ t b0 b1 b2 b3 area, stream = t :: b0 :: b1 :: b2 :: b3 :: area := by
  rcases stream with _ | ⟨t, _ | ⟨b0, _ | ⟨b1, _ | ⟨b2, _ | ⟨b3, area⟩⟩⟩⟩⟩
  case cons.cons.cons.cons.cons => exact ⟨t, b0, b1, b2, b3, area, rfl⟩
  all_goals simp at h

theorem bitsFrom_eq_bitsOfBytes {s : State} {area : List Byte}
    (h : ∀ a (ha : a < area.length), ibufByte s (a + 5) = area[a]) :
    bitsFrom s 0 (8 * area.length) = bitsOfBytes s.fmt.spec.order area := by
  refine List.map_congr_left fun k hk => ?_
  have hlt : k / 8 < area.length := by have := List.mem_range.1 hk; omega
  rw [Nat.zero_add, streamBit, Config.hdrLen, Nat.add_comm, h _ hlt, List.getD_eq_getElem _ _ hlt]

theorem decompressSpec_of_wrongTag {f : Fmt} {t : Byte} (b0 b1 b2 b3 : Byte) (area : List Byte) (h : t ≠ f.spec.tag) :
    decompressSpec f (t :: b0 :: b1 :: b2 :: b3 :: area) = .error .malformedStream := if_neg h

theorem decompressSpec_of_header (f : Fmt) (b0 b1 b2 b3 : Byte) (area : List Byte) :
    decompressSpec f (f.spec.tag :: b0 :: b1 :: b2 :: b3 :: area) =
      decodeSpec f (le32 b0 b1 b2 b3).toNat (8 * area.length + 1) (bitsOfBytes f.spec.order area) [] := by
  have hlen : (bitsOfBytes f.spec.order area).length = 8 * area.length := by simp [bitsOfBytes]
  rw [← hlen]
  exact if_pos rfl

/-- From `D_HDR` on, with `stream` in IBUF. -/
theorem endsAs_of_dHdr {s : State} {stream : List Byte} (ha : s.acts = []) (herr : s.err = none) (hp : s.phase = .dHdr)
    (hn : s.n = stream.length) (hbytes : ∀ a (h : a < stream.length), ibufByte s a = stream[a]) :
    EndsAs s (decompressSpec s.fmt stream) := by
  have hstep := headerStepChecksThenReads s ha hp
  by_cases hshort : stream.length < 5
  · rw [if_pos (hn.trans_lt hshort)] at hstep
    rw [decompressSpec_of_short s.fmt hshort]
    exact endsAs_of_raise hstep
  obtain ⟨t, b0, b1, b2, b3, area, rfl⟩ := exists_header_of_five_le (Nat.not_lt.1 hshort)
  have hroom : 5 ≤ s.n := hn.symm ▸ Nat.not_lt.1 hshort
  rw [if_neg (Nat.not_lt.2 hroom), hbytes 0 (by simp), hbytes 1 (by simp), hbytes 2 (by simp), hbytes 3 (by simp),
    hbytes 4 (by simp)] at hstep
  simp only [List.getElem_cons_zero, List.getElem_cons_succ, ← le32_toNat] at hstep
  by_cases htag : t = s.fmt.spec.tag
  · rw [if_neg (not_not.2 htag)] at hstep
    have harea : ∀ a (h : a < area.length), ibufByte s (a + 5) = area[a] := fun a h =>
      hbytes (a + 5) (by simpa using h)
    have hlen : area.length = s.n - 5 := by simp [hn]
    rw [htag, decompressSpec_of_header, ← bitsFrom_eq_bitsOfBytes harea, hlen]
    refine EndsAs.of_step ?_ hstep
    refine loopEnds (8 * (s.n - 5) + 1) _ [] ?_ rfl (Nat.lt_succ_self _)
    exact
      { acts := ha
        err := herr
        n := hroom
        tBits := rfl
        c := Nat.zero_le _
        origLen := BitVec.isLt _
        produced := ⟨rfl, nofun⟩
        room := Nat.zero_le _ }
  · rw [if_pos htag] at hstep
    rw [decompressSpec_of_wrongTag b0 b1 b2 b3 area htag]
    exact endsAs_of_raise hstep

/-- Settles O55: `P_CHECK` hands over to the header; the loop after it is followed token by token. -/
theorem decompressComputesItsFunction : Obligations.DecompressComputesItsFunction := by
  rintro f stream s ⟨hlen, hbytes⟩
  rw [callComputes_iff]
  obtain ⟨-, -, -, -, hcommand, -⟩ := stepRunsTheFetchedInstruction
  have hstep := (hcommand (beginCall .decompress f { s with acts := [] }) rfl (.inl rfl)).trans
    (decompressGoesToItsHeader f _ rfl rfl rfl)
  refine EndsAs.of_step ?_ hstep
  exact endsAs_of_dHdr rfl rfl rfl hlen hbytes

end Sys2Proof.Machine

/-! SUPPORT. The commands as the host starts them (44_codec_commands.md): START ignored or refused, `P_CHECK`, that the
host's moves do not reach the engine's step, and a whole compress call. -/

namespace Sys2Proof.Machine

/-! `P_CHECK` of the compress commands (44_codec_commands.md R172, R173). -/

theorem execEncode_of_check {s : State} (check : State → State) (hp : s.phase = .check) :
    execEncode s.op s.fmt check s = .next (check s) := by
  rw [execEncode, if_neg (by simp), hp]

theorem exec_compress_of_check {s : State} (hop : s.op = .compress) (hp : s.phase = .check) :
    exec (commandOf .compress s.fmt) s = .next (checkWindow s) := by
  rw [exec_compress, ← hop, execEncode_of_check _ hp]

theorem checkWindow_of_bad {s : State}
    (h : s.windowSize.toNat < s.fmt.spec.winMin ∨ s.windowSize.toNat > s.fmt.spec.winMax) :
    checkWindow s = raise .invalidWindowSize s := if_pos h

theorem checkWindow_of_good {s : State}
    (h : ¬(s.windowSize.toNat < s.fmt.spec.winMin ∨ s.windowSize.toNat > s.fmt.spec.winMax)) :
    checkWindow s = startEncode s.windowSize.toNat s := if_neg h

/-- Settles O17: the visit of `P_CHECK` is `startEncode` at `FAST_WINDOW`, which is 1024. -/
theorem fastCompressTakesWindow1024 : Obligations.FastCompressTakesWindow1024 := by
  rintro f s hop rfl hp
  rw [exec_compressFast, ← hop, execEncode_of_check _ hp]
  rfl

/-! START (44_codec_commands.md R178 to R180). -/

theorem execStart_of_reserved {s : State} (hb : s.callState ≠ .busy) (hcmd : decodeCommand s.cmd = none) :
    execStart s = .refused .reservedCommand := by
  simp only [execStart, if_neg hb, hcmd]

theorem execStart_of_overCapacity {s : State} {op : Op} {f : Fmt} (hb : s.callState ≠ .busy)
    (hcmd : decodeCommand s.cmd = some (op, f)) (hover : overCapacity op s = true) :
    execStart s = .refused .capacityExceeded := by
  simp only [execStart, if_neg hb, hcmd, if_pos hover]

/-- Settles O15: BUSY is asked first, then the command, then the capacity. -/
theorem startIgnoredOrRefused : Obligations.StartIgnoredOrRefused := by
  refine ⟨fun s hb => execStart_of_busy hb, fun s hb hcmd => execStart_of_reserved hb hcmd,
    fun s op f hb hcmd hop hlen => execStart_of_overCapacity hb hcmd ?_⟩
  simp [overCapacity, hop, Config.maxCompressLen, hlen]

/-! The host's next moves do not reach what the engine does (44_codec_commands.md R181; log entry 7). -/

/-- An outcome with other moves of the host still to come. -/
def withActs (acts : List HostAct) : Host.Outcome State Fault Refusal → Host.Outcome State Fault Refusal
  | .next t => .next { t with acts := acts }
  | .fault r => .fault r
  | .refused r => .refused r

/-- `g` neither reads nor changes the host's next moves. -/
def KeepsActs (g : State → State) : Prop := ∀ s acts, g { s with acts := acts } = { g s with acts := acts }

/-- `run` does the same whatever the host's next moves are, and keeps them. -/
def IgnoresActs (run : State → Host.Outcome State Fault Refusal) : Prop :=
  ∀ s acts, run { s with acts := acts } = withActs acts (run s)

theorem ignoresActs_next {g : State → State} (h : KeepsActs g := by exact fun _ _ => rfl) :
    IgnoresActs fun s => .next (g s) := fun s acts => congrArg Host.Outcome.next (h s acts)

theorem ignoresActs_refused (r : Refusal) : IgnoresActs fun _ => .refused r := fun _ _ => rfl

theorem IgnoresActs.ite {p : State → Prop} [DecidablePred p] {run run' : State → Host.Outcome State Fault Refusal}
    (h : IgnoresActs run) (h' : IgnoresActs run')
    (hp : ∀ s acts, p { s with acts := acts } ↔ p s := by exact fun _ _ => Iff.rfl) :
    IgnoresActs fun s => if p s then run s else run' s := fun s acts => by
  by_cases hs : p s
  · simp only [if_pos hs, if_pos ((hp s acts).2 hs), h s acts]
  · simp only [if_neg hs, if_neg (mt (hp s acts).1 hs), h' s acts]

/-- A field is read by the engine's own registers, after a change of them that the host's moves have no part in. -/
theorem ignoresActs_brGet {W : State → Nat} {g : State → State} {k : State → Host.Outcome State Fault Refusal}
    (hk : IgnoresActs k) (hW : ∀ s acts, W { s with acts := acts } = W s := by exact fun _ _ => rfl)
    (hg : KeepsActs g := by exact fun _ _ => rfl) : IgnoresActs fun s => brGet (W s) (g s) k := fun s acts => by
  have hread : IgnoresActs fun t => brGet (W s) t k :=
    .ite ignoresActs_next fun t acts => hk { t with c := t.c + W s } acts
  simp only [hW s acts, hg s acts]
  exact hread (g s) acts

theorem ignoresActs_tokenFlag {k : State → Host.Outcome State Fault Refusal} (hk : IgnoresActs k) :
    IgnoresActs fun s => tokenFlag s k := .ite ignoresActs_next (ignoresActs_brGet hk)

theorem ignoresActs_execHeader (f : Fmt) (origLen : Word) : IgnoresActs (execHeader f origLen) :=
  .ite (ignoresActs_refused _) <| .ite ignoresActs_next <| .ite ignoresActs_next ignoresActs_next

theorem ignoresActs_execPad (f : Fmt) (bits : Nat) : IgnoresActs (execPad f bits) :=
  .ite (ignoresActs_refused _) <| .ite ignoresActs_next <| .ite ignoresActs_next ignoresActs_next

theorem ignoresActs_execLit (f : Fmt) (byte : Byte) : IgnoresActs (execLit f byte) :=
  .ite (ignoresActs_refused _) <|
    ignoresActs_tokenFlag <| ignoresActs_brGet (g := fun s => { s with tKind := .literal }) ignoresActs_next

theorem ignoresActs_matchStart (offset length : Nat) : IgnoresActs (matchStart offset length) :=
  ignoresActs_tokenFlag <|
    ignoresActs_brGet (g := fun s => { s with tKind := .backRef }) <|
      ignoresActs_brGet (g := fun s => { s with tOff := offset }) <|
        .ite ignoresActs_next <| .ite ignoresActs_next ignoresActs_next

theorem ignoresActs_copy (offset length : Nat) : IgnoresActs fun s =>
    if s.tOff ≠ offset ∨ s.tLen ≠ length then .refused .outOfSequence
    else if s.rem = 0 then .next { s with phase := decodeLoop s }
    else .next (copyByte s) :=
  .ite (ignoresActs_refused _) <| .ite ignoresActs_next ignoresActs_next

theorem ignoresActs_execMatch (f : Fmt) (offset length : Nat) : IgnoresActs (execMatch f offset length) :=
  .ite (ignoresActs_refused _) fun s acts => by
    cases hp : s.phase with
    | dToken => simpa only [hp] using ignoresActs_matchStart offset length s acts
    | dCopy => simpa only [hp] using ignoresActs_copy offset length s acts
    | _ => rfl

theorem keepsActs_checkWindow : KeepsActs checkWindow := fun s acts => by
  unfold checkWindow
  split <;> rfl

theorem encodeToken_of_some {s : State} {off len : Nat}
    (h : mfFind s.fmt.spec (ibufByte s) s.n s.w s.cur s.index = some (off, len)) :
    encodeToken s = encodeAdvance (teMatch s.fmt off len s.packer) len
      { s with tKind := .backRef, tOff := off, tLen := len } := by
  rw [encodeToken, h]

theorem encodeToken_of_none {s : State} (h : mfFind s.fmt.spec (ibufByte s) s.n s.w s.cur s.index = none) :
    encodeToken s = encodeAdvance (teLit s.fmt (ibufByte s s.cur) s.packer) 1
      { s with tKind := .literal, tByte := ibufByte s s.cur } := by
  rw [encodeToken, h]

theorem keepsActs_encodeToken : KeepsActs encodeToken := fun s acts => by
  cases h : mfFind s.fmt.spec (ibufByte s) s.n s.w s.cur s.index with
  | none => rw [encodeToken_of_none h, encodeToken_of_none (s := { s with acts := acts }) h]; rfl
  | some answer => rw [encodeToken_of_some h, encodeToken_of_some (s := { s with acts := acts }) h]; rfl

theorem ignoresActs_execEncode (op : Op) (f : Fmt) {check : State → State} (h : KeepsActs check) :
    IgnoresActs (execEncode op f check) :=
  .ite (ignoresActs_refused _) fun s acts => by
    cases hp : s.phase with
    | check => simpa only [hp] using ignoresActs_next h s acts
    | cToken => simpa only [hp] using ignoresActs_next keepsActs_encodeToken s acts
    | _ => rfl

theorem ignoresActs_execDecode (f : Fmt) : IgnoresActs (execDecode f) :=
  .ite (ignoresActs_refused _) ignoresActs_next

theorem ignoresActs_execStart : IgnoresActs execStart :=
  .ite ignoresActs_next fun s acts => by
    cases decodeCommand s.cmd with
    | none => rfl
    | some command =>
      exact (IgnoresActs.ite (p := fun s => overCapacity command.1 s = true)
        (ignoresActs_refused .capacityExceeded)
        (ignoresActs_next (g := beginCall command.1 command.2))) s acts

theorem ignoresActs_exec (i : Instr) : IgnoresActs (exec i) := by
  cases i using instr_cases with
  | hdr f origLen => rw [funext (exec_hdrOf f origLen)]; exact ignoresActs_execHeader f origLen
  | lit f byte => rw [funext (exec_litOf f byte)]; exact ignoresActs_execLit f byte
  | backRef f offset length => rw [funext (exec_matchOf f offset length)]; exact ignoresActs_execMatch f offset length
  | pad f bits => rw [funext (exec_padOf f bits)]; exact ignoresActs_execPad f bits
  | command op f =>
    cases op with
    | compress => rw [funext (exec_compress f)]; exact ignoresActs_execEncode _ f keepsActs_checkWindow
    | compressFast => rw [funext (exec_compressFast f)]; exact ignoresActs_execEncode _ f fun _ _ => rfl
    | decompress => rw [funext (exec_decompress f)]; exact ignoresActs_execDecode f
  | start => exact ignoresActs_execStart

theorem ignoresActs_decodeFault (e : DecodeError) : IgnoresActs (decodeFault e) := fun s acts => by
  cases e <;> rfl

/-- What a fetch does when it is run, as `step` runs it. -/
def runFetched : Fetched → Host.Outcome State Fault Refusal
  | .instr i s => exec i s
  | .without o => o

theorem engineOutcome_eq_runFetched (s : State) : engineOutcome s = runFetched (fetchEngine s) := rfl

theorem ignoresActs_fetchDecoded (d : Except DecodeError Instr) :
    IgnoresActs fun s => runFetched (fetchDecoded d s) := by
  cases d with
  | ok i => exact ignoresActs_exec i
  | error e => exact ignoresActs_decodeFault e

theorem engineOutcome_of_idle {s : State} (hp : s.phase = .idle) : engineOutcome s = .next s := by
  simp only [engineOutcome, fetchEngine, hp]

theorem engineOutcome_of_command {s : State}
    (hp : s.phase = .check ∨ s.phase = .cHdr ∨ s.phase = .cToken ∨ s.phase = .cFlush) :
    engineOutcome s = exec (commandOf s.op s.fmt) s := by
  rcases hp with hp | hp | hp | hp <;> simp only [engineOutcome, fetchEngine, hp]

theorem engineOutcome_of_dHdr {s : State} (hp : s.phase = .dHdr) :
    engineOutcome s = runFetched (fetchDecoded (decodeHeader (headerBytes s)) s) := by
  simp only [engineOutcome_eq_runFetched, fetchEngine, hp]

theorem engineOutcome_of_dToken {s : State} (hp : s.phase = .dToken) :
    engineOutcome s = runFetched (fetchDecoded (tokenAt s) s) := by
  simp only [engineOutcome_eq_runFetched, fetchEngine, hp]

theorem engineOutcome_of_dCopy {s : State} (hp : s.phase = .dCopy) :
    engineOutcome s = exec (matchOf s.fmt s.tOff s.tLen) s := by
  simp only [engineOutcome, fetchEngine, hp]

theorem engineOutcome_of_dTail {s : State} (hp : s.phase = .dTail) :
    engineOutcome s = runFetched (fetchDecoded (decodeTail s.fmt (streamBits 8 s)) s) := by
  simp only [engineOutcome_eq_runFetched, fetchEngine, hp]

theorem IgnoresActs.engineOutcome_eq {run : State → Host.Outcome State Fault Refusal} {s : State} (h : IgnoresActs run)
    (hs : ∀ acts, engineOutcome { s with acts := acts } = run { s with acts := acts }) (acts : List HostAct) :
    engineOutcome { s with acts := acts } = withActs acts (engineOutcome s) := by
  rw [hs acts, h s acts]
  exact congrArg (withActs acts) (hs s.acts).symm

/-- Each phase fetches by the engine's own registers, and what is fetched leaves the host's moves alone. -/
theorem ignoresActs_engineOutcome : IgnoresActs engineOutcome := by
  intro s acts
  have command (hp : s.phase = .check ∨ s.phase = .cHdr ∨ s.phase = .cToken ∨ s.phase = .cFlush) :=
    (ignoresActs_exec (commandOf s.op s.fmt)).engineOutcome_eq (s := s) (fun _ => engineOutcome_of_command hp) acts
  have visit : ∀ p, s.phase = p → engineOutcome { s with acts := acts } = withActs acts (engineOutcome s) := by
    intro p hp
    cases p with
    | idle => exact (ignoresActs_next (g := fun t => t)).engineOutcome_eq (fun _ => engineOutcome_of_idle hp) acts
    | check | cHdr | cToken | cFlush => exact command (by simp [hp])
    | dHdr =>
      exact (ignoresActs_fetchDecoded (decodeHeader (headerBytes s))).engineOutcome_eq
        (fun _ => engineOutcome_of_dHdr hp) acts
    | dToken =>
      exact (ignoresActs_fetchDecoded (tokenAt s)).engineOutcome_eq (fun _ => engineOutcome_of_dToken hp) acts
    | dCopy =>
      exact (ignoresActs_exec (matchOf s.fmt s.tOff s.tLen)).engineOutcome_eq (fun _ => engineOutcome_of_dCopy hp) acts
    | dTail =>
      exact (ignoresActs_fetchDecoded (decodeTail s.fmt (streamBits 8 s))).engineOutcome_eq
        (fun _ => engineOutcome_of_dTail hp) acts
  exact visit s.phase rfl

theorem step_of_engineTurn {s : State} {rest : List HostAct} (h : s.acts = .engine :: rest) :
    step s = engineOutcome { s with acts := rest } := by
  simp only [step, fetch, h]
  rfl

/-- Settles O8: the engine's visit neither reads nor changes the moves that are left. -/
theorem engineTurnIsAnEngineStep : Obligations.EngineTurnIsAnEngineStep := by
  intro s rest t ha hstep
  have halone : engineOutcome { s with acts := [] } = .next t := (step_of_no_acts rfl).symm.trans hstep
  rw [step_of_engineTurn ha]
  exact (ignoresActs_engineOutcome { s with acts := [] } rest).trans (congrArg (withActs rest) halone)

/-! A visit of a command's phase, the host making no move (44_codec_commands.md R181). -/

theorem step_of_command {s : State} (ha : s.acts = [])
    (hp : s.phase = .check ∨ s.phase = .cHdr ∨ s.phase = .cToken ∨ s.phase = .cFlush) :
    step s = exec (commandOf s.op s.fmt) s := (step_of_no_acts ha).trans (engineOutcome_of_command hp)

/-! The data as the Match Finder without an index reads it (41_match_finder.md R103 to R105, R110). -/

/-- `D` and `D'` hold the same `n` bytes of data. -/
def SameData (n : Nat) (D D' : Nat → Byte) : Prop := ∀ a < n, D a = D' a

section

variable {D D' : Nat → Byte} {n i : Nat} (h : SameData n D D')

include h

theorem SameData.isMatchLen {j limit k : Nat} (hj : j + limit ≤ n) (hi : i + limit ≤ n)
    (hk : IsMatchLen D j i limit k) : IsMatchLen D' j i limit k := by
  obtain ⟨hle, hequal, hstop⟩ := hk
  refine ⟨hle, fun t ht => ?_, fun hlt => ?_⟩
  · rw [← h _ (by omega), ← h _ (by omega)]
    exact hequal t ht
  · rw [← h _ (by omega), ← h _ (by omega)]
    exact hstop hlt

theorem SameData.matchLen_eq {j limit : Nat} (hj : j + limit ≤ n) (hi : i + limit ≤ n) :
    matchLen D j i limit = matchLen D' j i limit :=
  matchLen_unique (h.isMatchLen hj hi (matchLen_spec D j i limit)) (matchLen_spec D' j i limit)

theorem SameData.candidates_eq (w : Nat) (hi : i + 3 ≤ n) : candidates D w i = candidates D' w i := by
  rw [candidates_eq_take, candidates_eq_take]
  refine congrArg (List.take _) (List.filter_congr fun j hj => ?_)
  obtain ⟨d, hd, rfl⟩ := List.mem_map.mp hj
  have hdist := List.mem_range.mp hd
  rw [h (i - 1 - d) (by omega), h (i - 1 - d + 1) (by omega), h (i - 1 - d + 2) (by omega), h i (by omega),
    h (i + 1) (by omega), h (i + 2) (by omega)]

theorem SameData.longest_eq {limit : Nat} {js : List Nat} (hjs : ∀ j ∈ js, j < i) (hi : i + limit ≤ n) :
    longest D i limit js = longest D' i limit js :=
  List.foldl_ext _ _ _ fun best j hj => by
    have hlt := hjs j hj
    rw [h.matchLen_eq (by omega) hi]

/-- The answer rests on the data alone: it is asked for only with three bytes left, and measured within the data. -/
theorem SameData.findSpec_eq (f : Fmt) (w : Nat) : findSpec f.spec D n w i = findSpec f.spec D' n w i := by
  have hmin := three_le_minLen f
  unfold findSpec
  by_cases hn : n - i < f.spec.minLen
  · rw [if_pos hn, if_pos hn]
  · rw [if_neg hn, if_neg hn, h.candidates_eq w (by omega),
      h.longest_eq (fun j hj => (candidates_inWindow hj).1) (by omega)]

theorem SameData.tokensFrom_eq (f : Fmt) (w fuel : Nat) :
    tokensFrom f.spec D n w i fuel = tokensFrom f.spec D' n w i fuel := by
  induction fuel generalizing i with
  | zero => rfl
  | succ fuel ih =>
    by_cases hi : i < n
    · simp only [tokensFrom, if_pos hi, h.findSpec_eq f w, h i hi, ih]
    · simp only [tokensFrom, if_neg hi]

end

/-! A run of stream bits as bytes (30_encoding.md R74). -/

/-- The byte whose first `m` stream bits are those of `bit`, the rest 0. -/
def byteOfBits (o : BitOrder) (bit : Nat → Bool) (m : Nat) : Byte :=
  (List.range m).foldl (fun acc t => if bit t then acc ||| ((1 : Byte) <<< bitPlace o t) else acc) 0

theorem byteOfBits_succ (o : BitOrder) (bit : Nat → Bool) (m : Nat) :
    byteOfBits o bit (m + 1) =
      if bit m then byteOfBits o bit m ||| BitVec.twoPow 8 (bitPlace o m) else byteOfBits o bit m := by
  rw [byteOfBits, List.range_succ, List.foldl_append]
  rfl

theorem bitOfByte_byteOfBits_succ (o : BitOrder) (bit : Nat → Bool) {m t : Nat} (hm : m < 8) (ht : t < 8) :
    bitOfByte o (byteOfBits o bit (m + 1)) t = (bitOfByte o (byteOfBits o bit m) t || (bit m && decide (t = m))) := by
  have hplace : bitPlace o t = bitPlace o m ↔ t = m := ⟨fun he => by have := bitPlace_inj he; omega, congrArg _⟩
  rw [byteOfBits_succ]
  by_cases hbit : bit m
  · simp [bitOfByte, hbit, bitPlace_lt, hplace]
  · simp [hbit]

theorem bitOfByte_byteOfBits (o : BitOrder) (bit : Nat → Bool) {m t : Nat} (hm : m ≤ 8) (ht : t < 8) :
    bitOfByte o (byteOfBits o bit m) t = (decide (t < m) && bit t) := by
  induction m with
  | zero => simp [byteOfBits, bitOfByte]
  | succ m ih =>
    rw [bitOfByte_byteOfBits_succ o bit hm ht, ih (by omega)]
    by_cases htm : t = m
    · simp [htm]
    · have hlt : t < m + 1 ↔ t < m := by omega
      simp only [htm, hlt, decide_false, Bool.and_false, Bool.or_false]

@[simp] theorem packBytes_length (o : BitOrder) (bits : List Bool) :
    (packBytes o bits).length = (bits.length + 7) / 8 := by
  simp [packBytes]

theorem packBytes_getElem (o : BitOrder) (bits : List Bool) {q : Nat} (hq : q < (packBytes o bits).length) :
    (packBytes o bits)[q] = byteOfBits o (fun t => (bits[8 * q + t]?).getD false) 8 := by
  simp [packBytes, byteOfBits]

theorem bitOfByte_mod (o : BitOrder) (byte : Byte) (k : Nat) : bitOfByte o byte (k % 8) = bitOfByte o byte k := by
  rw [bitOfByte, bitPlace_mod, bitOfByte]

/-- A byte is its eight stream bits. -/
theorem byte_eq_of_bitOfByte {o : BitOrder} {a b : Byte} (h : ∀ t < 8, bitOfByte o a t = bitOfByte o b t) : a = b := by
  refine BitVec.eq_of_getLsbD_eq fun t ht => ?_
  have hbit := h (bitPlace o t) (bitPlace_lt o t)
  rwa [bitOfByte, bitOfByte, bitPlace_bitPlace o ht] at hbit

/-- Bytes that hold a run of stream bits, and 0 bits after it, are the run's bytes. -/
theorem eq_packBytes_getElem {o : BitOrder} {bits : List Bool} {D : Nat → Byte}
    (hbits : ∀ k (h : k < bits.length), bitOfByte o (D (k / 8)) k = bits[k])
    (hpad : ∀ k, bits.length ≤ k → k < 8 * ((bits.length + 7) / 8) → bitOfByte o (D (k / 8)) k = false)
    {q : Nat} (hq : q < (packBytes o bits).length) : D q = (packBytes o bits)[q] := by
  refine byte_eq_of_bitOfByte (o := o) fun t ht => ?_
  rw [packBytes_getElem o bits hq, bitOfByte_byteOfBits o _ le_rfl ht, decide_eq_true ht, Bool.true_and]
  rw [packBytes_length] at hq
  have hbyte : (8 * q + t) / 8 = q := by omega
  have hplace : (8 * q + t) % 8 = t := by omega
  have hsame : bitOfByte o (D q) t = bitOfByte o (D ((8 * q + t) / 8)) (8 * q + t) := by
    rw [hbyte, ← bitOfByte_mod o _ (8 * q + t), hplace]
  rw [hsame]
  by_cases hlt : 8 * q + t < bits.length
  · rw [hbits _ hlt, List.getElem?_eq_getElem hlt, Option.getD_some]
  · rw [hpad _ (by omega) (by omega), List.getElem?_eq_none (by omega), Option.getD_none]

/-! What stands behind the encoder's cursor (42_token_encoder.md R121, R124 to R127). -/

/-- The header stands in OBUF, and `bits` are the stream bits put after it. -/
structure Emitted (s : State) (bits : List Bool) : Prop where
  ready : PackerReady s
  count : emittedCount s = bits.length
  bit : ∀ k (h : k < bits.length), emittedBit s k = bits[k]
  header : ∀ a < 5, cellGet s.obuf a = (hdrBytes s.fmt (BitVec.ofNat 32 s.n))[a]?

/-- The header for the data's length, then `bits`, padded. -/
def streamBytes (s : State) (bits : List Bool) : List Byte :=
  hdrBytes s.fmt (BitVec.ofNat 32 s.n) ++ packBytes s.fmt.spec.order bits

theorem Emitted.append {s t : State} {bits new : List Bool} {adv : Nat} (h : Emitted s bits)
    (hput : TokenPut s t new adv) (hfmt : t.fmt = s.fmt) (hn : t.n = s.n) : Emitted t (bits ++ new) where
  ready := hput.ready
  count := by rw [hput.count, h.count, List.length_append]
  bit := fun k hk => by
    rw [List.length_append] at hk
    by_cases hold : k < bits.length
    · rw [hput.old k (h.count ▸ hold), h.bit k hold, List.getElem_append_left hold]
    · obtain ⟨j, rfl⟩ := Nat.exists_eq_add_of_le (Nat.not_lt.1 hold)
      have hnew := hput.new j (by omega)
      rw [h.count] at hnew
      rw [hnew, List.getElem_append_right (Nat.le_add_right _ _)]
      simp
  header := fun a ha => by
    obtain ⟨h5, -, -⟩ := h.ready
    rw [hput.outside a (.inl (by omega)), h.header a ha, hfmt, hn]

theorem emitted_encodeHeader (s : State) : Emitted (encodeHeader s) [] where
  ready := ⟨le_refl 5, Nat.zero_le 7, fun _ _ _ => BitVec.getLsbD_zero⟩
  count := rfl
  bit := nofun
  header := fun a ha => (cellGet_teHeader s.fmt s.n s.packer a).trans (if_pos ha)

@[simp] theorem hdrBytes_length (f : Fmt) (origLen : Word) : (hdrBytes f origLen).length = 5 := rfl

theorem streamBytes_length (s : State) (bits : List Bool) :
    (streamBytes s bits).length = 5 + (bits.length + 7) / 8 := by
  simp [streamBytes]

theorem streamBytes_getElem_header {s : State} {bits : List Bool} {a : Nat} (ha : a < 5)
    (h : a < (streamBytes s bits).length) :
    (streamBytes s bits)[a] = (hdrBytes s.fmt (BitVec.ofNat 32 s.n))[a] := List.getElem_append_left ha

theorem streamBytes_getElem_area {s : State} {bits : List Bool} {q : Nat} (h : 5 + q < (streamBytes s bits).length)
    (hq : q < (packBytes s.fmt.spec.order bits).length) :
    (streamBytes s bits)[5 + q] = (packBytes s.fmt.spec.order bits)[q] := by
  simp only [streamBytes]
  rw [List.getElem_append_right (by simp)]
  simp

/-- The visit of `C_FLUSH` leaves the whole stream in OBUF. -/
theorem Emitted.endsAs_of_cFlush {s : State} {bits : List Bool} (h : Emitted s bits) (ha : s.acts = [])
    (herr : s.err = none) (hop : s.op ≠ .decompress) (hp : s.phase = .cFlush) (hcap : s.olen < Config.cap) :
    EndsAs s (.ok (streamBytes s bits)) := by
  obtain ⟨t, hexec, ht, houtLen, hbits, hpad, hframe⟩ :=
    encoderFlushesAndIsDone s.op s.fmt s hop rfl rfl hp h.ready hcap
  rw [h.count] at hbits hpad
  have hstep := (step_of_command ha (.inr (.inr (.inr hp)))).trans hexec
  have hdone : t.callState = .done := congrArg State.callState ht
  have holen : t.olen = 5 + (bits.length + 7) / 8 := h.count ▸ congrArg State.olen ht
  have hlen : t.outLen.toNat = (streamBytes s bits).length := by rw [houtLen, holen, streamBytes_length]
  refine ⟨1, t, runSteps_of_step 0 hstep, congrArg State.phase ht, hdone, (congrArg State.err ht).trans herr, hlen,
    fun a hlt => ?_⟩
  rw [obufResult_of_done hdone (hlen ▸ hlt)]
  by_cases hheader : a < 5
  · obtain ⟨h5, -, -⟩ := h.ready
    have hcell := (hframe a (.inl (by omega))).trans (h.header a hheader)
    rw [streamBytes_getElem_header hheader, obufByte, hcell, List.getElem?_eq_getElem hheader, Option.getD_some]
  · obtain ⟨q, rfl⟩ := Nat.exists_eq_add_of_le (Nat.not_lt.1 hheader)
    have hq : q < (packBytes s.fmt.spec.order bits).length := by
      rw [streamBytes_length] at hlt
      rw [packBytes_length]
      omega
    rw [streamBytes_getElem_area hlt hq]
    exact eq_packBytes_getElem (D := fun q => obufByte t (5 + q)) (fun k hk => (hbits k hk).trans (h.bit k hk))
      (fun k hk hk' => hpad k hk (by omega)) hq

/-! The token loop of a compress call (42_token_encoder.md R128). -/

/-- An engine between two tokens of a compress call: `bits` behind the cursor, at most nine for each byte covered. -/
structure Encoding (s : State) (bits : List Bool) : Prop where
  acts : s.acts = []
  err : s.err = none
  op : s.op ≠ .decompress
  capacity : s.n ≤ Config.maxCompressLen
  cur : s.cur ≤ s.n
  index : s.index = indexOf (ibufByte s) s.n s.cur
  emitted : Emitted s bits
  size : bits.length ≤ 9 * s.cur

/-- The bits of the greedy parse from the cursor on. -/
def greedyBits (s : State) (fuel : Nat) : List Bool :=
  (tokensFrom s.fmt.spec (ibufByte s) s.n s.w s.cur fuel).flatMap (tokenBits s.fmt)

theorem greedyBits_of_match {s : State} {off len : Nat} (fuel : Nat) (hmore : s.cur < s.n)
    (h : findSpec s.fmt.spec (ibufByte s) s.n s.w s.cur = some (off, len)) :
    greedyBits s (fuel + 1) = matchBits s.fmt off len ++ greedyBits { s with cur := s.cur + len } fuel := by
  simp only [greedyBits, tokensFrom, if_pos hmore, h]
  rfl

theorem greedyBits_of_noMatch {s : State} (fuel : Nat) (hmore : s.cur < s.n)
    (h : findSpec s.fmt.spec (ibufByte s) s.n s.w s.cur = none) :
    greedyBits s (fuel + 1) = litBits s.fmt (ibufByte s s.cur) ++ greedyBits { s with cur := s.cur + 1 } fuel := by
  simp only [greedyBits, tokensFrom, if_pos hmore, h]
  rfl

theorem greedyBits_at_end {s : State} (fuel : Nat) (h : s.n ≤ s.cur) : greedyBits s fuel = [] := by
  cases fuel with
  | zero => rfl
  | succ fuel => simp only [greedyBits, tokensFrom, if_neg (Nat.not_lt.2 h), List.flatMap_nil]

theorem Encoding.setToken {s : State} {bits : List Bool} (h : Encoding s bits) (kind : TokenKind) (byte : Byte)
    (off len : Nat) : Encoding { s with tKind := kind, tByte := byte, tOff := off, tLen := len } bits :=
  { h with emitted := { h.emitted with } }

/-- One token put and its positions inserted. -/
theorem Encoding.advance {s : State} {bits new : List Bool} {adv : Nat} (h : Encoding s bits)
    (hnew : new.length ≤ 9 * adv) (hadv : s.cur + adv ≤ s.n) :
    Encoding (encodeAdvance (putBits s.fmt.spec.order new s.packer) adv s) (bits ++ new) :=
  have hput := encodeAdvance_tokenPut new adv h.emitted.ready h.index
  { h with
    cur := hadv
    index := hput.index
    emitted := h.emitted.append hput rfl rfl
    size := by
      have hsize := h.size
      rw [List.length_append]
      show bits.length + new.length ≤ 9 * (s.cur + adv)
      omega }

/-- With the data covered the parse is over, and the size bound leaves OBUF room for the flush. -/
theorem Encoding.endsAs_at_end {s : State} {bits : List Bool} (fuel : Nat) (h : Encoding s bits)
    (hp : s.phase = encodeLoop s) (hend : s.n ≤ s.cur) :
    EndsAs s (.ok (streamBytes s (bits ++ greedyBits s fuel))) := by
  have hsize : 8 * (s.olen - 5) + s.nacc ≤ 9 * s.cur := h.emitted.count.trans_le h.size
  rw [encodeLoop, if_neg (Nat.not_lt.2 hend)] at hp
  rw [greedyBits_at_end fuel hend, List.append_nil]
  exact h.emitted.endsAs_of_cFlush h.acts h.err h.op hp (olen_lt_cap hsize h.cur h.capacity)

theorem Encoding.step_of_cToken {s : State} {bits : List Bool} (h : Encoding s bits) (hp : s.phase = .cToken) :
    step s = .next (encodeToken s) := by
  rw [step_of_command h.acts (.inr (.inr (.inl hp))), exec_commandOf_cToken h.op hp]

/-- By induction on the tokens still allowed: the Match Finder's answer is the parse's next token. -/
theorem Encoding.endsAs {s : State} {bits : List Bool} {fuel : Nat} (h : Encoding s bits) (hp : s.phase = encodeLoop s)
    (hfuel : s.n - s.cur ≤ fuel) : EndsAs s (.ok (streamBytes s (bits ++ greedyBits s fuel))) := by
  induction fuel generalizing s bits with
  | zero => exact h.endsAs_at_end 0 hp (by omega)
  | succ fuel ih =>
    by_cases hmore : s.cur < s.n
    · rw [encodeLoop, if_pos hmore] at hp
      refine EndsAs.of_step ?_ (h.step_of_cToken hp)
      cases hfind : findSpec s.fmt.spec (ibufByte s) s.n s.w s.cur with
      | some answer =>
        obtain ⟨off, len⟩ := answer
        obtain ⟨hmin, -, hlen, -⟩ := mfFind_bounds ((mfFind_eq_findSpec s.fmt _ _ _ _).trans hfind)
        have hpos := minLen_pos s.fmt
        have hwidth := matchBits_le_nine_mul_minLen s.fmt
        rw [encodeToken_of_match h.index hfind, greedyBits_of_match fuel hmore hfind, ← List.append_assoc]
        exact ih ((h.setToken .backRef s.tByte off len).advance (by rw [matchBits_length]; omega)
          (show s.cur + len ≤ s.n by omega)) rfl (show s.n - (s.cur + len) ≤ fuel by omega)
      | none =>
        rw [encodeToken_of_noMatch h.index hfind, greedyBits_of_noMatch fuel hmore hfind, ← List.append_assoc]
        exact ih ((h.setToken .literal (ibufByte s s.cur) s.tOff s.tLen).advance (by rw [litBits_length])
          (show s.cur + 1 ≤ s.n by omega)) rfl (show s.n - (s.cur + 1) ≤ fuel by omega)
    · exact h.endsAs_at_end (fuel + 1) hp (Nat.not_lt.1 hmore)

/-! A whole compress call (44_codec_commands.md R172, R173, R176). -/

/-- From `C_HDR` on, with `data` in IBUF. -/
theorem endsAs_of_cHdr {s : State} {data : List Byte} (ha : s.acts = []) (herr : s.err = none)
    (hop : s.op ≠ .decompress) (hp : s.phase = .cHdr) (hindex : s.index = { head := [], prev := [] })
    (hn : s.n = data.length) (hcap : data.length ≤ Config.maxCompressLen)
    (hbytes : ∀ a (h : a < data.length), ibufByte s a = data[a]) :
    EndsAs s (.ok (streamOf s.fmt data.length (tokensOf s.fmt.spec data s.w))) := by
  have hstep := (step_of_command ha (.inr (.inl hp))).trans (exec_commandOf_cHdr hop hp)
  have hdata : SameData data.length (fun a => data.getD a 0) (ibufByte s) := fun a h =>
    (List.getD_eq_getElem _ _ h).trans (hbytes a h).symm
  have hencoding : Encoding (encodeHeader s) [] :=
    { acts := ha, err := herr, op := hop, capacity := hn.trans_le hcap, cur := Nat.zero_le _, index := hindex
      emitted := emitted_encodeHeader s, size := Nat.zero_le _ }
  rw [tokensOf, hdata.tokensFrom_eq, ← hn]
  exact (hencoding.endsAs rfl (Nat.sub_le s.n 0)).of_step hstep

/-- From `P_CHECK` on with an effective window: what START initialised is what the encoder needs. -/
theorem callComputes_of_startEncode {op : Op} {f : Fmt} {data : List Byte} {s : State} {w : Nat}
    (hop : op ≠ .decompress) (hloaded : Loaded data s) (hcap : data.length ≤ Config.maxCompressLen)
    (h : exec (commandOf op f) (beginCall op f { s with acts := [] }) =
      .next (startEncode w (beginCall op f { s with acts := [] }))) :
    CallComputes op f s (.ok (streamOf f data.length (tokensOf f.spec data w))) := by
  obtain ⟨hlen, hbytes⟩ := hloaded
  rw [callComputes_iff]
  refine EndsAs.of_step ?_ ((step_of_command rfl (.inl rfl)).trans h)
  exact endsAs_of_cHdr rfl rfl hop rfl rfl hlen hcap hbytes

theorem compressSpec_of_badWindow {f : Fmt} {ws : Nat} (data : List Byte)
    (h : ws < f.spec.winMin ∨ ws > f.spec.winMax) : compressSpec f data ws = .error .invalidWindowSize := if_pos h

theorem compressSpec_of_goodWindow {f : Fmt} {ws : Nat} (data : List Byte)
    (h : ¬(ws < f.spec.winMin ∨ ws > f.spec.winMax)) :
    compressSpec f data ws = .ok (streamOf f data.length (tokensOf f.spec data ws)) := if_neg h

theorem callComputes_compress {f : Fmt} {data : List Byte} {s : State} (hloaded : Loaded data s)
    (hcap : data.length ≤ Config.maxCompressLen) :
    CallComputes .compress f s (compressSpec f data s.windowSize.toNat) := by
  have hexec := exec_compress_of_check (s := beginCall .compress f { s with acts := [] }) rfl rfl
  by_cases hbad : s.windowSize.toNat < f.spec.winMin ∨ s.windowSize.toNat > f.spec.winMax
  · rw [checkWindow_of_bad hbad] at hexec
    rw [compressSpec_of_badWindow data hbad, callComputes_iff]
    exact endsAs_of_raise ((step_of_command rfl (.inl rfl)).trans hexec)
  · rw [checkWindow_of_good hbad] at hexec
    rw [compressSpec_of_goodWindow data hbad]
    exact callComputes_of_startEncode (by decide) hloaded hcap hexec

theorem callComputes_compressFast {f : Fmt} {data : List Byte} {s : State} (hloaded : Loaded data s)
    (hcap : data.length ≤ Config.maxCompressLen) : CallComputes .compressFast f s (compressSpec f data 1024) := by
  have hwindow : ¬(1024 < f.spec.winMin ∨ 1024 > f.spec.winMax) := by
    have hmin := winMin_eq_one f
    have hmax : 1024 ≤ f.spec.winMax := fastWindow_le_winMax f
    omega
  rw [compressSpec_of_goodWindow data hwindow]
  exact callComputes_of_startEncode (by decide) hloaded hcap (fastCompressTakesWindow1024 f _ rfl rfl rfl)

/-- Settles O54: the check of the window, then the token loop, which follows the greedy parse of the data. -/
theorem compressComputesItsFunction : Obligations.CompressComputesItsFunction := fun _ _ _ hloaded hcap =>
  ⟨callComputes_compress hloaded hcap, callComputes_compressFast hloaded hcap⟩

end Sys2Proof.Machine

/-! SUPPORT. Errors (60_exceptions.md): the error entry and what leaves FAILED, the check of the window, and that a compress
call with a good window has no error to meet and stays within the size bound. -/

namespace Sys2Proof.Machine

/-! Error entry (60_exceptions.md R191, R196). -/

/-- Settles O13: `raise` is the state R196 writes out, and STATUS is the word of FAILED and the error's code. -/
theorem errorEntryAsTheHostSeesIt : Obligations.ErrorEntryAsTheHostSeesIt :=
  fun _ => ⟨rfl, rfl, rfl, fun _ => ⟨rfl, rfl⟩⟩

/-- Settles O16: `win_min` is 1, so the two cases are those of `checkWindow`. -/
theorem compressChecksItsWindow : Obligations.CompressChecksItsWindow := by
  rintro f s hop rfl hp
  have hmin := winMin_eq_one s.fmt
  rw [exec_compress_of_check hop hp]
  refine ⟨fun hlo hhi => ?_, fun hbad => ?_⟩
  · rw [checkWindow_of_good (by omega)]
    rfl
  · rw [checkWindow_of_bad (by omega)]
    rfl

/-! What leaves FAILED (60_exceptions.md R198). -/

theorem EngineStep.eq_of_idle {s t : State} (h : EngineStep s t) (hp : s.phase = .idle) : t = s := by
  cases h with
  | idle => rfl
  | _ =>
    -- every other visit is of a phase that is not `P_IDLE`
    simp_all only [reduceCtorEq]

/-- STATE and ERR are as before. -/
def SameStatus (s t : State) : Prop := t.callState = s.callState ∧ t.err = s.err

theorem regWrite_sameStatus {s t : State} {number : Nat} {value : Word} (h : regWrite number value s = .next t) :
    SameStatus s t := by
  unfold regWrite at h
  split at h
  · cases h
  · split at h
    · cases h; exact ⟨rfl, rfl⟩
    · split at h
      · split at h <;> cases h
        exact ⟨rfl, rfl⟩
      all_goals cases h; exact ⟨rfl, rfl⟩

/-- Of the host's moves beside START only RESET reaches the status fields. -/
theorem hostMove_sameStatus {s t : State} {a : HostAct} (h : hostMove a s = .next t) (ha : a ≠ .reset) :
    SameStatus s t := by
  cases a with
  | writeReg number value => exact regWrite_sameStatus h
  | readReg number =>
    simp only [hostMove] at h
    split at h <;> cases h
    exact ⟨rfl, rfl⟩
  | writeIbuf | readIbuf | readObuf => obtain ⟨-, -, rfl⟩ := bufferAccess_next h; exact ⟨rfl, rfl⟩
  | writeObuf => simp only [hostMove] at h; split at h <;> cases h
  | reset => exact absurd rfl ha
  | engine => cases h; exact ⟨rfl, rfl⟩

/-- Settles O47: the engine is in `P_IDLE` and does nothing, and of the host's moves START begins a call and RESET resets. -/
theorem failedIsSticky : Obligations.FailedIsSticky := by
  intro s t hs hfailed hstep
  have hp : s.phase = .idle := hs.idle_iff.2 (by simp [hfailed])
  obtain ⟨-, h⟩ | ⟨rest, -, h⟩ | ⟨rest, ha, h⟩ | ⟨a, rest, ha, h⟩ := step_cases hstep
  · obtain rfl := h.eq_of_idle hp
    exact .inl ⟨hfailed, rfl⟩
  · obtain rfl := h.eq_of_idle hp
    exact .inl ⟨hfailed, rfl⟩
  · obtain ⟨hbusy, -⟩ | ⟨op, f, -, -, -, rfl⟩ := execStart_next h
    · exact absurd (hfailed.symm.trans hbusy) (by decide)
    · exact .inr (.inl ⟨rest, ha, rfl, rfl⟩)
  · by_cases hr : a = .reset
    · exact .inr (.inr ⟨rest, hr ▸ ha⟩)
    · obtain ⟨hstate, herr⟩ := hostMove_sameStatus h hr
      exact .inl ⟨hstate.trans hfailed, herr⟩

/-! The size bound (42_token_encoder.md R131), on the stream as R176 gives it. -/

/-- By induction on the tokens allowed: a literal puts nine bits for its byte, a match no more for each of its bytes. -/
theorem tokensFrom_bits_length_le (f : Fmt) (D : Nat → Byte) (n w i fuel : Nat) :
    ((tokensFrom f.spec D n w i fuel).flatMap (tokenBits f)).length ≤ 9 * (n - i) := by
  induction fuel generalizing i with
  | zero => exact Nat.zero_le _
  | succ fuel ih =>
    by_cases hi : i < n
    · cases hfind : findSpec f.spec D n w i with
      | some answer =>
        obtain ⟨off, len⟩ := answer
        obtain ⟨hmin, -, hlen, -⟩ := mfFind_bounds ((mfFind_eq_findSpec f D n w i).trans hfind)
        have hwidth := matchBits_le_nine_mul_minLen f
        have hrest := ih (i + len)
        simp only [tokensFrom, if_pos hi, hfind, List.flatMap_cons, List.length_append, tokenBits, matchBits_length]
        omega
      | none =>
        have hrest := ih (i + 1)
        simp only [tokensFrom, if_pos hi, hfind, List.flatMap_cons, List.length_append, tokenBits, litBits_length]
        omega
    · simp only [tokensFrom, if_neg hi, List.flatMap_nil, List.length_nil, Nat.zero_le]

theorem streamOf_tokensOf_length_le (f : Fmt) (data : List Byte) (w : Nat) :
    (streamOf f data.length (tokensOf f.spec data w)).length ≤ 5 + (9 * data.length + 7) / 8 := by
  have hbits := tokensFrom_bits_length_le f (fun a => data.getD a 0) data.length w 0 data.length
  rw [streamOf, tokensOf, List.length_append, hdrBytes_length, packBytes_length]
  omega

/-! A compress call with a good window (60_exceptions.md R201). -/

/-- Every state has some data loaded: `IN_LEN` bytes, written by the host or not. -/
theorem exists_loaded (s : State) : ∃ data : List Byte, Loaded data s ∧ data.length = s.inLen.toNat :=
  ⟨(List.range s.inLen.toNat).map (ibufByte s), ⟨by simp, fun a h => by simp⟩, by simp⟩

theorem compressSpec_of_inRange {f : Fmt} {ws : Nat} (data : List Byte) (hlo : 1 ≤ ws) (hhi : ws ≤ f.spec.winMax) :
    compressSpec f data ws = .ok (streamOf f data.length (tokensOf f.spec data ws)) :=
  compressSpec_of_goodWindow data (by rw [winMin_eq_one]; omega)

/-- The call is answered by the stream of the parse under its window. -/
theorem callComputes_of_goodWindow {op : Op} {f : Fmt} {data : List Byte} {s : State} (hop : op ≠ .decompress)
    (hloaded : Loaded data s) (hcap : data.length ≤ Config.maxCompressLen)
    (hwindow : op = .compress → 1 ≤ s.windowSize.toNat ∧ s.windowSize.toNat ≤ f.spec.winMax) :
    ∃ w, CallComputes op f s (.ok (streamOf f data.length (tokensOf f.spec data w))) := by
  cases op with
  | compress =>
    obtain ⟨hlo, hhi⟩ := hwindow rfl
    exact ⟨_, compressSpec_of_inRange data hlo hhi ▸ callComputes_compress hloaded hcap⟩
  | compressFast =>
    exact ⟨_, compressSpec_of_inRange data (by decide) (fastWindow_le_winMax f) ▸ callComputes_compressFast hloaded hcap⟩
  | decompress => exact absurd rfl hop

/-- Settles O57: whatever IBUF holds is data, and the stream the call answers with is within the bound. -/
theorem compressCannotFailAndIsBounded : Obligations.CompressCannotFailAndIsBounded := by
  intro f op s hop hcap hwindow
  obtain ⟨data, hloaded, hlen⟩ := exists_loaded s
  obtain ⟨w, k, t, hrun, -, hdone, herr, houtLen, -⟩ := callComputes_of_goodWindow hop hloaded (hlen.trans_le hcap) hwindow
  refine ⟨k, t, hrun, hdone, herr, ?_⟩
  rw [houtLen, ← hlen]
  exact streamOf_tokensOf_length_le f data w

end Sys2Proof.Machine

/-! SUPPORT. Reset, and that every call ends (70_reset_and_hazards.md R220, R233): a count of the visits still to come. -/

namespace Sys2Proof.Machine

/-- Settles O11: RESET is a host move, and `hardReset` does not ask what the engine was doing. -/
theorem resetAbandonsAnyCall : Obligations.ResetAbandonsAnyCall := by
  intro s rest ha
  have hstep : step s = .next (hardReset { s with acts := rest }) := step_of_hostMove ha (by decide) (by decide)
  exact ⟨_, hstep, rfl, rfl, rfl, rfl, rfl, rfl, rfl, rfl, fun _ => ⟨rfl, rfl⟩⟩

/-! Every call ends (70_reset_and_hazards.md R233). -/

/-- A bound of the visits a running call still has to make. A byte of output takes at most two visits of the decoder, a
byte of data at most one of the encoder; before the header is read its length is any 32-bit number. -/
def visitsLeft (s : State) : Nat :=
  match s.phase with
  | .idle => 0
  | .check => s.n + 2 ^ 33 + 4
  | .cHdr => s.n + 2
  | .cToken => s.n - s.cur + 1
  | .cFlush => 1
  | .dHdr => 2 ^ 33 + 3
  | .dToken => 2 * (s.origLen - s.olen) + 2
  | .dCopy => 2 * (s.origLen - s.olen) + 1
  | .dTail => 1

theorem visitsLeft_pos {s : State} (h : s.phase ≠ .idle) : 0 < visitsLeft s := by
  cases hp : s.phase with
  | idle => exact absurd hp h
  | _ => simp [visitsLeft, hp]

theorem visitsLeft_of_idle {s : State} (h : s.phase = .idle) : visitsLeft s = 0 := by simp [visitsLeft, h]

theorem visitsLeft_of_check {s : State} (h : s.phase = .check) : visitsLeft s = s.n + 2 ^ 33 + 4 := by
  simp [visitsLeft, h]

theorem visitsLeft_of_cHdr {s : State} (h : s.phase = .cHdr) : visitsLeft s = s.n + 2 := by simp [visitsLeft, h]

theorem visitsLeft_of_cToken {s : State} (h : s.phase = .cToken) : visitsLeft s = s.n - s.cur + 1 := by
  simp [visitsLeft, h]

theorem visitsLeft_of_dHdr {s : State} (h : s.phase = .dHdr) : visitsLeft s = 2 ^ 33 + 3 := by simp [visitsLeft, h]

theorem visitsLeft_of_dToken {s : State} (h : s.phase = .dToken) : visitsLeft s = 2 * (s.origLen - s.olen) + 2 := by
  simp [visitsLeft, h]

theorem visitsLeft_of_dCopy {s : State} (h : s.phase = .dCopy) : visitsLeft s = 2 * (s.origLen - s.olen) + 1 := by
  simp [visitsLeft, h]

theorem visitsLeft_le_of_encodeLoop {s : State} (h : s.phase = .cToken ∨ s.phase = .cFlush) :
    visitsLeft s ≤ s.n - s.cur + 1 := by
  rcases h with h | h <;> simp [visitsLeft, h]

theorem visitsLeft_le_of_decoding {s : State} (h : s.phase = .dToken ∨ s.phase = .dTail ∨ s.phase = .dCopy) :
    visitsLeft s ≤ 2 * (s.origLen - s.olen) + 2 := by
  rcases h with h | h | h <;> simp [visitsLeft, h]

theorem visitsLeft_checkWindow_le (s : State) : visitsLeft (checkWindow s) ≤ s.n + 2 := by
  unfold checkWindow
  split
  · exact (visitsLeft_of_idle rfl).trans_le (Nat.zero_le _)
  · exact (visitsLeft_of_cHdr rfl).le

theorem visitsLeft_encodeHeader_le (s : State) : visitsLeft (encodeHeader s) ≤ s.n + 1 :=
  visitsLeft_le_of_encodeLoop ((encodeHeader_phase s).imp And.left And.left)

theorem visitsLeft_encodeAdvance_le (p : Packer) (adv : Nat) (s : State) :
    visitsLeft (encodeAdvance p adv s) ≤ s.n - (s.cur + adv) + 1 :=
  visitsLeft_le_of_encodeLoop ((encodeAdvance_phase p adv s).imp And.left And.left)

/-- A token covers at least one byte. -/
theorem visitsLeft_encodeToken_le (s : State) : visitsLeft (encodeToken s) ≤ s.n - (s.cur + 1) + 1 := by
  cases h : mfFind s.fmt.spec (ibufByte s) s.n s.w s.cur s.index with
  | none =>
    rw [encodeToken_of_none h]
    exact visitsLeft_encodeAdvance_le ..
  | some answer =>
    obtain ⟨off, len⟩ := answer
    obtain ⟨hmin, -⟩ := mfFind_bounds h
    have hpos := minLen_pos s.fmt
    rw [encodeToken_of_some h]
    refine (visitsLeft_encodeAdvance_le _ len _).trans ?_
    show s.n - (s.cur + len) + 1 ≤ s.n - (s.cur + 1) + 1
    omega

theorem visitsLeft_decodeLoop_le (s : State) :
    visitsLeft { s with phase := decodeLoop s } ≤ 2 * (s.origLen - s.olen) + 2 :=
  visitsLeft_le_of_decoding ((decodeLoop_cases s).imp And.left (.inl ·.left))

theorem visitsLeft_copyByte_le (s : State) : visitsLeft (copyByte s) ≤ 2 * (s.origLen - (s.olen + 1)) + 2 :=
  visitsLeft_le_of_decoding ((copyByte_phase s).imp And.left (.imp And.left And.left))

/-- Each visit of a running call leaves fewer to come. -/
theorem EngineStep.visitsLeft_lt {s t : State} (h : EngineStep s t) (hi : EngineInv s) (hp : s.phase ≠ .idle) :
    visitsLeft t < visitsLeft s := by
  have ends : ∀ u, u.phase = .idle → visitsLeft u < visitsLeft s := fun u hu =>
    (visitsLeft_of_idle hu).trans_lt (visitsLeft_pos hp)
  cases h with
  | idle hidle => exact absurd hidle hp
  | checkCompress hp _ =>
    have hle := visitsLeft_checkWindow_le s
    rw [visitsLeft_of_check hp]
    omega
  | checkFast hp _ =>
    rw [visitsLeft_of_check hp, visitsLeft_of_cHdr rfl, startEncode_n]
    omega
  | checkDecompress hp _ =>
    rw [visitsLeft_of_check hp, visitsLeft_of_dHdr rfl]
    omega
  | header hp _ => exact (visitsLeft_of_cHdr hp).symm ▸ Nat.lt_succ_of_le (visitsLeft_encodeHeader_le s)
  | token hp _ =>
    have hle := visitsLeft_encodeToken_le s
    have hmore := hi.enc.more hp
    rw [visitsLeft_of_cToken hp]
    omega
  | @goodHeader t origLen hp _ ht =>
    have hle := visitsLeft_decodeLoop_le t
    have hlen : t.origLen < 2 ^ 32 := by rw [ht]; exact origLen.isLt
    rw [visitsLeft_of_dHdr hp]
    omega
  | @literal t byte hp _ ht =>
    have hle := visitsLeft_decodeLoop_le t
    have hmore := hi.dec.more hp
    have hstays : t.origLen = s.origLen ∧ t.olen = s.olen + 1 := by rw [ht]; exact ⟨rfl, rfl⟩
    rw [visitsLeft_of_dToken hp]
    omega
  | copyOver hp hrem => exact absurd hrem (hi.dec.copy hp).1.ne'
  | copy hp _ =>
    have hle := visitsLeft_copyByte_le s
    obtain ⟨hrem, -, -, -, -, hroom⟩ := hi.dec.copy hp
    rw [visitsLeft_of_dCopy hp]
    omega
  | flush | badHeader | exhausted | litTruncated | offTruncated | lenTruncated | tailLong | tailSet | tailDone =>
    exact ends _ rfl
  | _ =>
    -- `EngineStep.match`, the one constructor whose name is a keyword
    rename_i hp _ _ _ ht
    subst ht
    split
    · exact ends _ rfl
    · split
      · exact ends _ rfl
      · rw [visitsLeft_of_dCopy rfl, visitsLeft_of_dToken hp]
        exact Nat.lt_succ_self _

/-- By induction on the visits still to come; the engine in `P_IDLE`, with a call not yet shown to the host, has ended it. -/
theorem callEnds {s : State} (hi : EngineInv s) (ha : s.acts = []) (howned : s.awaitingEnd = true) :
    ∃ k t, runSteps k s = .next t ∧ (t.callState = .done ∨ t.callState = .failed) := by
  induction hn : visitsLeft s using Nat.strong_induction_on generalizing s with
  | _ n ih =>
    by_cases hp : s.phase = .idle
    · have hbusy := hi.status.idle_iff.1 hp
      have hidle : s.callState ≠ .idle := fun h => by simp [hi.latch.free h] at howned
      refine ⟨0, s, rfl, ?_⟩
      cases hc : s.callState with
      | idle => exact absurd hc hidle
      | busy => exact absurd hc hbusy
      | done => exact .inl rfl
      | failed => exact .inr rfl
    · obtain ⟨t, hstep⟩ := engineNeverStops s hi ha
      have he : EngineStep s t := engineOutcome_next ((step_of_no_acts ha).symm.trans hstep)
      have hside := he.sameHostSide
      obtain ⟨k, u, hrun, hu⟩ := ih _ (hn ▸ he.visitsLeft_lt hi hp) (he.engineInv hi) (hside.acts.trans ha)
        (hside.awaitingEnd.trans howned) rfl
      exact ⟨k + 1, u, (runSteps_of_step k hstep).trans hrun, hu⟩

/-- Settles O48: a running call is one the host has not been shown the end of, and `callEnds` has the rest. -/
theorem everyCallEnds : Obligations.EveryCallEnds := fun _ hi hbusy =>
  callEnds (hi.setActs []) rfl (hi.latch.owner hbusy)

end Sys2Proof.Machine

/-! SUPPORT. A call's result rests on its operands alone (70_reset_and_hazards.md R229): a run ends in one way only, and
the functions of 44_codec_commands.md R176 say which. -/

namespace Sys2Proof.Machine

/-! A run ends in one way only. -/

theorem runSteps_add {s t : State} {k : Nat} (m : Nat) (h : runSteps k s = .next t) :
    runSteps (k + m) s = runSteps m t := by
  induction k generalizing s with
  | zero => cases h; rw [Nat.zero_add]
  | succ k ih =>
    cases hstep : step s with
    | next u =>
      rw [runSteps_of_step k hstep] at h
      rw [Nat.succ_add, runSteps_of_step _ hstep, ih h]
    | fault r => simp [runSteps, hstep] at h
    | refused r => simp [runSteps, hstep] at h

theorem runSteps_acts {s t : State} {k : Nat} (ha : s.acts = []) (h : runSteps k s = .next t) : t.acts = [] := by
  induction k generalizing s with
  | zero => cases h; exact ha
  | succ k ih =>
    cases hstep : step s with
    | next u =>
      obtain ⟨-, -, -, -, hacts, -⟩ := engineLeavesTheHostsStateAlone s u ha hstep
      exact ih hacts ((runSteps_of_step k hstep).symm.trans h)
    | fault r => simp [runSteps, hstep] at h
    | refused r => simp [runSteps, hstep] at h

theorem runSteps_of_idle {s : State} (ha : s.acts = []) (hp : s.phase = .idle) (k : Nat) : runSteps k s = .next s := by
  induction k with
  | zero => rfl
  | succ k ih => rw [runSteps_of_step k (idleEngineDoesNothing s ha hp), ih]

/-- Two runs of one engine that both end, the second no shorter, end in one state. -/
theorem eq_of_runSteps_idle {s t u : State} {k m : Nat} (ha : s.acts = []) (ht : runSteps k s = .next t)
    (hp : t.phase = .idle) (hu : runSteps m s = .next u) (hkm : k ≤ m) : t = u := by
  obtain ⟨d, rfl⟩ := Nat.exists_eq_add_of_le hkm
  rw [runSteps_add d ht, runSteps_of_idle (runSteps_acts ha ht) hp] at hu
  exact Host.Outcome.next.inj hu

theorem EndsWith.unique {t : State} {r r' : Except ErrKind (List Byte)} (h : EndsWith r t) (h' : EndsWith r' t) :
    r = r' := by
  obtain ⟨-, h⟩ := h
  obtain ⟨-, h'⟩ := h'
  cases r with
  | ok out =>
    obtain ⟨hdone, -, hlen, hbytes⟩ := h
    cases r' with
    | ok out' =>
      obtain ⟨-, -, hlen', hbytes'⟩ := h'
      have hout : out = out' :=
        List.ext_getElem (hlen.symm.trans hlen') fun a ha ha' => (hbytes a ha).symm.trans (hbytes' a ha')
      rw [hout]
    | error e => exact absurd (hdone.symm.trans h'.1) (by decide)
  | error e =>
    obtain ⟨hfailed, herr, -⟩ := h
    cases r' with
    | ok out' => exact absurd (hfailed.symm.trans h'.1) (by decide)
    | error e' =>
      obtain ⟨-, herr', -⟩ := h'
      rw [Option.some.inj (herr.symm.trans herr')]

theorem EndsAs.unique {s : State} {r r' : Except ErrKind (List Byte)} (ha : s.acts = []) (h : EndsAs s r)
    (h' : EndsAs s r') : r = r' := by
  obtain ⟨k, t, hrun, ht⟩ := h
  obtain ⟨m, u, hrun', hu⟩ := h'
  have htu : t = u := by
    rcases Nat.le_total k m with hkm | hmk
    · exact eq_of_runSteps_idle ha hrun ht.1 hrun' hkm
    · exact (eq_of_runSteps_idle ha hrun' hu.1 hrun hmk).symm
  exact ht.unique (htu ▸ hu)

/-! The result a call has by its operands (44_codec_commands.md R172 to R176). -/

/-- The function of R176 that a call computes; `ws` stands in `WINDOW_SIZE`. -/
def callSpec (op : Op) (f : Fmt) (data : List Byte) (ws : Nat) : Except ErrKind (List Byte) :=
  match op with
  | .compress => compressSpec f data ws
  | .decompress => decompressSpec f data
  | .compressFast => compressSpec f data 1024

theorem callComputes_callSpec {op : Op} {f : Fmt} {data : List Byte} {s : State} (hloaded : Loaded data s)
    (hcap : op ≠ .decompress → data.length ≤ Config.maxCompressLen) :
    CallComputes op f s (callSpec op f data s.windowSize.toNat) := by
  cases op with
  | compress => exact callComputes_compress hloaded (hcap (by decide))
  | decompress => exact decompressComputesItsFunction f data s hloaded
  | compressFast => exact callComputes_compressFast hloaded (hcap (by decide))

theorem callSpec_congr {op : Op} (f : Fmt) (data : List Byte) {ws ws' : Nat} (h : op = .compress → ws = ws') :
    callSpec op f data ws = callSpec op f data ws' := by
  cases op with
  | compress => rw [h rfl]
  | decompress | compressFast => rfl

/-- Settles O58: both calls compute the function of the same operands, and a call has no second result. -/
theorem earlierCallsDoNotInfluence : Obligations.EarlierCallsDoNotInfluence := by
  intro op f s u result hlen hwindow hcap hbytes hs
  obtain ⟨data, hdata, hdataLen⟩ := exists_loaded s
  have hdata' : Loaded data u :=
    ⟨hlen ▸ hdata.1, fun a ha => (hbytes a (hdataLen ▸ ha)).symm.trans (hdata.2 a ha)⟩
  have hcap' : op ≠ .decompress → data.length ≤ Config.maxCompressLen := fun hop => hdataLen.trans_le (hcap hop)
  have hresult := EndsAs.unique rfl hs (callComputes_callSpec hdata hcap')
  rw [hresult, callSpec_congr f data fun hop => congrArg BitVec.toNat (hwindow hop)]
  exact callComputes_callSpec hdata' hcap'

end Sys2Proof.Machine

/-! SUPPORT. Compressed data decompressed (70_reset_and_hazards.md R228, R232): the tokens of the greedy parse stand for the
data, the decoder reads them back, and a stream cut short or with another length declared is rejected. -/

namespace Sys2Proof.Machine

/-! One token read back (30_encoding.md R76, R77, 43_token_decoder.md R144 to R146). -/

theorem readToken_litBits_append (f : Fmt) (byte : Byte) (rest : List Bool) :
    readToken f (litBits f byte ++ rest) = .ok (.lit byte, rest) := by
  have hlen := fieldBits_length f.spec.order 8 byte.toNat
  have hvalue := fieldValue_fieldBits f.spec.order byte.isLt
  simp [readToken, litBits, List.take_left' hlen, List.drop_left' hlen, hvalue]

theorem readToken_matchBits_append {f : Fmt} {off len : Nat} (h : matchWellFormed f.spec off len = true)
    (rest : List Bool) : readToken f (matchBits f off len ++ rest) = .ok (.back off len, rest) := by
  obtain ⟨⟨hoff, ho⟩, hlen, hl⟩ := matchWellFormed_iff.mp h
  have hoffLen := fieldBits_length f.spec.order f.spec.offBits (off - 1)
  have hlenLen := fieldBits_length f.spec.order f.spec.lenBits (len - f.spec.minLen)
  simp [readToken, matchBits, flagMatch_ne_flagLit, List.take_left' hoffLen, List.drop_left' hoffLen,
    List.take_left' hlenLen, List.drop_left' hlenLen, fieldValue_fieldBits _ ho, fieldValue_fieldBits _ hl,
    Nat.sub_add_cancel hoff, Nat.sub_add_cancel hlen, ← List.drop_drop]

theorem nine_le_matchBits (f : Fmt) : 9 ≤ f.spec.matchBits := by cases f <;> decide

theorem nine_le_tokenBits_length (f : Fmt) (tok : Token) : 9 ≤ (tokenBits f tok).length := by
  cases tok with
  | lit byte => exact (litBits_length f byte).ge
  | back off len => exact (nine_le_matchBits f).trans (matchBits_length f off len).ge

/-- The two errors of a stream that is no valid one (60_exceptions.md R190). -/
def StreamError (e : ErrKind) : Prop := e = .malformedStream ∨ e = .lengthMismatch

/-- The answer is a stream error, and no data. -/
def Rejected (result : Except ErrKind (List Byte)) : Prop := ∃ e, StreamError e ∧ result = .error e

theorem rejected_malformedStream : Rejected (.error .malformedStream) := ⟨_, .inl rfl, rfl⟩

/-- No token is shorter than nine bits, whatever its flag. -/
theorem readToken_of_few (f : Fmt) {bits : List Bool} (h : bits.length < 9) :
    ∃ e, StreamError e ∧ readToken f bits = .error e := by
  have hwidth := nine_le_matchBits f
  cases bits with
  | nil => exact ⟨_, .inr rfl, rfl⟩
  | cons flag rest =>
    rw [List.length_cons] at h
    refine ⟨_, .inl rfl, ?_⟩
    unfold FormatSpec.matchBits at hwidth
    by_cases hflag : flag = f.spec.flagLit
    · simp only [readToken, if_pos hflag, if_pos (show rest.length < 8 by omega)]
    · simp only [readToken, if_neg hflag, if_pos (show rest.length < f.spec.offBits + f.spec.lenBits by omega)]

/-- A token cut short is no token: its flag still tells how many bits it needs. -/
theorem readToken_of_cut (f : Fmt) {tok : Token} {k : Nat} (h : k < (tokenBits f tok).length) :
    ∃ e, StreamError e ∧ readToken f ((tokenBits f tok).take k) = .error e := by
  cases tok with
  | lit byte => exact readToken_of_few f ((List.length_take_le k _).trans_lt (h.trans_eq (litBits_length f byte)))
  | back off len =>
    rw [tokenBits, matchBits_length, FormatSpec.matchBits] at h
    cases k with
    | zero => exact readToken_of_few f (by simp)
    | succ k =>
      refine ⟨_, .inl rfl, ?_⟩
      rw [tokenBits, matchBits, List.take_succ_cons, readToken, if_neg (flagMatch_ne_flagLit f),
        if_pos ((List.length_take_le k _).trans_lt (by omega))]

/-! The reference decoder on such tokens. -/

theorem decodeSpec_rejected_of_read {f : Fmt} {origLen : Nat} {bits : List Bool} {out : List Byte} (fuel : Nat)
    (hmore : out.length < origLen) (h : ∃ e, StreamError e ∧ readToken f bits = .error e) :
    Rejected (decodeSpec f origLen (fuel + 1) bits out) := by
  obtain ⟨e, he, hread⟩ := h
  exact ⟨e, he, decodeSpec_of_error fuel hmore hread⟩

theorem copySpec_take {data : List Byte} {off len i : Nat} (hpos : 1 ≤ off) (hoff : off ≤ i)
    (hlen : i + len ≤ data.length) (hequal : ∀ t < len, data.getD (i - off + t) 0 = data.getD (i + t) 0) :
    copySpec off len (data.take i) = data.take (i + len) := by
  induction len generalizing i with
  | zero => rfl
  | succ len ih =>
    have hlt : i < data.length := by omega
    have hlast : (data.take i).getD ((data.take i).length - off) 0 = data[i] := by
      have hfirst := hequal 0 (Nat.succ_pos len)
      rw [Nat.add_zero, Nat.add_zero, List.getD_eq_getElem _ _ hlt] at hfirst
      rw [← hfirst, List.length_take_of_le hlt.le]
      simp [List.getElem?_take_of_lt (show i - off < i by omega)]
    rw [copySpec, hlast, List.take_append_getElem hlt, ih (by omega) (by omega) fun t ht => ?_]
    · congr 1
      omega
    · have hnext := hequal (t + 1) (by omega)
      rwa [show i + 1 - off + t = i - off + (t + 1) by omega, show i + 1 + t = i + (t + 1) by omega]

/-- The token `tok` stands for the data from `i` to `j`: a literal for its byte, a match for bytes that stand before
them already (41_match_finder.md R111). -/
inductive StandsFor (f : Fmt) (data : List Byte) (i : Nat) : Token → Nat → Prop where
  | lit (h : i < data.length) : StandsFor f data i (.lit data[i]) (i + 1)
  | back {off len : Nat} (hwf : matchWellFormed f.spec off len = true) (hoff : off ≤ i) (hlen : i + len ≤ data.length)
      (hequal : ∀ t < len, data.getD (i - off + t) 0 = data.getD (i + t) 0) : StandsFor f data i (.back off len) (i + len)

section

variable {f : Fmt} {data : List Byte} {i j origLen : Nat} {tok : Token} (h : StandsFor f data i tok j)

include h

theorem StandsFor.readToken_append (rest : List Bool) : readToken f (tokenBits f tok ++ rest) = .ok (tok, rest) := by
  cases h with
  | lit _ => exact readToken_litBits_append f _ rest
  | back hwf _ _ _ => exact readToken_matchBits_append hwf rest

theorem StandsFor.lt_le : i < j ∧ j ≤ data.length := by
  cases h with
  | lit h => exact ⟨Nat.lt_succ_self i, h⟩
  | back hwf _ hlen _ =>
    obtain ⟨-, hmin, -⟩ := matchWellFormed_iff.mp hwf
    have hpos := minLen_pos f
    exact ⟨by omega, hlen⟩

theorem StandsFor.take_length : (data.take i).length = i := by
  obtain ⟨hlt, hle⟩ := h.lt_le
  exact List.length_take_of_le (hlt.le.trans hle)

/-- With the data before the token behind it and room after it, the decoder puts the data the token stands for. -/
theorem StandsFor.decodeSpec_step (hj : j ≤ origLen) (fuel : Nat) (rest : List Bool) :
    decodeSpec f origLen (fuel + 1) (tokenBits f tok ++ rest) (data.take i) =
      decodeSpec f origLen fuel rest (data.take j) := by
  have hread := h.readToken_append rest
  have hlen := h.take_length
  obtain ⟨hlt, hle⟩ := h.lt_le
  have hmore : (data.take i).length < origLen := by omega
  cases h with
  | lit h => rw [decodeSpec_of_lit fuel hmore hread, List.take_append_getElem h]
  | back hwf hoff hroom hequal =>
    obtain ⟨⟨hpos, -⟩, -⟩ := matchWellFormed_iff.mp hwf
    rw [decodeSpec_of_back fuel hmore hread, hlen, if_neg (by omega), if_neg (by omega),
      copySpec_take hpos hoff hroom hequal]

/-- A declared length that ends inside a token. -/
theorem StandsFor.decodeSpec_overshoot (hi : i < origLen) (hj : origLen < j) (fuel : Nat) (rest : List Bool) :
    decodeSpec f origLen (fuel + 1) (tokenBits f tok ++ rest) (data.take i) = .error .lengthMismatch := by
  have hread := h.readToken_append rest
  have hlen := h.take_length
  cases h with
  | lit _ => omega
  | back _ hoff _ _ =>
    rw [decodeSpec_of_back fuel (hlen.trans_lt hi) hread, hlen, if_neg (by omega), if_pos hj]

end

/-- The tokens stand, one after another, for the data from a position to its end. -/
inductive Covers (f : Fmt) (data : List Byte) : Nat → List Token → Prop where
  | nil : Covers f data data.length []
  | cons {i j : Nat} {tok : Token} {toks : List Token} (htok : StandsFor f data i tok j) (h : Covers f data j toks) :
      Covers f data i (tok :: toks)

/-- The greedy parse covers the data (41_match_finder.md R111, 42_token_encoder.md R128). -/
theorem covers_tokensFrom {f : Fmt} {data : List Byte} {w i fuel : Nat} (hw1 : 1 ≤ w) (hw : w ≤ f.spec.winMax)
    (hi : i ≤ data.length) (hfuel : data.length - i ≤ fuel) :
    Covers f data i (tokensFrom f.spec (fun a => data.getD a 0) data.length w i fuel) := by
  induction fuel generalizing i with
  | zero =>
    obtain rfl : i = data.length := by omega
    exact .nil
  | succ fuel ih =>
    by_cases hlt : i < data.length
    · cases hfind : findSpec f.spec (fun a => data.getD a 0) data.length w i with
      | some answer =>
        obtain ⟨off, len⟩ := answer
        obtain ⟨-, -, hoff, hmin, hlen, hequal, hwf⟩ := foundMatchFitsItsToken f _ _ w i off len hlt hw1 hw
          ((mfFind_eq_findSpec f _ _ _ _).trans hfind)
        rw [wellFormed_matchOf] at hwf
        have hpos := minLen_pos f
        simp only [tokensFrom, if_pos hlt, hfind]
        exact .cons (.back hwf hoff (by omega) hequal) (ih (by omega) (by omega))
      | none =>
        simp only [tokensFrom, if_pos hlt, hfind, List.getD_eq_getElem _ _ hlt]
        exact .cons (.lit hlt) (ih hlt (by omega))
    · obtain rfl : i = data.length := by omega
      simp only [tokensFrom, if_neg hlt]
      exact .nil

theorem covers_tokensOf {f : Fmt} (data : List Byte) {w : Nat} (hw1 : 1 ≤ w) (hw : w ≤ f.spec.winMax) :
    Covers f data 0 (tokensOf f.spec data w) := covers_tokensFrom hw1 hw (Nat.zero_le _) le_rfl

/-- The stream bits of a run of tokens. -/
def tokensBits (f : Fmt) (toks : List Token) : List Bool := toks.flatMap (tokenBits f)

@[simp] theorem tokensBits_nil (f : Fmt) : tokensBits f [] = [] := rfl

@[simp] theorem tokensBits_cons (f : Fmt) (tok : Token) (toks : List Token) :
    tokensBits f (tok :: toks) = tokenBits f tok ++ tokensBits f toks := List.flatMap_cons

theorem streamOf_eq (f : Fmt) (origLen : Nat) (toks : List Token) :
    streamOf f origLen toks = hdrBytes f (BitVec.ofNat 32 origLen) ++ packBytes f.spec.order (tokensBits f toks) := rfl

theorem length_le_tokensBits_length (f : Fmt) (toks : List Token) : toks.length ≤ (tokensBits f toks).length := by
  induction toks with
  | nil => exact le_rfl
  | cons tok toks ih =>
    have hnine := nine_le_tokenBits_length f tok
    rw [tokensBits_cons, List.length_append, List.length_cons]
    omega

/-- The decoder reads all the tokens back, if the declared length leaves room. -/
theorem Covers.decodeSpec_eq {f : Fmt} {data : List Byte} {i origLen : Nat} {toks : List Token} (h : Covers f data i toks)
    (hlen : data.length ≤ origLen) (fuel : Nat) (rest : List Bool) :
    decodeSpec f origLen (toks.length + fuel) (tokensBits f toks ++ rest) (data.take i) =
      decodeSpec f origLen fuel rest data := by
  induction h with
  | nil => simp
  | @cons i j tok toks htok h ih =>
    obtain ⟨-, hj⟩ := htok.lt_le
    rw [List.length_cons, Nat.succ_add, tokensBits_cons, List.append_assoc,
      htok.decodeSpec_step (hj.trans hlen), ih]

/-- A declared length below the data's ends between two tokens, the next one left over, or inside one. -/
theorem Covers.decodeSpec_of_shorter {f : Fmt} {data : List Byte} {i origLen : Nat} {toks : List Token}
    (h : Covers f data i toks) (hi : i ≤ origLen) (hlen : origLen < data.length) (fuel : Nat) (rest : List Bool) :
    decodeSpec f origLen fuel (tokensBits f toks ++ rest) (data.take i) = .error .lengthMismatch := by
  induction h generalizing fuel with
  | nil => omega
  | @cons i j tok toks htok h ih =>
    have htake := htok.take_length
    have hnine := nine_le_tokenBits_length f tok
    rw [tokensBits_cons, List.append_assoc]
    have htail : tailSpec (tokenBits f tok ++ (tokensBits f toks ++ rest)) (data.take i) = .error .lengthMismatch :=
      if_pos (by rw [List.length_append]; omega)
    rcases hi.eq_or_lt with rfl | hlt
    · rw [decodeSpec_of_full _ _ htake.ge, htail]
    · cases fuel with
      | zero => exact htail
      | succ fuel =>
        by_cases hj : j ≤ origLen
        · rw [htok.decodeSpec_step hj, ih hj]
        · exact htok.decodeSpec_overshoot hlt (Nat.not_le.1 hj) fuel _

/-- A token area cut anywhere ends inside a token or before one. -/
theorem Covers.rejected_of_cut {f : Fmt} {data : List Byte} {i k fuel : Nat} {toks : List Token} (h : Covers f data i toks)
    (hk : k < (tokensBits f toks).length) (hfuel : k < fuel) :
    Rejected (decodeSpec f data.length fuel ((tokensBits f toks).take k) (data.take i)) := by
  induction h generalizing k fuel with
  | nil => exact absurd hk (Nat.not_lt_zero k)
  | @cons i j tok toks htok h ih =>
    obtain ⟨fuel, rfl⟩ := Nat.exists_eq_add_of_lt hfuel
    obtain ⟨hij, hj⟩ := htok.lt_le
    rw [tokensBits_cons, List.length_append] at hk
    rw [tokensBits_cons, List.take_append]
    by_cases hcut : k < (tokenBits f tok).length
    · rw [Nat.sub_eq_zero_of_le hcut.le, List.take_zero, List.append_nil]
      exact decodeSpec_rejected_of_read _ (htok.take_length.trans_lt (hij.trans_le hj)) (readToken_of_cut f hcut)
    · have hnine := nine_le_tokenBits_length f tok
      rw [List.take_of_length_le (Nat.not_lt.1 hcut), htok.decodeSpec_step hj]
      exact ih (by omega) (by omega)

/-! The token area as bytes (30_encoding.md R74). -/

@[simp] theorem bitsOfBytes_length (o : BitOrder) (bytes : List Byte) :
    (bitsOfBytes o bytes).length = 8 * bytes.length := by
  simp [bitsOfBytes]

theorem bitsOfBytes_getElem (o : BitOrder) (bytes : List Byte) {k : Nat} (hk : k < 8 * bytes.length) :
    (bitsOfBytes o bytes)[k]'(by simpa using hk) = bitOfByte o (bytes[k / 8]'(by omega)) k := by
  simp only [bitsOfBytes, List.getElem_map, List.getElem_range]
  rw [List.getD_eq_getElem]

/-- The zeros that fill the last byte of a run of bits (30_encoding.md R79). -/
def padding (bits : List Bool) : List Bool := List.replicate (8 * ((bits.length + 7) / 8) - bits.length) false

theorem padding_length_lt (bits : List Bool) : (padding bits).length < 8 := by
  rw [padding, List.length_replicate]
  omega

theorem padding_any (bits : List Bool) : (padding bits).any id = false := by simp [padding]

/-- The bytes of a run of bits hold the run and then its padding. -/
theorem bitsOfBytes_packBytes (o : BitOrder) (bits : List Bool) :
    bitsOfBytes o (packBytes o bits) = bits ++ padding bits := by
  refine List.ext_getElem (by simp [padding]; omega) fun k hk _ => ?_
  rw [bitsOfBytes_length] at hk
  rw [bitsOfBytes_getElem o _ hk, packBytes_getElem, ← bitOfByte_mod,
    bitOfByte_byteOfBits o _ le_rfl (Nat.mod_lt k (by decide)), decide_eq_true (Nat.mod_lt k (by decide)), Bool.true_and,
    Nat.div_add_mod]
  by_cases hlt : k < bits.length
  · simp [hlt]
  · simp [padding, List.getElem_append_right (Nat.not_lt.1 hlt), List.getElem?_eq_none (Nat.not_lt.1 hlt)]

theorem bitsOfBytes_take (o : BitOrder) (bytes : List Byte) (m : Nat) :
    bitsOfBytes o (bytes.take m) = (bitsOfBytes o bytes).take (8 * m) := by
  refine List.ext_getElem (by simp) fun k hk _ => ?_
  rw [bitsOfBytes_length] at hk
  have hk' : k < 8 * bytes.length := hk.trans_le (by simp)
  rw [bitsOfBytes_getElem o _ hk, List.getElem_take, List.getElem_take, bitsOfBytes_getElem o _ hk']

/-! Whole streams (70_reset_and_hazards.md R228, R232). -/

/-- Behind the header of its format a stream is its token area. -/
theorem decompressSpec_hdrBytes (f : Fmt) (origLen : Word) (area : List Byte) :
    decompressSpec f (hdrBytes f origLen ++ area) =
      decodeSpec f origLen.toNat (8 * area.length + 1) (bitsOfBytes f.spec.order area) [] := by
  have h := decompressSpec_of_header f (origLen.extractLsb' 0 8) (origLen.extractLsb' 8 8) (origLen.extractLsb' 16 8)
    (origLen.extractLsb' 24 8) area
  rwa [le32_extractLsb'] at h

theorem toNat_ofNat_length {n : Nat} (h : n ≤ Config.maxCompressLen) : (BitVec.ofNat 32 n).toNat = n := by
  unfold Config.maxCompressLen at h
  exact Nat.mod_eq_of_lt (by omega)

/-- Any declared length that leaves room has the tokens read back, and then decides over the padding. -/
theorem Covers.decompressSpec_eq {f : Fmt} {data : List Byte} {toks : List Token} {origLen : Word}
    (h : Covers f data 0 toks) (hlen : data.length ≤ origLen.toNat) :
    ∃ fuel, decompressSpec f (hdrBytes f origLen ++ packBytes f.spec.order (tokensBits f toks)) =
      decodeSpec f origLen.toNat (fuel + 1) (padding (tokensBits f toks)) data := by
  have hle := length_le_tokensBits_length f toks
  obtain ⟨fuel, hfuel⟩ := Nat.exists_eq_add_of_le
    (show toks.length ≤ 8 * (packBytes f.spec.order (tokensBits f toks)).length by rw [packBytes_length]; omega)
  refine ⟨fuel, ?_⟩
  rw [decompressSpec_hdrBytes, bitsOfBytes_packBytes, hfuel]
  exact h.decodeSpec_eq hlen (fuel + 1) _

theorem Covers.decompressSpec_streamOf {f : Fmt} {data : List Byte} {toks : List Token} (h : Covers f data 0 toks)
    (hcap : data.length ≤ Config.maxCompressLen) : decompressSpec f (streamOf f data.length toks) = .ok data := by
  have hlen := toNat_ofNat_length hcap
  obtain ⟨fuel, hdecode⟩ := h.decompressSpec_eq hlen.ge
  rw [streamOf_eq, hdecode, decodeSpec_of_full _ _ hlen.le, tailSpec, if_neg (Nat.not_le.2 (padding_length_lt _)), padding_any]
  rfl

/-- Cut to `m` bytes: no header, or a token area that lacks a bit of its last token. -/
theorem Covers.rejected_of_truncation {f : Fmt} {data : List Byte} {toks : List Token} {m : Nat} (h : Covers f data 0 toks)
    (hcap : data.length ≤ Config.maxCompressLen) (hm : m < (streamOf f data.length toks).length) :
    Rejected (decompressSpec f ((streamOf f data.length toks).take m)) := by
  by_cases hshort : m < 5
  · rw [decompressSpec_of_short f (by rw [List.length_take]; omega)]
    exact rejected_malformedStream
  · rw [streamOf_eq, List.length_append, hdrBytes_length, packBytes_length] at hm
    have hbits : 8 * (m - 5) < (tokensBits f toks).length := by omega
    rw [streamOf_eq, List.take_append, hdrBytes_length, List.take_of_length_le (Nat.not_lt.1 hshort),
      decompressSpec_hdrBytes, toNat_ofNat_length hcap, bitsOfBytes_take, bitsOfBytes_packBytes,
      List.take_append_of_le_length hbits.le]
    exact h.rejected_of_cut hbits (by rw [List.length_take, packBytes_length]; omega)

/-- Another declared length: below the data's a token is left over or overshoots, above it a token is missing. -/
theorem Covers.rejected_of_wrongLength {f : Fmt} {data : List Byte} {toks : List Token} {origLen : Word}
    (h : Covers f data 0 toks) (hne : origLen.toNat ≠ data.length) :
    Rejected (decompressSpec f (hdrBytes f origLen ++ packBytes f.spec.order (tokensBits f toks))) := by
  rcases hne.lt_or_gt with hlt | hgt
  · rw [decompressSpec_hdrBytes, bitsOfBytes_packBytes]
    exact ⟨_, .inr rfl, h.decodeSpec_of_shorter (Nat.zero_le _) hlt _ _⟩
  · obtain ⟨fuel, hdecode⟩ := h.decompressSpec_eq hgt.le
    rw [hdecode]
    exact decodeSpec_rejected_of_read fuel hgt (readToken_of_few f ((padding_length_lt _).trans (by decide)))

/-! The calls. -/

/-- A compress call within its preconditions answers with a parse of its data under a good window. -/
theorem callSpec_of_goodWindow {op : Op} {f : Fmt} {ws : Nat} (data : List Byte) (hop : op ≠ .decompress)
    (hwindow : op = .compress → 1 ≤ ws ∧ ws ≤ f.spec.winMax) :
    ∃ w, (1 ≤ w ∧ w ≤ f.spec.winMax) ∧
      callSpec op f data ws = .ok (streamOf f data.length (tokensOf f.spec data w)) := by
  cases op with
  | compress =>
    obtain ⟨hlo, hhi⟩ := hwindow rfl
    exact ⟨ws, ⟨hlo, hhi⟩, compressSpec_of_inRange data hlo hhi⟩
  | compressFast =>
    have hhi : 1024 ≤ f.spec.winMax := fastWindow_le_winMax f
    exact ⟨1024, ⟨by decide, hhi⟩, compressSpec_of_inRange data (by decide) hhi⟩
  | decompress => exact absurd rfl hop

/-- Settles O56: the stream is that of the greedy parse, which covers the data, and the decoder reads the tokens back. -/
theorem decompressInvertsCompress : Obligations.DecompressInvertsCompress := by
  intro f data op s hloaded hcap hop hwindow
  obtain ⟨w, ⟨hw1, hw⟩, hspec⟩ := callSpec_of_goodWindow data hop hwindow
  refine ⟨_, hspec ▸ callComputes_callSpec hloaded fun _ => hcap, fun u hu => ?_⟩
  rw [← (covers_tokensOf data hw1 hw).decompressSpec_streamOf hcap]
  exact decompressComputesItsFunction f _ u hu

theorem callComputes_of_rejected {f : Fmt} {stream : List Byte} {s : State} (hloaded : Loaded stream s)
    (h : Rejected (decompressSpec f stream)) : ∃ e, StreamError e ∧ CallComputes .decompress f s (.error e) := by
  obtain ⟨e, he, hspec⟩ := h
  exact ⟨e, he, hspec ▸ decompressComputesItsFunction f stream s hloaded⟩

/-- Settles O59: the decompress call computes its function, which rejects both kinds of damage. -/
theorem damagedStreamsAreRejected : Obligations.DamagedStreamsAreRejected := by
  intro f data w s hcap hw1 hw
  have hcovers := covers_tokensOf data hw1 hw
  exact ⟨fun m hm hloaded => callComputes_of_rejected hloaded (hcovers.rejected_of_truncation hcap hm),
    fun n' hne hloaded => callComputes_of_rejected hloaded (hcovers.rejected_of_wrongLength hne)⟩

end Sys2Proof.Machine
